-- ==== Sys2Proof/Word.lean ====
section
/-! DEFINITION. The word types: the 64-bit word of every register and arena word, the byte of a byte string,
and the block of 128 words (00_scope.md R7, R12). -/

namespace Sys2Proof

/-- `WORD`: the width of every register, arena word and host access is 64 bits (R7). -/
abbrev Word := BitVec 64

/-- One byte of a serialised string (R12). -/
abbrev Byte := BitVec 8

/-- A block: exactly 128 words, 1024 bytes (R7 `BLOCK_WORDS`, R15). -/
abbrev Block := Vector Word 128

end Sys2Proof
end

