-- ==== Sys2Proof/Syntax.lean ====
section
/-! DEFINITION. The 18 commands of the engine (30_encoding.md R94), one constructor per row of spec/opcode_table.json,
with the fields that the command word itself carries (R91, R92). Register operands (R93) are read at execution. -/

namespace Sys2Proof

/-- A command. Lengths are counts of bytes, so they are naturals; `WellFormed.lean` says which fit their field. -/
inductive Instr where
  /-- R220: no state change. -/
  | nop
  /-- R221: zero the arena and every piece of hashing state. -/
  | wipe
  /-- R222: validate and latch the Argon2 configuration. -/
  | cfg
  /-- R223: wipe MSG, DIGEST and DLEN. -/
  | scrub
  /-- R160: zero block OPA. -/
  | bzero
  /-- R161: XOR block OPB into block OPA. -/
  | bxor
  /-- R124: open a plain BLAKE2b context, digest length `nn`, key length `kk`. -/
  | b2init (nn kk : Nat)
  /-- R125: absorb the first `len` bytes of MSG. -/
  | b2upd (len : Nat)
  /-- R126: absorb the 1024 bytes of block OPA. -/
  | b2updb
  /-- R128: absorb the DLEN valid bytes of DIGEST. -/
  | b2updd
  /-- R127: close a plain context and write DIGEST. -/
  | b2fin
  /-- R143: open an H′ context of output length `t`. -/
  | hpinit (t : Nat)
  /-- R144: finish H′ and write its output to block OPA. -/
  | hpfin
  /-- R175: compress blocks OPB and OPC into block OPA; `w` is the overwrite flag W. -/
  | gcmp (w : Bool)
  /-- R192: start a segment. -/
  | agseg
  /-- R195: derive the reference for the next position. -/
  | agnext
  /-- R201: derive the reference and compress. -/
  | fillstep
  /-- R202: fill the rest of the active segment. -/
  | fillseg
  deriving DecidableEq, Repr

end Sys2Proof
end

