-- ==== Sys2Proof/WellFormed.lean ====
section
/-! DEFINITION. Which commands a command word can spell: every immediate fits its field (30_encoding.md R90, R92).
A value that fits its field and is out of the command's legal range is well formed; the command itself rejects it (R92). -/

namespace Sys2Proof

/-- The checks, one per immediate field: NN and KK have 8 bits, LEN and T have 16 (R92). -/
def Instr.wellFormed : Instr → Bool
  | .nop => true
  | .wipe => true
  | .cfg => true
  | .scrub => true
  | .bzero => true
  | .bxor => true
  | .b2init nn kk => decide (nn < 2 ^ 8) && decide (kk < 2 ^ 8)
  | .b2upd len => decide (len < 2 ^ 16)
  | .b2updb => true
  | .b2updd => true
  | .b2fin => true
  | .hpinit t => decide (t < 2 ^ 16)
  | .hpfin => true
  | .gcmp _ => true
  | .agseg => true
  | .agnext => true
  | .fillstep => true
  | .fillseg => true

end Sys2Proof
end

