-- ==== Sys2Proof/Decode.lean ====
section
/-! DEFINITION. Decoding a command word (30_encoding.md R90–R96), total on every 64-bit word and rejecting by name, and the
encoder written from the same tables. -/

namespace Sys2Proof

/-- The field of `len` bits of `w` whose lowest bit is bit `lo`, read as an unsigned number (R10). -/
def wordField (w : Word) (lo len : Nat) : Nat := w.toNat / 2 ^ lo % 2 ^ len

/-- Why a word is no legal command: the four tests of R95, in their order. Each of them is the error ILLEGAL. -/
inductive DecodeReject where
  /-- OP is not one of the 18 assigned opcodes (R96). Raised by `decode`; safe: the machine reports ILLEGAL. -/
  | unassignedOpcode
  /-- A bit of 63:32 or of 15:9 is set (R90). Raised by `decode`; safe. -/
  | reservedBits
  /-- W = 1 on an opcode other than GCMP (R90). Raised by `decode`; safe. -/
  | strayW
  /-- IMM ≠ 0 on an opcode other than B2INIT, B2UPD, HPINIT (R90). Raised by `decode`; safe. -/
  | strayImm
  deriving DecidableEq, Repr

/-- The opcode map (R94) with the fields of R92: the command that the word's OP names, before the reserved bits,
W and IMM are tested. -/
def opcodeInstr (w : Word) : Option Instr :=
  match wordField w 0 8 with
  | 0x00 => some .nop
  | 0x01 => some .wipe
  | 0x02 => some .cfg
  | 0x03 => some .scrub
  | 0x08 => some .bzero
  | 0x09 => some .bxor
  | 0x10 => some (.b2init (wordField w 16 8) (wordField w 24 8))
  | 0x11 => some (.b2upd (wordField w 16 16))
  | 0x12 => some .b2updb
  | 0x13 => some .b2updd
  | 0x14 => some .b2fin
  | 0x18 => some (.hpinit (wordField w 16 16))
  | 0x19 => some .hpfin
  | 0x20 => some (.gcmp (wordField w 8 1 == 1))
  | 0x28 => some .agseg
  | 0x29 => some .agnext
  | 0x2A => some .fillstep
  | 0x2B => some .fillseg
  | _ => none

/-- The commands that use IMM: format I of R91. -/
def usesImm : Instr → Bool
  | .b2init _ _ => true
  | .b2upd _ => true
  | .hpinit _ => true
  | _ => false

/-- The command that uses W: format RW of R91. -/
def usesW : Instr → Bool
  | .gcmp _ => true
  | _ => false

/-- R95, test by test and in its order. -/
def decode (w : Word) : Except DecodeReject Instr :=
  match opcodeInstr w with
  | none => .error .unassignedOpcode
  | some i =>
    if wordField w 32 32 ≠ 0 ∨ wordField w 9 7 ≠ 0 then .error .reservedBits
    else if wordField w 8 1 = 1 ∧ usesW i = false then .error .strayW
    else if wordField w 16 16 ≠ 0 ∧ usesImm i = false then .error .strayImm
    else .ok i

/-- The OP byte of a command (R94). -/
def opcode : Instr → Nat
  | .nop => 0x00
  | .wipe => 0x01
  | .cfg => 0x02
  | .scrub => 0x03
  | .bzero => 0x08
  | .bxor => 0x09
  | .b2init _ _ => 0x10
  | .b2upd _ => 0x11
  | .b2updb => 0x12
  | .b2updd => 0x13
  | .b2fin => 0x14
  | .hpinit _ => 0x18
  | .hpfin => 0x19
  | .gcmp _ => 0x20
  | .agseg => 0x28
  | .agnext => 0x29
  | .fillstep => 0x2A
  | .fillseg => 0x2B

/-- What the fields above OP add to the word (R90, R92): NN at bit 16, KK at bit 24, LEN and T at bit 16, W at bit 8. -/
def operandBits : Instr → Nat
  | .b2init nn kk => nn * 2 ^ 16 + kk * 2 ^ 24
  | .b2upd len => len * 2 ^ 16
  | .hpinit t => t * 2 ^ 16
  | .gcmp w => w.toNat * 2 ^ 8
  | _ => 0

/-- The command word of a well-formed command. -/
def encode (i : Instr) : Word := BitVec.ofNat 64 (opcode i + operandBits i)

/-- One row of the machine-readable opcode table: a word belongs to the row when `word AND mask = match` (R94). -/
structure OpcodeRow where
  mnemonic : String
  pattern : Word
  mask : Word
  deriving DecidableEq, Repr

/-- The mask of formats N and R: every bit is fixed (R94). -/
def maskFixed : Word := 0xFFFFFFFFFFFFFFFF#64
/-- The mask of format I: IMM is free (R94). -/
def maskImm : Word := 0xFFFFFFFF0000FFFF#64
/-- The mask of format RW: W is free (R94). -/
def maskW : Word := 0xFFFFFFFFFFFFFEFF#64

/-- R94 with its match and mask columns, as spec/opcode_table.json lists it. -/
def opcodeTable : List OpcodeRow :=
  [⟨"NOP", 0x00#64, maskFixed⟩, ⟨"WIPE", 0x01#64, maskFixed⟩, ⟨"CFG", 0x02#64, maskFixed⟩,
   ⟨"SCRUB", 0x03#64, maskFixed⟩, ⟨"BZERO", 0x08#64, maskFixed⟩, ⟨"BXOR", 0x09#64, maskFixed⟩] ++
  [⟨"B2INIT", 0x10#64, maskImm⟩, ⟨"B2UPD", 0x11#64, maskImm⟩, ⟨"B2UPDB", 0x12#64, maskFixed⟩,
   ⟨"B2UPDD", 0x13#64, maskFixed⟩, ⟨"B2FIN", 0x14#64, maskFixed⟩, ⟨"HPINIT", 0x18#64, maskImm⟩] ++
  [⟨"HPFIN", 0x19#64, maskFixed⟩, ⟨"GCMP", 0x20#64, maskW⟩, ⟨"AGSEG", 0x28#64, maskFixed⟩,
   ⟨"AGNEXT", 0x29#64, maskFixed⟩, ⟨"FILLSTEP", 0x2A#64, maskFixed⟩, ⟨"FILLSEG", 0x2B#64, maskFixed⟩]

/-- The command word whose low `nbits` bits are those of `w`, every bit above them 0. -/
def tableWord (nbits w : Nat) : Word := BitVec.ofNat 64 (w % 2 ^ nbits)

/-- The command that the decoder reads from an opcode-table word. A command is exactly one 64-bit word (R90), so a row of
more than 64 bits is none. -/
def decodeTableWord (nbits w : Nat) : Option Instr :=
  if nbits ≤ 64 then
    match decode (tableWord nbits w) with
    | .ok i => some i
    | .error _ => none
  else none

end Sys2Proof
end

