-- ==== Sys2Proof/Config.lean ====
section
/-! DEFINITION. What one engine fixes for its life: the parameter `ARENA_BLOCKS` (OPEN, 00_scope.md R7) and the
constants of the identification register (10_state.md R21); and the free value of the host procedure. -/

namespace Sys2Proof.Config

/-- The free value behind `ARENA_BLOCKS`: nothing in Lean can say which it is (R7: OPEN; assumption log 1).
Every value of `Fin 2^32` is one legal arena size less one. -/
opaque arenaSizeLessOne : Fin 4294967296

/-- `ARENA_BLOCKS` of the engine that `State.reset` is the reset state of: between 1 and 2^32 (R7), otherwise free.
Every statement about a state takes the number from the state's own field, so it holds for every legal size. -/
def arenaBlocks : Nat := arenaSizeLessOne.val + 1

/-- The value the register `ID` reads: version tag 0x13, interface revision 1 (R21, D33). -/
def idValue : Word := 0x113#64

/-- The free value that stands for a length of 2^32 bytes or more in a 32-bit length field of the host's stream: the spec gives
`LE32` for 32-bit values alone (00_scope.md R12) and no bound on those lengths (assumption log 18, DESIGN CHOICE). -/
opaque overlongLength : Nat → BitVec 32

end Sys2Proof.Config
end

