-- ==== Sys2Proof/Machine/State.lean ====
section
/-! DEFINITION. The state of the machine (10_state.md R20–R55) as plain data, the reasons a step can stop, and the
state after reset (10_state.md R53, 70_reset_and_hazards.md R260–R262). -/

namespace Sys2Proof.Machine

/-- The mode of the BLAKE2b context, `STATUS.B2MODE`: 0, 1, 2 (R23). The value 3 never occurs, so it has no constructor. -/
inductive B2Mode where
  | idle
  | plain
  | hprime
  deriving DecidableEq, Repr

/-- The error codes that are ever written to `STATUS.ERRCODE` (60_exceptions.md R231). -/
inductive CmdError where
  /-- 0x01: the word in CMD is no legal encoding. -/
  | illegal
  /-- 0x02: a host write to CMD while BUSY = 1. -/
  | busy
  /-- 0x03: the command is not legal in the current engine state. -/
  | sequence
  /-- 0x04: a parameter is out of its legal range. -/
  | config
  /-- 0x05: an operand is outside its bound. -/
  | range
  deriving DecidableEq, Repr

/-- The stored fields of `STATUS` (R23). AGEND and IRQ are computed, so they are not stored. `errCode = none` is ERRCODE 0. -/
structure Status where
  busy : Bool
  done : Bool
  err : Bool
  errCode : Option CmdError
  cfgv : Bool
  b2mode : B2Mode
  agact : Bool
  agind : Bool
  deriving DecidableEq, Repr

/-- The BLAKE2b context `ctx` (R45–R47): chaining words, 128-bit byte counter, input buffer and its fill level. -/
structure Ctx where
  h : Vector Word 8
  t : BitVec 128
  buf : Vector Byte 128
  buflen : Nat
  deriving DecidableEq, Repr

/-- The hidden blocks of the address generator `ag` (R48, R49). -/
structure AddrGen where
  ib : Block
  ab : Block
  abv : Bool
  deriving DecidableEq, Repr

/-- One host bus operation (20_memory.md R61, R63): it names the space, a word address and, for a write, one 64-bit word. -/
inductive BusOp where
  | readReg (off : Nat)
  | writeReg (off : Nat) (v : Word)
  | readArena (a : Nat)
  | writeArena (a : Nat) (v : Word)
  deriving DecidableEq, Repr

/-- Whose turn it is (00_scope.md R17, 10_state.md R24): a bus operation of the host, a step of the engine, or the reset
input with the draw of the arena's contents after it (R262). -/
inductive Turn where
  | host (op : BusOp)
  | engine
  | reset (draw : List Host.Cell)
  deriving DecidableEq, Repr

/-- Every piece of state of R20, and four fields of the model's own: the parameter `arenaBlocks` (R7), the turns still to be
taken, and what the host has read. The last three lines are those; INVENTORY.md lists every field. -/
structure State where
  /-- `CMD` (R22): the last issued command word. -/
  cmd : Word
  /-- `STATUS` (R23). -/
  status : Status
  /-- `CTRL.IE` (R25). -/
  ie : Bool
  /-- `OPA`, `OPB`, `OPC` (R26). -/
  opa : Word
  opb : Word
  opc : Word
  /-- `CFG_P`, `CFG_M`, `CFG_T`, `CFG_Y`: the used bits (R27–R30). -/
  cfgP : BitVec 32
  cfgM : BitVec 32
  cfgT : BitVec 32
  cfgY : BitVec 2
  /-- The active configuration (R31). -/
  actP : BitVec 32
  actT : BitVec 32
  actY : BitVec 2
  mprime : BitVec 32
  lanelen : BitVec 32
  seglen : BitVec 32
  /-- The segment position (R34). -/
  agPass : BitVec 32
  agSlice : BitVec 2
  agLane : BitVec 32
  agIndex : BitVec 32
  agCtr : Word
  /-- The results of the last step (R35). -/
  prand : Word
  refLane : BitVec 32
  refIndex : BitVec 32
  refBlk : BitVec 32
  curBlk : BitVec 32
  prevBlk : BitVec 32
  /-- `MSG0`..`MSG15` (R40) and `DIGEST0`..`DIGEST7` (R41). -/
  msg : Vector Word 16
  digest : Vector Word 8
  /-- `DLEN` (R42), `B2_OUTLEN` (R43), `HP_T` (R44). -/
  dlen : BitVec 7
  b2Outlen : BitVec 7
  hpT : BitVec 11
  /-- Hidden state (R45–R49). -/
  ctx : Ctx
  ag : AddrGen
  /-- The ARENA (20_memory.md R60) by bytes: byte 1024·b + 8·w + k is byte k of word w of block b (R71). -/
  arena : List Host.Cell
  /-- The parameter `ARENA_BLOCKS` (R7), which `NBLOCKS` reads (R32). No step changes it. -/
  arenaBlocks : Nat
  /-- The turns still to be taken, first to last: the environment of the engine as data (assumption log 3). -/
  turns : List Turn
  /-- The values the host's reads have returned, newest first (assumption log 4). -/
  readLog : List Word
  deriving DecidableEq, Repr

/-- Why the machine stops with a fault. -/
inductive Fault where
  /-- A host access while BUSY = 1 that R270 does not list: its effect and result are unspecified and "A model treats such an
  access as a fault". Raised by a host turn of `step`. Safe: nothing is claimed of such a program. -/
  | accessWhileBusy (op : BusOp)
  deriving DecidableEq, Repr

/-- Why the machine refuses an instruction. -/
inductive Refusal where
  /-- The command has no meaning in `exec` yet. Raised by `exec` alone; safe: nothing is claimed of the command. -/
  | notModelled (mnemonic : String)
  deriving DecidableEq, Repr

/-- The context after reset and after `WipeCtx` (R53, R122): every part 0. -/
def Ctx.zero : Ctx :=
  { h := Vector.replicate 8 0#64, t := 0#128, buf := Vector.replicate 128 0#8, buflen := 0 }

/-- The hidden blocks after reset and after WIPE (R53, R221). -/
def AddrGen.zero : AddrGen :=
  { ib := Vector.replicate 128 0#64, ab := Vector.replicate 128 0#64, abv := false }

/-- STATUS after reset: every stored field 0 (R53). -/
def Status.zero : Status :=
  { busy := false, done := false, err := false, errCode := none, cfgv := false, b2mode := .idle, agact := false,
    agind := false }

/-- The state after a reset of an engine of `blocks` arena blocks whose arena then holds `arena`: the table of R53, and for
the arena the draw of R262. -/
def State.afterReset (blocks : Nat) (arena : List Host.Cell) : State :=
  { cmd := 0, status := Status.zero, ie := false, opa := 0, opb := 0, opc := 0,
    cfgP := 0, cfgM := 0, cfgT := 0, cfgY := 0,
    actP := 0, actT := 0, actY := 0, mprime := 0, lanelen := 0, seglen := 0,
    agPass := 0, agSlice := 0, agLane := 0, agIndex := 0, agCtr := 0,
    prand := 0, refLane := 0, refIndex := 0, refBlk := 0, curBlk := 0, prevBlk := 0,
    msg := Vector.replicate 16 0#64, digest := Vector.replicate 8 0#64,
    dlen := 0, b2Outlen := 0, hpT := 0, ctx := Ctx.zero, ag := AddrGen.zero,
    arena := arena, arenaBlocks := blocks, turns := [], readLog := [] }

/-- The machine right after power-on: R53 with `ARENA_BLOCKS` free, no turn pending, and the arena draw that lists nothing
(assumption log 2). -/
def State.reset : State := State.afterReset Config.arenaBlocks []

end Sys2Proof.Machine
end

