-- ==== Sys2Proof/Machine/Bytes.lean ====
section
/-! DEFINITION. Bit fields, rotation, and the little-endian serialisation of words and blocks (00_scope.md R10–R12,
20_memory.md R70–R72). -/

namespace Sys2Proof.Machine

/-- `rotr64(x, n) = (x >> n) | (x << (64 − n))` truncated to 64 bits, for 1 ≤ n ≤ 63 (R11). -/
def rotr64 (x : Word) (n : Nat) : Word := (x >>> n) ||| (x <<< (64 - n))

/-- `lo32(x) = x[31:0]` (R11). -/
def lo32 (x : Word) : Nat := x.toNat % 2 ^ 32

/-- `hi32(x) = x[63:32]` (R11). -/
def hi32 (x : Word) : Nat := x.toNat / 2 ^ 32

/-- The `n` low bytes of `x`, least significant first (R12, R70). -/
def leBytes : Nat → Nat → List Byte
  | 0, _ => []
  | n + 1, x => BitVec.ofNat 8 x :: leBytes n (x / 256)

/-- The number whose bytes, least significant first, are the given ones: the inverse view of `leBytes`. -/
def leValue : List Byte → Nat
  | [] => 0
  | b :: bs => b.toNat + 256 * leValue bs

/-- `LE16(x)` (R70). -/
def le16 (x : BitVec 16) : List Byte := leBytes 2 x.toNat

/-- `LE32(x)` (R12). -/
def le32 (x : BitVec 32) : List Byte := leBytes 4 x.toNat

/-- `LE64(x)` (R12). -/
def le64 (x : Word) : List Byte := leBytes 8 x.toNat

/-- The words' bytes one after another: `LE64(W[0]) ‖ LE64(W[1]) ‖ …` (R12). -/
def wordsBytes (ws : List Word) : List Byte := ws.flatMap le64

/-- Word `k` of a byte string: the little-endian value of its bytes 8k..8k+7 (R12 `Words`). -/
def wordAt (bs : List Byte) (k : Nat) : Word := BitVec.ofNat 64 (leValue ((bs.drop (8 * k)).take 8))

/-- `Words(s)` for a string of 8·n bytes (R12). -/
def bytesWords (n : Nat) (bs : List Byte) : Vector Word n := Vector.ofFn fun k => wordAt bs k.val

/-- `Bytes(B)`, 1024 bytes (R12). -/
def blockBytes (B : Block) : List Byte := wordsBytes B.toList

/-- The block whose byte string is the given one (R12). -/
def blockOfBytes (bs : List Byte) : Block := bytesWords 128 bs

/-- `ZeroBlock` (R12). -/
def zeroBlock : Block := Vector.replicate 128 0#64

/-- `a ^ b` on two blocks, word by word (R11). -/
def blockXor (X Y : Block) : Block := Vector.ofFn fun w => X.get w ^^^ Y.get w

/-- `0^n`: `n` zero bytes (R12). -/
def zeroBytes (n : Nat) : List Byte := List.replicate n 0#8

end Sys2Proof.Machine
end

