-- ==== Sys2Proof/Machine/Memory.lean ====
section
/-! DEFINITION. The arena as a list of listed bytes in one canonical form, and the word and block accesses built on it
(20_memory.md R60–R68). -/

namespace Sys2Proof.Machine

/-- What an address that the memory does not list reads as (assumption log 2; R262 leaves the contents after reset
unspecified, and a reset turn carries any contents). -/
def unlisted (_a : Nat) : Byte := 0#8

/-- The byte at address `a`. -/
def memByte : List Host.Cell → Nat → Byte
  | [], a => unlisted a
  | (k, v) :: rest, a => if k = a then v else memByte rest a

/-- The `n` bytes from address `lo` on. The listed cells of that range are picked out once. -/
def memBytes (m : List Host.Cell) (lo n : Nat) : List Byte :=
  let w := m.filter fun c => decide (lo ≤ c.1) && decide (c.1 < lo + n)
  (List.range n).map fun i => memByte w (lo + i)

/-- The cells that list the bytes `bs` from address `a` on: none for a byte that equals what an unlisted address reads as. -/
def cellsFrom : Nat → List Byte → List Host.Cell
  | _, [] => []
  | a, b :: bs => if b = unlisted a then cellsFrom (a + 1) bs else (a, b) :: cellsFrom (a + 1) bs

/-- The memory with the bytes `bs` stored from address `lo` on, every other byte as before. The one store primitive. -/
def memWrite (m : List Host.Cell) (lo : Nat) (bs : List Byte) : List Host.Cell :=
  m.filter (fun c => decide (c.1 < lo)) ++ cellsFrom lo bs ++ m.filter (fun c => decide (lo + bs.length ≤ c.1))

/-- The canonical form of a memory whose addresses lie below `limit`: addresses strictly rising, none listed with what an
unlisted address reads as. -/
def memWf (limit : Nat) (m : List Host.Cell) : Bool :=
  decide (m.Pairwise fun c d => c.1 < d.1) && m.all fun c => decide (c.2 ≠ unlisted c.1) && decide (c.1 < limit)

/-- How many bytes the arena has: 1024 for each block (R60). -/
def arenaBytes (s : State) : Nat := 1024 * s.arenaBlocks

/-- How many words the arena has (R60): its word addresses run from 0 to 128·ARENA_BLOCKS − 1. -/
def arenaWords (s : State) : Nat := 128 * s.arenaBlocks

/-- `MemRead(a, 8)` (00_scope.md R13); a word address outside the arena touches no arena word and reads 0 (R62). -/
def arenaRead (s : State) (a : Nat) : Word :=
  if a < arenaWords s then wordAt (memBytes s.arena (8 * a) 8) 0 else 0#64

/-- `MemWrite(a, 8, v)` (00_scope.md R13); a write at a word address outside the arena is ignored (R62). -/
def arenaWrite (s : State) (a : Nat) (v : Word) : State :=
  if a < arenaWords s then { s with arena := memWrite s.arena (8 * a) (le64 v) } else s

/-- `BlockRead(b) = Arena[b]` (00_scope.md R13). Every command checks `b < ARENA_BLOCKS` first (R68); a number outside the
arena, which no run reaches, reads the zero block (assumption log 6). -/
def blockRead (s : State) (b : Nat) : Block :=
  if b < s.arenaBlocks then blockOfBytes (memBytes s.arena (1024 * b) 1024) else zeroBlock

/-- `BlockWrite(b, B)`: all 128 words of block `b` (00_scope.md R13); outside the arena nothing is written (assumption log 6). -/
def blockWrite (s : State) (b : Nat) (B : Block) : State :=
  if b < s.arenaBlocks then { s with arena := memWrite s.arena (1024 * b) (blockBytes B) } else s

/-- The arena whose contents a reset draws (R262): the given bytes, each that lies inside an arena of `blocks` blocks, in
canonical form. -/
def drawArena (blocks : Nat) (draw : List Host.Cell) : List Host.Cell :=
  draw.foldl (fun m c => if c.1 < 1024 * blocks then memWrite m c.1 [c.2] else m) []

end Sys2Proof.Machine
end

