-- ==== Sys2Proof/Machine/Flags.lean ====
section
/-! DEFINITION. The engine's only flags, the fields of STATUS (10_state.md R22–R24, R55), and the interrupt level
(60_exceptions.md R240). There are no arithmetic condition codes (R55). -/

namespace Sys2Proof.Machine

/-- ERRCODE of an error (60_exceptions.md R231). -/
def cmdErrorCode : CmdError → Nat
  | .illegal => 0x01
  | .busy => 0x02
  | .sequence => 0x03
  | .config => 0x04
  | .range => 0x05

/-- The ERRCODE field: 0 when there is no error (R23). -/
def errCodeField : Option CmdError → Nat
  | none => 0x00
  | some c => cmdErrorCode c

/-- The B2MODE field (R23). -/
def b2modeField : B2Mode → Nat
  | .idle => 0
  | .plain => 1
  | .hprime => 2

/-- STATUS.AGEND, computed: `AGACT = 1 and AG_INDEX ≥ SEGLEN` (R23). -/
def agEnd (s : State) : Bool := s.status.agact && decide (s.seglen.toNat ≤ s.agIndex.toNat)

/-- The interrupt output: `IRQ = R[CTRL].IE and (R[STATUS].DONE or R[STATUS].ERR)` (60_exceptions.md R240). -/
def irqLevel (s : State) : Bool := s.ie && (s.status.done || s.status.err)

/-- What a read of STATUS returns, field by field (R23). -/
def statusWord (s : State) : Word :=
  BitVec.ofNat 64
    (s.status.busy.toNat + s.status.done.toNat * 2 + s.status.err.toNat * 2 ^ 2
      + errCodeField s.status.errCode * 2 ^ 8
      + s.status.cfgv.toNat * 2 ^ 16 + b2modeField s.status.b2mode * 2 ^ 17
      + s.status.agact.toNat * 2 ^ 19 + s.status.agind.toNat * 2 ^ 20
      + (agEnd s).toNat * 2 ^ 21 + (irqLevel s).toNat * 2 ^ 22)

/-- The completion of a command without error (R24): BUSY <- 0, DONE <- 1. ERR and ERRCODE keep an earlier BUSY report
(60_exceptions.md R236). -/
def complete (s : State) : State :=
  { s with status := { s.status with busy := false, done := true } }

/-- An accepted issue of the command word `v` (R22). -/
def issue (v : Word) (s : State) : State :=
  { s with cmd := v, status := { s.status with busy := true, done := false, err := false, errCode := none } }

/-- A refused issue: CMD keeps its value, ERR <- 1, ERRCODE <- BUSY (R22). -/
def refuseIssue (s : State) : State :=
  { s with status := { s.status with err := true, errCode := some .busy } }

/-- A host write of `v` to STATUS: bit 1 clears DONE, bit 2 clears ERR and ERRCODE, every other bit is ignored (R23). -/
def writeStatus (v : Word) (s : State) : State :=
  { s with status :=
      { s.status with
        done := if v.getLsbD 1 then false else s.status.done
        err := if v.getLsbD 2 then false else s.status.err
        errCode := if v.getLsbD 2 then none else s.status.errCode } }

end Sys2Proof.Machine
end

