-- ==== Sys2Proof/Machine/Operands.lean ====
section
/-! DEFINITION. Where a command's and a bus operation's operands come from: the message and digest bytes
(10_state.md R40, R41), the block operands of OPA, OPB, OPC (30_encoding.md R93, 20_memory.md R68), and the map of REG
offsets to registers (10_state.md R52). -/

namespace Sys2Proof.Machine

/-- `MSGBYTES(n)`: the first `n` bytes of the message staging buffer (00_scope.md R13, R40). -/
def msgBytes (n : Nat) (s : State) : List Byte := (wordsBytes s.msg.toList).take n

/-- `DIGBYTES(n)`: the first `n` bytes of the digest register (00_scope.md R13, R41). -/
def digBytes (n : Nat) (s : State) : List Byte := (wordsBytes s.digest.toList).take n

/-- The bounds check of a block operand: the full 64-bit value against `ARENA_BLOCKS` (20_memory.md R68, 10_state.md R26). -/
def blockInRange (s : State) (operand : Word) : Bool := decide (operand.toNat < s.arenaBlocks)

/-- The registers of the REG space (R52). -/
inductive Reg where
  | id
  | cmd
  | status
  | ctrl
  | opa
  | opb
  | opc
  | cfgP
  | cfgM
  | cfgT
  | cfgY
  | actP
  | actT
  | actY
  | mprime
  | lanelen
  | seglen
  | nblocks
  | agPass
  | agSlice
  | agLane
  | agIndex
  | agCtr
  | prand
  | refLane
  | refIndex
  | refBlk
  | curBlk
  | prevBlk
  | msg (k : Fin 16)
  | digest (k : Fin 8)
  | dlen
  | b2Outlen
  | hpT
  deriving DecidableEq, Repr

/-- The word offset of a register (R52). -/
def regOffset : Reg → Nat
  | .id => 0x00
  | .cmd => 0x01
  | .status => 0x02
  | .ctrl => 0x03
  | .opa => 0x04
  | .opb => 0x05
  | .opc => 0x06
  | .cfgP => 0x08
  | .cfgM => 0x09
  | .cfgT => 0x0A
  | .cfgY => 0x0B
  | .actP => 0x0C
  | .actT => 0x0D
  | .actY => 0x0E
  | .mprime => 0x0F
  | .lanelen => 0x10
  | .seglen => 0x11
  | .nblocks => 0x12
  | .agPass => 0x14
  | .agSlice => 0x15
  | .agLane => 0x16
  | .agIndex => 0x17
  | .agCtr => 0x18
  | .prand => 0x19
  | .refLane => 0x1A
  | .refIndex => 0x1B
  | .refBlk => 0x1C
  | .curBlk => 0x1D
  | .prevBlk => 0x1E
  | .msg k => 0x20 + k.val
  | .digest k => 0x30 + k.val
  | .dlen => 0x38
  | .b2Outlen => 0x39
  | .hpT => 0x3A

/-- The register at a word offset; none at the reserved offsets and above 0x3F (R52, R54, 20_memory.md R61). -/
def regAt (off : Nat) : Option Reg :=
  match off with
  | 0x00 => some .id
  | 0x01 => some .cmd
  | 0x02 => some .status
  | 0x03 => some .ctrl
  | 0x04 => some .opa
  | 0x05 => some .opb
  | 0x06 => some .opc
  | 0x08 => some .cfgP
  | 0x09 => some .cfgM
  | 0x0A => some .cfgT
  | 0x0B => some .cfgY
  | 0x0C => some .actP
  | 0x0D => some .actT
  | 0x0E => some .actY
  | 0x0F => some .mprime
  | 0x10 => some .lanelen
  | 0x11 => some .seglen
  | 0x12 => some .nblocks
  | 0x14 => some .agPass
  | 0x15 => some .agSlice
  | 0x16 => some .agLane
  | 0x17 => some .agIndex
  | 0x18 => some .agCtr
  | 0x19 => some .prand
  | 0x1A => some .refLane
  | 0x1B => some .refIndex
  | 0x1C => some .refBlk
  | 0x1D => some .curBlk
  | 0x1E => some .prevBlk
  | 0x38 => some .dlen
  | 0x39 => some .b2Outlen
  | 0x3A => some .hpT
  | o =>
    if h : 0x20 ≤ o ∧ o < 0x30 then some (.msg ⟨o - 0x20, by omega⟩)
    else if h : 0x30 ≤ o ∧ o < 0x38 then some (.digest ⟨o - 0x30, by omega⟩)
    else none

end Sys2Proof.Machine
end

