-- ==== Sys2Proof/Machine/Ops.lean ====
section
/-! DEFINITION. The named operations over the registers: what a host read returns and a host write does (10_state.md
R21–R54, 20_memory.md R61–R66), the one operation that ends a command with an error (60_exceptions.md R233), and the
end of a command. -/

namespace Sys2Proof.Machine

/-- `raise CmdError(code)` (60_exceptions.md R233), the engine's only exception mechanism (R230): BUSY <- 0, ERR <- 1,
ERRCODE <- code, nothing else. There is no saved state, no mode change and no transfer of control (R237). -/
def raiseError (c : CmdError) (s : State) : State :=
  { s with status := { s.status with busy := false, err := true, errCode := some c } }

/-- The host's recovery from an error, in place of a return from exception (60_exceptions.md R238): it clears the report by
writing 1 to STATUS.ERR. -/
def clearReport (s : State) : State := writeStatus 4#64 s

/-- The end of a command (R24): with the command's new state, completion; with an error, the error effect on the state
before the command, so that errors are precise (60_exceptions.md R233). -/
def finish (s : State) (r : Except CmdError State) : State :=
  match r with
  | .ok s' => complete s'
  | .error c => raiseError c s

/-- What a host read of a register returns (R21–R44): the used bits, zero-extended (R14, R52). -/
def readReg : Reg → State → Word
  | .id, _ => Config.idValue
  | .cmd, s => s.cmd
  | .status, s => statusWord s
  | .ctrl, s => BitVec.ofNat 64 s.ie.toNat
  | .opa, s => s.opa
  | .opb, s => s.opb
  | .opc, s => s.opc
  | .cfgP, s => s.cfgP.setWidth 64
  | .cfgM, s => s.cfgM.setWidth 64
  | .cfgT, s => s.cfgT.setWidth 64
  | .cfgY, s => s.cfgY.setWidth 64
  | .actP, s => s.actP.setWidth 64
  | .actT, s => s.actT.setWidth 64
  | .actY, s => s.actY.setWidth 64
  | .mprime, s => s.mprime.setWidth 64
  | .lanelen, s => s.lanelen.setWidth 64
  | .seglen, s => s.seglen.setWidth 64
  | .nblocks, s => BitVec.ofNat 64 s.arenaBlocks
  | .agPass, s => s.agPass.setWidth 64
  | .agSlice, s => s.agSlice.setWidth 64
  | .agLane, s => s.agLane.setWidth 64
  | .agIndex, s => s.agIndex.setWidth 64
  | .agCtr, s => s.agCtr
  | .prand, s => s.prand
  | .refLane, s => s.refLane.setWidth 64
  | .refIndex, s => s.refIndex.setWidth 64
  | .refBlk, s => s.refBlk.setWidth 64
  | .curBlk, s => s.curBlk.setWidth 64
  | .prevBlk, s => s.prevBlk.setWidth 64
  | .msg k, s => s.msg.get k
  | .digest k, s => s.digest.get k
  | .dlen, s => s.dlen.setWidth 64
  | .b2Outlen, s => s.b2Outlen.setWidth 64
  | .hpT, s => s.hpT.setWidth 64

/-- A host write of `v` to CMD: it issues while BUSY = 0 and is refused while BUSY = 1 (R22). -/
def writeCmd (v : Word) (s : State) : State := if s.status.busy then refuseIssue s else issue v s

/-- What a host write of `v` to a register does (R22–R44). A write to a read-only register is ignored, and so are the bits
above a register's used width. -/
def writeReg : Reg → Word → State → State
  | .id, _, s => s
  | .cmd, v, s => writeCmd v s
  | .status, v, s => writeStatus v s
  | .ctrl, v, s => { s with ie := v.getLsbD 0 }
  | .opa, v, s => { s with opa := v }
  | .opb, v, s => { s with opb := v }
  | .opc, v, s => { s with opc := v }
  | .cfgP, v, s => { s with cfgP := v.setWidth 32 }
  | .cfgM, v, s => { s with cfgM := v.setWidth 32 }
  | .cfgT, v, s => { s with cfgT := v.setWidth 32 }
  | .cfgY, v, s => { s with cfgY := v.setWidth 2 }
  | .actP, _, s => s
  | .actT, _, s => s
  | .actY, _, s => s
  | .mprime, _, s => s
  | .lanelen, _, s => s
  | .seglen, _, s => s
  | .nblocks, _, s => s
  | .agPass, _, s => s
  | .agSlice, _, s => s
  | .agLane, _, s => s
  | .agIndex, _, s => s
  | .agCtr, _, s => s
  | .prand, _, s => s
  | .refLane, _, s => s
  | .refIndex, _, s => s
  | .refBlk, _, s => s
  | .curBlk, _, s => s
  | .prevBlk, _, s => s
  | .msg k, v, s => { s with msg := s.msg.set k.val v k.isLt }
  | .digest _, _, s => s
  | .dlen, _, s => s
  | .b2Outlen, _, s => s
  | .hpT, _, s => s

/-- A read of the REG space: 0 at a reserved offset and above 0x3F (R54, 20_memory.md R61). -/
def readOffset (off : Nat) (s : State) : Word :=
  match regAt off with
  | some r => readReg r s
  | none => 0#64

/-- A write of the REG space: ignored at a reserved offset and above 0x3F (R54, 20_memory.md R61). -/
def writeOffset (off : Nat) (v : Word) (s : State) : State :=
  match regAt off with
  | some r => writeReg r v s
  | none => s

/-- The host accesses that are defined while BUSY = 1 (70_reset_and_hazards.md R270): read ID, STATUS, CTRL; write STATUS,
CTRL, CMD. -/
def allowedWhileBusy : BusOp → Bool
  | .readReg off => decide (regAt off = some .id ∨ regAt off = some .status ∨ regAt off = some .ctrl)
  | .writeReg off _ => decide (regAt off = some .status ∨ regAt off = some .ctrl ∨ regAt off = some .cmd)
  | .readArena _ => false
  | .writeArena _ _ => false

/-- The host receives the word `v`: a read has no effect on any register or arena word (20_memory.md R66). -/
def logRead (v : Word) (s : State) : State := { s with readLog := v :: s.readLog }

/-- What a bus operation does when the access is defined. -/
def busEffect : BusOp → State → State
  | .readReg off, s => logRead (readOffset off s) s
  | .writeReg off v, s => writeOffset off v s
  | .readArena a, s => logRead (arenaRead s a) s
  | .writeArena a v, s => arenaWrite s a v

/-- A bus operation of the host (R245: permitted at all times, with the restriction of R270). -/
def hostAccess (op : BusOp) (s : State) : Host.Outcome State Fault Refusal :=
  if s.status.busy && !allowedWhileBusy op then .fault (.accessWhileBusy op) else .next (busEffect op s)

/-- The reset input RST (70_reset_and_hazards.md R260, R262): every register and hidden state at its reset value, a pending
command discarded, the arena as drawn. The parameter, the environment's turns and what the host has read are not reset. -/
def applyReset (draw : List Host.Cell) (s : State) : State :=
  { State.afterReset s.arenaBlocks (drawArena s.arenaBlocks draw) with turns := s.turns, readLog := s.readLog }

end Sys2Proof.Machine
end

