-- ==== Sys2Proof/Machine/Compress.lean ====
section
/-! DEFINITION. The compression function G and its command GCMP (44_compress.md R170–R178). -/

namespace Sys2Proof.Machine

/-- `fBlaMka(x, y) = x +64 y +64 (2 *64 (lo32(x) * lo32(y)))` (R170). -/
def fBlaMka (x y : Word) : Word := x + y + 2#64 * BitVec.ofNat 64 (lo32 x * lo32 y)

/-- The mixing primitive `GB(v, a, b, c, d)`, step by step (R170). -/
def blaMkaMix (v : Vector Word 16) (a b c d : Fin 16) : Vector Word 16 :=
  let v := v.set a.val (fBlaMka (v.get a) (v.get b))
  let v := v.set d.val (rotr64 (v.get d ^^^ v.get a) 32)
  let v := v.set c.val (fBlaMka (v.get c) (v.get d))
  let v := v.set b.val (rotr64 (v.get b ^^^ v.get c) 24)
  let v := v.set a.val (fBlaMka (v.get a) (v.get b))
  let v := v.set d.val (rotr64 (v.get d ^^^ v.get a) 16)
  let v := v.set c.val (fBlaMka (v.get c) (v.get d))
  v.set b.val (rotr64 (v.get b ^^^ v.get c) 63)

/-- The eight calls of one round: four columns, then four diagonals (R171). -/
def blaMkaRound (v : Vector Word 16) : Vector Word 16 :=
  let v := blaMkaMix v 0 4 8 12
  let v := blaMkaMix v 1 5 9 13
  let v := blaMkaMix v 2 6 10 14
  let v := blaMkaMix v 3 7 11 15
  let v := blaMkaMix v 0 5 10 15
  let v := blaMkaMix v 1 6 11 12
  let v := blaMkaMix v 2 7 8 13
  blaMkaMix v 3 4 9 14

/-- `Round(B, k0, …, k15)` (R171): the sixteen words at the positions `pos` are gathered, mixed and written back. -/
def roundAt (pos : Fin 16 → Fin 128) (B : Block) : Block :=
  let v := blaMkaRound (Vector.ofFn fun j => B.get (pos j))
  (List.finRange 16).foldl (fun B j => B.set (pos j).val (v.get j)) B

/-- The positions of column-wise round `i`: 16i..16i+15 (R172). -/
def columnPos (i : Fin 8) (j : Fin 16) : Fin 128 := ⟨16 * i.val + j.val, by omega⟩

/-- The positions of row-wise round `i`: 2i, 2i+1, 2i+16, 2i+17, …, 2i+112, 2i+113 (R173). -/
def rowPos (i : Fin 8) (j : Fin 16) : Fin 128 := ⟨2 * i.val + 16 * (j.val / 2) + j.val % 2, by omega⟩

/-- Rounds in the given order. -/
def roundsAt (pos : Fin 8 → Fin 16 → Fin 128) (order : List (Fin 8)) (B : Block) : Block :=
  order.foldl (fun B i => roundAt (pos i) B) B

/-- `P(B)`: the eight column-wise rounds, then the eight row-wise rounds (R174). -/
def permP (B : Block) : Block := roundsAt rowPos (List.finRange 8) (roundsAt columnPos (List.finRange 8) B)

/-- `G(X, Y) = R ^ P(R)` with `R = X ^ Y` (R174). -/
def compressG (X Y : Block) : Block := blockXor (blockXor X Y) (permP (blockXor X Y))

/-- The block that compression leaves in its destination (R175): the old destination for W = 0 or ZeroBlock for W = 1, with
`tmp` and then `P(tmp)` XORed in. -/
def compressInto (old X Y : Block) : Block :=
  let tmp := blockXor X Y
  blockXor (blockXor old tmp) (permP tmp)

/-- GCMP (R175): the three blocks are read before the destination is written (R176). -/
def cmdGcmp (w : Bool) (s : State) : Except CmdError State :=
  if blockInRange s s.opa && blockInRange s s.opb && blockInRange s s.opc then
    .ok (blockWrite s s.opa.toNat
      (compressInto (if w then zeroBlock else blockRead s s.opa.toNat) (blockRead s s.opb.toNat)
        (blockRead s s.opc.toNat)))
  else .error .range

/-- GCMP. -/
def execGcmp (w : Bool) (s : State) : Host.Outcome State Fault Refusal := .next (finish s (cmdGcmp w s))

end Sys2Proof.Machine
end

