-- ==== Sys2Proof/Machine/AddrGen.lean ====
section
/-! DEFINITION. The address generator and the fill commands AGSEG, AGNEXT, FILLSTEP, FILLSEG (45_addrgen.md R190–R205). -/

namespace Sys2Proof.Machine

/-- The first index of a segment: `i0 = 2` if r = 0 and s = 0, else 0 (R190). -/
def firstIndex (pass slice : Nat) : Nat := if pass = 0 ∧ slice = 0 then 2 else 0

/-- `Mode(y, r, s)` (R191): true for data-independent addressing. The variant 3, which no CFG latches, has no row
(assumption log 9). -/
def addressMode (y : BitVec 2) (pass slice : Nat) : Bool :=
  decide (y = 1#2) || (decide (y = 2#2) && decide (pass = 0) && decide (slice < 2))

/-- The contents of the input block (R193): pass, lane, slice, MPRIME, ACT_T, ACT_Y, counter, then zeros. -/
def inputBlock (pass lane slice mprime t y ctr : Word) : Block :=
  Vector.ofFn fun k => [pass, lane, slice, mprime, t, y, ctr].getD k.val 0#64

/-- `InitInputBlock(r, l, s)` from the registers, AG_CTR included (R193). -/
def initInputBlock (pass lane slice : Word) (s : State) : Block :=
  inputBlock pass lane slice (s.mprime.setWidth 64) (s.actT.setWidth 64) (s.actY.setWidth 64) s.agCtr

/-- AGSEG's effect (R192). -/
def startSegment (pass slice lane : Word) (s : State) : State :=
  let ind := addressMode s.actY pass.toNat slice.toNat
  let s := { s with
    agPass := pass.setWidth 32
    agSlice := slice.setWidth 2
    agLane := lane.setWidth 32
    agIndex := BitVec.ofNat 32 (firstIndex pass.toNat slice.toNat)
    agCtr := 0
    status := { s.status with agind := ind, agact := true }
    ag := AddrGen.zero }
  if ind then { s with ag := { s.ag with ib := initInputBlock pass lane slice s } } else s

/-- AGSEG (R192). -/
def cmdAgseg (s : State) : Except CmdError State :=
  if s.status.cfgv then
    if s.actT.toNat ≤ s.opa.toNat ∨ 4 ≤ s.opb.toNat ∨ s.actP.toNat ≤ s.opc.toNat then .error .range
    else .ok (startSegment s.opa s.opb s.opc s)
  else .error .sequence

/-- AGSEG. -/
def execAgseg (s : State) : Host.Outcome State Fault Refusal := .next (finish s (cmdAgseg s))

/-- `Refill()` (R194): the next counter, and the address block computed from the input block on private blocks. -/
def refill (s : State) : State :=
  let ctr := s.agCtr + 1
  let ib : Block := s.ag.ib.set 6 ctr
  { s with agCtr := ctr, ag := { ib := ib, ab := compressG zeroBlock (compressG zeroBlock ib), abv := true } }

/-- The position within the lane of index `i` of slice `slice`: `j = s·SEGLEN + i` (R196). -/
def lanePosition (slice i sg : Nat) : Nat := slice * sg + i

/-- The current block of `Positions` (R196). -/
def currentBlock (lane slice i q sg : Nat) : Nat := lane * q + lanePosition slice i sg

/-- The previous block of `Positions` (R196): the lane's last block at the lane's first position. -/
def previousBlock (lane slice i q sg : Nat) : Nat :=
  if lanePosition slice i sg = 0 then lane * q + q - 1 else currentBlock lane slice i q sg - 1

/-- Whether `PseudoRand` refills before position `i` (R197). -/
def needsRefill (s : State) : Bool :=
  s.status.agind && (!s.ag.abv || decide (s.agIndex.toNat % 128 = 0))

/-- The state after the refill that `PseudoRand` makes where one is due (R197). -/
def refillIfDue (s : State) : State := if needsRefill s then refill s else s

/-- The value of `PseudoRand(i, prev)` once a due refill is made (R197). -/
def pseudoRand (prev : Nat) (s : State) : Word :=
  if s.status.agind then s.ag.ab.get ⟨s.agIndex.toNat % 128, Nat.mod_lt _ (by decide)⟩
  else (blockRead s prev).get 0

/-- The reference lane (R198): forced to the current lane in pass 0 slice 0. -/
def referenceLane (pass slice lane lanes : Nat) (pr : Word) : Nat :=
  if pass = 0 ∧ slice = 0 then lane else hi32 pr % lanes

/-- `IndexAlpha`, part 1: the reference-area size (R199). -/
def referenceArea (pass slice i q sg : Nat) (same : Bool) : Nat :=
  if pass = 0 then
    if slice = 0 then i - 1
    else if same then slice * sg + i - 1
    else if i = 0 then slice * sg - 1
    else slice * sg
  else if same then q - sg + i - 1
  else if i = 0 then q - sg - 1
  else q - sg

/-- The start of the reference area (R200). -/
def referenceStart (pass slice sg : Nat) : Nat :=
  if pass = 0 then 0 else if slice = 3 then 0 else (slice + 1) * sg

/-- The relative position (R200), `zext_64(area −32 1) − z` in 64 bits, for the low half `x` of PRAND. -/
def relativePosition (area x : Nat) : Word :=
  (BitVec.ofNat 32 area - 1#32).setWidth 64 - BitVec.ofNat 64 (area * (x * x / 2 ^ 32) / 2 ^ 32)

/-- `IndexAlpha` (R199, R200): the reference block's position within its lane. -/
def indexAlpha (pass slice i q sg : Nat) (same : Bool) (x : Nat) : Nat :=
  (referenceStart pass slice sg + (relativePosition (referenceArea pass slice i q sg same) x).toNat) % q

/-- AGNEXT's effect for the active position (R195). -/
def agStep (s : State) : State :=
  let i := s.agIndex.toNat
  let pass := s.agPass.toNat
  let slice := s.agSlice.toNat
  let lane := s.agLane.toNat
  let q := s.lanelen.toNat
  let sg := s.seglen.toNat
  let prev := previousBlock lane slice i q sg
  let s := refillIfDue s
  let pr := pseudoRand prev s
  let refl := referenceLane pass slice lane s.actP.toNat pr
  let refi := indexAlpha pass slice i q sg (decide (refl = lane)) (lo32 pr)
  { s with
    prand := pr
    refLane := BitVec.ofNat 32 refl
    refIndex := BitVec.ofNat 32 refi
    refBlk := BitVec.ofNat 32 (refl * q + refi)
    curBlk := BitVec.ofNat 32 (currentBlock lane slice i q sg)
    prevBlk := BitVec.ofNat 32 prev
    agIndex := s.agIndex + 1 }

/-- There is a next position: a segment is active and not finished (R195). -/
def segmentOpen (s : State) : Bool := s.status.agact && decide (s.agIndex.toNat < s.seglen.toNat)

/-- AGNEXT (R195). -/
def cmdAgnext (s : State) : Except CmdError State := if segmentOpen s then .ok (agStep s) else .error .sequence

/-- AGNEXT. -/
def execAgnext (s : State) : Host.Outcome State Fault Refusal := .next (finish s (cmdAgnext s))

/-- The compression of the step that AGNEXT has just derived, W = 0 (R201). -/
def compressStep (s : State) : State :=
  blockWrite s s.curBlk.toNat
    (compressInto (blockRead s s.curBlk.toNat) (blockRead s s.refBlk.toNat) (blockRead s s.prevBlk.toNat))

/-- The body of FILLSTEP after its check (R201). -/
def fillBody (s : State) : State := compressStep (agStep s)

/-- FILLSTEP (R201). -/
def cmdFillstep (s : State) : Except CmdError State := if segmentOpen s then .ok (fillBody s) else .error .sequence

/-- FILLSTEP. -/
def execFillstep (s : State) : Host.Outcome State Fault Refusal := .next (finish s (cmdFillstep s))

/-- `while AG_INDEX < SEGLEN: FILLSTEP's body` (R202). `fuel` bounds the rounds: each raises AG_INDEX by one, so
SEGLEN − AG_INDEX rounds are enough. -/
def fillLoop : Nat → State → State
  | 0, s => s
  | fuel + 1, s => if s.agIndex.toNat < s.seglen.toNat then fillLoop fuel (fillBody s) else s

/-- FILLSEG (R202): on a finished segment it does nothing. -/
def cmdFillseg (s : State) : Except CmdError State :=
  if s.status.agact then .ok (fillLoop (s.seglen.toNat - s.agIndex.toNat) s) else .error .sequence

/-- FILLSEG. -/
def execFillseg (s : State) : Host.Outcome State Fault Refusal := .next (finish s (cmdFillseg s))

end Sys2Proof.Machine
end

