-- ==== Sys2Proof/Machine/Block.lean ====
section
/-! DEFINITION. The block memory commands BZERO and BXOR (43_block.md R160, R161). -/

namespace Sys2Proof.Machine

/-- BZERO (R160). -/
def cmdBzero (s : State) : Except CmdError State :=
  if blockInRange s s.opa then .ok (blockWrite s s.opa.toNat zeroBlock) else .error .range

/-- BZERO. -/
def execBzero (s : State) : Host.Outcome State Fault Refusal := .next (finish s (cmdBzero s))

/-- BXOR (R161): both blocks are read before the destination is written (44_compress.md R176). -/
def cmdBxor (s : State) : Except CmdError State :=
  if blockInRange s s.opa && blockInRange s s.opb then
    .ok (blockWrite s s.opa.toNat (blockXor (blockRead s s.opa.toNat) (blockRead s s.opb.toNat)))
  else .error .range

/-- BXOR. -/
def execBxor (s : State) : Host.Outcome State Fault Refusal := .next (finish s (cmdBxor s))

end Sys2Proof.Machine
end

