-- ==== Sys2Proof/Machine/Blake2b.lean ====
section
/-! DEFINITION. The BLAKE2b engine and its commands B2INIT, B2UPD, B2UPDB, B2UPDD, B2FIN (41_blake2b.md R110–R130). -/

namespace Sys2Proof.Machine

/-- The initialisation vector `IV[0..7]` (R111). -/
def blakeIV : Vector Word 8 :=
  #v[0x6A09E667F3BCC908#64, 0xBB67AE8584CAA73B#64, 0x3C6EF372FE94F82B#64, 0xA54FF53A5F1D36F1#64,
     0x510E527FADE682D1#64, 0x9B05688C2B3E6C1F#64, 0x1F83D9ABFB41BD6B#64, 0x5BE0CD19137E2179#64]

/-- The message schedule `SIGMA[0..9]` (R114). -/
def sigma : Vector (Vector (Fin 16) 16) 10 :=
  #v[#v[0, 1, 2, 3, 4, 5, 6, 7, 8, 9, 10, 11, 12, 13, 14, 15],
     #v[14, 10, 4, 8, 9, 15, 13, 6, 1, 12, 0, 2, 11, 7, 5, 3],
     #v[11, 8, 12, 0, 5, 2, 15, 13, 10, 14, 3, 6, 7, 1, 9, 4],
     #v[7, 9, 3, 1, 13, 12, 11, 14, 2, 6, 5, 10, 4, 0, 15, 8],
     #v[9, 0, 5, 7, 2, 4, 10, 15, 14, 1, 11, 12, 6, 8, 3, 13],
     #v[2, 12, 6, 10, 0, 11, 8, 3, 4, 13, 7, 5, 15, 14, 1, 9],
     #v[12, 5, 1, 15, 14, 13, 4, 10, 0, 7, 6, 3, 9, 2, 8, 11],
     #v[13, 11, 7, 14, 12, 1, 3, 9, 5, 0, 15, 4, 8, 6, 2, 10],
     #v[6, 15, 14, 9, 11, 3, 0, 8, 12, 2, 13, 7, 1, 4, 10, 5],
     #v[10, 2, 8, 4, 7, 6, 1, 5, 15, 11, 9, 14, 3, 12, 13, 0]]

/-- The mixing function `Gb(v, a, b, c, d, x, y)`, step by step (R113). -/
def blakeMix (v : Vector Word 16) (a b c d : Fin 16) (x y : Word) : Vector Word 16 :=
  let v := v.set a.val (v.get a + v.get b + x)
  let v := v.set d.val (rotr64 (v.get d ^^^ v.get a) 32)
  let v := v.set c.val (v.get c + v.get d)
  let v := v.set b.val (rotr64 (v.get b ^^^ v.get c) 24)
  let v := v.set a.val (v.get a + v.get b + y)
  let v := v.set d.val (rotr64 (v.get d ^^^ v.get a) 16)
  let v := v.set c.val (v.get c + v.get d)
  v.set b.val (rotr64 (v.get b ^^^ v.get c) 63)

/-- One of the twelve rounds, with the schedule row `s` (R112). -/
def blakeRound (M : Vector Word 16) (v : Vector Word 16) (s : Vector (Fin 16) 16) : Vector Word 16 :=
  let v := blakeMix v 0 4 8 12 (M.get (s.get 0)) (M.get (s.get 1))
  let v := blakeMix v 1 5 9 13 (M.get (s.get 2)) (M.get (s.get 3))
  let v := blakeMix v 2 6 10 14 (M.get (s.get 4)) (M.get (s.get 5))
  let v := blakeMix v 3 7 11 15 (M.get (s.get 6)) (M.get (s.get 7))
  let v := blakeMix v 0 5 10 15 (M.get (s.get 8)) (M.get (s.get 9))
  let v := blakeMix v 1 6 11 12 (M.get (s.get 10)) (M.get (s.get 11))
  let v := blakeMix v 2 7 8 13 (M.get (s.get 12)) (M.get (s.get 13))
  blakeMix v 3 4 9 14 (M.get (s.get 14)) (M.get (s.get 15))

/-- The working vector before the rounds: the chaining words, then the IV with the counter in words 12 and 13 and word 14
inverted for the final block (R112). -/
def blakeStart (h : Vector Word 8) (t : BitVec 128) (f : Bool) : Vector Word 16 :=
  let v : Vector Word 16 := h ++ blakeIV
  let v := v.set 12 (v.get 12 ^^^ t.extractLsb' 0 64)
  let v := v.set 13 (v.get 13 ^^^ t.extractLsb' 64 64)
  if f then v.set 14 (v.get 14 ^^^ 0xFFFFFFFFFFFFFFFF#64) else v

/-- The compression function `F(h, m, t, f)` (R112): rounds r = 0..11 with `SIGMA[r mod 10]`. -/
def blakeF (h : Vector Word 8) (m : Vector Byte 128) (t : BitVec 128) (f : Bool) : Vector Word 8 :=
  let M : Vector Word 16 := bytesWords 16 m.toList
  let v := (List.range 12).foldl
    (fun v r => blakeRound M v (sigma.get ⟨r % 10, Nat.mod_lt r (by decide)⟩)) (blakeStart h t f)
  Vector.ofFn fun i : Fin 8 => h.get i ^^^ v.get ⟨i.val, by omega⟩ ^^^ v.get ⟨i.val + 8, by omega⟩

/-- The buffer that begins with the bytes `bs` and is 0 after them. -/
def bufferOf (bs : List Byte) : Vector Byte 128 := Vector.ofFn fun i => bs.getD i.val 0#8

/-- The context part of `Open(NN, KK, key)` (R115): the parameter word in h[0], and a key as one full buffered block. -/
def ctxOpen (nn : Nat) (key : List Byte) : Ctx :=
  { h := blakeIV.set 0 (blakeIV.get 0 ^^^ 0x0000000001010000#64 ^^^ BitVec.ofNat 64 (key.length <<< 8)
      ^^^ BitVec.ofNat 64 nn)
    t := 0#128
    buf := bufferOf key
    buflen := if 0 < key.length then 128 else 0 }

/-- The compression of a full buffer when a further byte arrives (R116): the counter first, then F with f = 0. -/
def ctxFlush (c : Ctx) : Ctx :=
  { h := blakeF c.h c.buf (c.t + 128#128) false
    t := c.t + 128#128
    buf := Vector.replicate 128 0#8
    buflen := 0 }

/-- One byte of `Absorb` (R116). -/
def ctxAbsorbByte (c : Ctx) (x : Byte) : Ctx :=
  let c := if c.buflen = 128 then ctxFlush c else c
  { c with buf := c.buf.setIfInBounds c.buflen x, buflen := c.buflen + 1 }

/-- `Absorb(s)`: the bytes of `s` in order (R116). -/
def ctxAbsorb (c : Ctx) (bs : List Byte) : Ctx := bs.foldl ctxAbsorbByte c

/-- `Finalize()` (R118): the first `nn` bytes of the last compression's words. -/
def ctxFinalize (nn : Nat) (c : Ctx) : List Byte :=
  (wordsBytes (blakeF c.h c.buf (c.t + BitVec.ofNat 128 c.buflen) true).toList).take nn

/-- The whole function `BLAKE2b(NN, key, s)` (R119). -/
def blake2b (nn : Nat) (key bs : List Byte) : List Byte := ctxFinalize nn (ctxAbsorb (ctxOpen nn key) bs)

/-- `Open(NN, KK, key)` on the host-visible context (R115). -/
def openCtx (nn : Nat) (key : List Byte) (s : State) : State :=
  { s with ctx := ctxOpen nn key, b2Outlen := BitVec.ofNat 7 nn }

/-- `Absorb(s)` on the host-visible context (R116). -/
def absorbCtx (bs : List Byte) (s : State) : State := { s with ctx := ctxAbsorb s.ctx bs }

/-- `WipeCtx()` (R122). -/
def wipeCtx (s : State) : State :=
  { s with ctx := Ctx.zero, b2Outlen := 0, hpT := 0, status := { s.status with b2mode := .idle } }

/-- An absorbing command needs an open context (R123). -/
def contextOpen (s : State) : Bool := decide (s.status.b2mode ≠ .idle)

/-- B2INIT (R124). -/
def cmdB2init (nn kk : Nat) (s : State) : Except CmdError State :=
  if nn < 1 ∨ 64 < nn ∨ 64 < kk then .error .config
  else
    let s := openCtx nn (msgBytes kk s) s
    .ok { s with hpT := 0, status := { s.status with b2mode := .plain } }

/-- B2INIT. -/
def execB2init (nn kk : Nat) (s : State) : Host.Outcome State Fault Refusal := .next (finish s (cmdB2init nn kk s))

/-- B2UPD (R125): SEQUENCE is checked before RANGE (60_exceptions.md R234). -/
def cmdB2upd (len : Nat) (s : State) : Except CmdError State :=
  if contextOpen s then
    if 128 < len then .error .range else .ok (absorbCtx (msgBytes len s) s)
  else .error .sequence

/-- B2UPD. -/
def execB2upd (len : Nat) (s : State) : Host.Outcome State Fault Refusal := .next (finish s (cmdB2upd len s))

/-- B2UPDB (R126). -/
def cmdB2updb (s : State) : Except CmdError State :=
  if contextOpen s then
    if blockInRange s s.opa then .ok (absorbCtx (blockBytes (blockRead s s.opa.toNat)) s) else .error .range
  else .error .sequence

/-- B2UPDB. -/
def execB2updb (s : State) : Host.Outcome State Fault Refusal := .next (finish s (cmdB2updb s))

/-- B2UPDD (R128). -/
def cmdB2updd (s : State) : Except CmdError State :=
  if contextOpen s then .ok (absorbCtx (digBytes s.dlen.toNat s) s) else .error .sequence

/-- B2UPDD. -/
def execB2updd (s : State) : Host.Outcome State Fault Refusal := .next (finish s (cmdB2updd s))

/-- The digest registers and DLEN that B2FIN writes: the digest, zero-padded to 64 bytes (R127). -/
def writeDigest (nn : Nat) (d : List Byte) (s : State) : State :=
  { s with digest := bytesWords 8 (d ++ zeroBytes (64 - nn)), dlen := BitVec.ofNat 7 nn }

/-- B2FIN (R127): only on a plain context. -/
def cmdB2fin (s : State) : Except CmdError State :=
  if s.status.b2mode = .plain then
    .ok (wipeCtx (writeDigest s.b2Outlen.toNat (ctxFinalize s.b2Outlen.toNat s.ctx) s))
  else .error .sequence

/-- B2FIN. -/
def execB2fin (s : State) : Host.Outcome State Fault Refusal := .next (finish s (cmdB2fin s))

end Sys2Proof.Machine
end

