-- ==== Sys2Proof/Machine/Control.lean ====
section
/-! DEFINITION. The control commands NOP, WIPE, CFG, SCRUB (46_control.md R220–R223) and the derived configuration
quantities (00_scope.md R9). -/

namespace Sys2Proof.Machine

/-- NOP (R220): no state change. -/
def cmdNop (s : State) : Except CmdError State := .ok s

/-- NOP. -/
def execNop (s : State) : Host.Outcome State Fault Refusal := .next (finish s (cmdNop s))

/-- Every message and digest register to 0, and DLEN (R221, R223). -/
def scrubRegs (s : State) : State :=
  { s with msg := Vector.replicate 16 0#64, digest := Vector.replicate 8 0#64, dlen := 0 }

/-- The address generator's hidden blocks, position and results to 0, AGACT and AGIND to 0 (R221). -/
def wipeAddrGen (s : State) : State :=
  { s with
    ag := AddrGen.zero
    agPass := 0
    agSlice := 0
    agLane := 0
    agIndex := 0
    agCtr := 0
    prand := 0
    refLane := 0
    refIndex := 0
    refBlk := 0
    curBlk := 0
    prevBlk := 0
    status := { s.status with agact := false, agind := false } }

/-- Every block of the arena to ZeroBlock (R221): no byte of the arena stays listed, so each reads 0. -/
def wipeArena (s : State) : State :=
  { s with arena := s.arena.filter fun c => decide (arenaBytes s ≤ c.1) }

/-- WIPE (R221). -/
def cmdWipe (s : State) : Except CmdError State :=
  .ok (wipeAddrGen (wipeCtx (scrubRegs (wipeArena s))))

/-- WIPE. -/
def execWipe (s : State) : Host.Outcome State Fault Refusal := .next (finish s (cmdWipe s))

/-- `MPRIME = 4·p·floor(m / (4·p))` (00_scope.md R9). -/
def configBlocks (p m : Nat) : Nat := 4 * p * (m / (4 * p))

/-- The registers that a successful CFG latches (R222, R31): the configuration, CFGV, and no active segment. -/
def latchConfig (p t : BitVec 32) (y : BitVec 2) (mp : Nat) (s : State) : State :=
  { s with
    actP := p
    actT := t
    actY := y
    mprime := BitVec.ofNat 32 mp
    lanelen := BitVec.ofNat 32 (mp / p.toNat)
    seglen := BitVec.ofNat 32 (mp / (4 * p.toNat))
    status := { s.status with cfgv := true, agact := false, agind := false } }

/-- CFG (R222): the checks in the rule's order, on exact naturals. -/
def cmdCfg (s : State) : Except CmdError State :=
  if s.cfgP.toNat < 1 ∨ s.cfgT.toNat < 1 ∨ 2 < s.cfgY.toNat then .error .config
  else if s.cfgM.toNat < 4 * s.cfgP.toNat then .error .config
  else if s.arenaBlocks < configBlocks s.cfgP.toNat s.cfgM.toNat then .error .config
  else .ok (latchConfig s.cfgP s.cfgT s.cfgY (configBlocks s.cfgP.toNat s.cfgM.toNat) s)

/-- CFG. -/
def execCfg (s : State) : Host.Outcome State Fault Refusal := .next (finish s (cmdCfg s))

/-- SCRUB (R223). -/
def cmdScrub (s : State) : Except CmdError State := .ok (scrubRegs s)

/-- SCRUB. -/
def execScrub (s : State) : Host.Outcome State Fault Refusal := .next (finish s (cmdScrub s))

end Sys2Proof.Machine
end

