-- ==== Sys2Proof/Machine/HPrime.lean ====
section
/-! DEFINITION. The H′ chaining engine and its commands HPINIT and HPFIN (42_hprime.md R140–R147). -/

namespace Sys2Proof.Machine

/-- The loop of R140 after the first 32 bytes are out: `v` is the previous 64-byte digest and `rem` the bytes still to come.
Every hash runs on a private, unkeyed context (R142). `fuel` bounds the rounds; `rem` rounds are always enough. -/
def hpChain : Nat → List Byte → Nat → List Byte
  | 0, _, _ => []
  | fuel + 1, v, rem =>
    if 64 < rem then
      let w := blake2b 64 [] v
      w.take 32 ++ hpChain fuel w (rem - 32)
    else blake2b rem [] v

/-- The output of H′ from its first digest `v` (R140, R144): `v` itself when T ≤ 64, else 32 bytes of it and the chain. -/
def hpOutput (t : Nat) (v : List Byte) : List Byte :=
  if t ≤ 64 then v else v.take 32 ++ hpChain t v (t - 32)

/-- `HPrime(x, T)` (R140). -/
def hPrime (x : List Byte) (t : Nat) : List Byte :=
  hpOutput t (blake2b (min t 64) [] (le32 (BitVec.ofNat 32 t) ++ x))

/-- HPINIT (R143). -/
def cmdHpinit (t : Nat) (s : State) : Except CmdError State :=
  if t < 1 ∨ 1024 < t then .error .config
  else
    let s := absorbCtx (le32 (BitVec.ofNat 32 t)) (openCtx (min t 64) [] s)
    .ok { s with hpT := BitVec.ofNat 11 t, status := { s.status with b2mode := .hprime } }

/-- HPINIT. -/
def execHpinit (t : Nat) (s : State) : Host.Outcome State Fault Refusal := .next (finish s (cmdHpinit t s))

/-- The block that HPFIN writes: the output, zero-padded to 1024 bytes (R144). -/
def hpBlock (s : State) : Block :=
  blockOfBytes (hpOutput s.hpT.toNat (ctxFinalize s.b2Outlen.toNat s.ctx) ++ zeroBytes (1024 - s.hpT.toNat))

/-- HPFIN (R144). -/
def cmdHpfin (s : State) : Except CmdError State :=
  if s.status.b2mode = .hprime then
    if blockInRange s s.opa then .ok (wipeCtx (blockWrite s s.opa.toNat (hpBlock s))) else .error .range
  else .error .sequence

/-- HPFIN. -/
def execHpfin (s : State) : Host.Outcome State Fault Refusal := .next (finish s (cmdHpfin s))

end Sys2Proof.Machine
end

