-- ==== Sys2Proof/Machine/Dispatch.lean ====
section
/-! DEFINITION. One arm per command: the command's whole transition, completion or error report included (10_state.md R24). -/

namespace Sys2Proof.Machine
open Sys2Proof

def exec (i : Instr) (s : State) : Host.Outcome State Fault Refusal :=
  match i with
  | .nop => Sys2Proof.Machine.execNop s
  | .wipe => Sys2Proof.Machine.execWipe s
  | .cfg => Sys2Proof.Machine.execCfg s
  | .scrub => Sys2Proof.Machine.execScrub s
  | .bzero => Sys2Proof.Machine.execBzero s
  | .bxor => Sys2Proof.Machine.execBxor s
  | .b2init nn kk => Sys2Proof.Machine.execB2init nn kk s
  | .b2upd len => Sys2Proof.Machine.execB2upd len s
  | .b2updb => Sys2Proof.Machine.execB2updb s
  | .b2updd => Sys2Proof.Machine.execB2updd s
  | .b2fin => Sys2Proof.Machine.execB2fin s
  | .hpinit t => Sys2Proof.Machine.execHpinit t s
  | .hpfin => Sys2Proof.Machine.execHpfin s
  | .gcmp w => Sys2Proof.Machine.execGcmp w s
  | .agseg => Sys2Proof.Machine.execAgseg s
  | .agnext => Sys2Proof.Machine.execAgnext s
  | .fillstep => Sys2Proof.Machine.execFillstep s
  | .fillseg => Sys2Proof.Machine.execFillseg s

end Sys2Proof.Machine
end

