-- ==== Sys2Proof/Machine/Step.lean ====
section
/-! DEFINITION. One step of the machine: the turn that is next (00_scope.md R17, 10_state.md R24), and how a command word
comes to be the one the engine executes next. -/

namespace Sys2Proof.Machine

/-- The engine's transition (10_state.md R24): it decodes CMD and executes the command; a word that is no legal encoding
raises ILLEGAL and changes nothing else (30_encoding.md R95, R96). -/
def engineStep (s : State) : Host.Outcome State Fault Refusal :=
  match decode s.cmd with
  | .ok i => exec i s
  | .error _ => .next (raiseError .illegal s)

/-- A turn of the engine: it executes while BUSY = 1, and is idle otherwise, with every piece of state kept
(60_exceptions.md R252). -/
def engineTurn (s : State) : Host.Outcome State Fault Refusal :=
  if s.status.busy then engineStep s else .next s

/-- The state with the first turn taken off the list. -/
def popTurn (s : State) : State := { s with turns := s.turns.tail }

/-- One step. The first turn of the list is taken; with no turn left the engine still finishes a pending command, so that
every command completes (10_state.md R24, weak fairness). -/
def step (s : State) : Host.Outcome State Fault Refusal :=
  match s.turns with
  | [] => engineTurn s
  | .engine :: _ => engineTurn (popTurn s)
  | .host op :: _ => hostAccess op (popTurn s)
  | .reset draw :: _ => .next (applyReset draw (popTurn s))

/-- `s` with the given command word issued (10_state.md R22) and the next turn the engine's, so that the very next step
executes it (assumption log 5). -/
def State.withFetchWord (s : State) (nbits w : Nat) : State :=
  { issue (tableWord nbits w) s with turns := .engine :: s.turns }

end Sys2Proof.Machine
end

