-- ==== Sys2Proof/Safety.lean ====
section
/-! DEFINITION. What counts as a safe run, and the invariants of the machine in the terms claims use. -/

namespace Sys2Proof.Machine

/-- The next turn respects 70_reset_and_hazards.md R270: it is no host access that is undefined while BUSY = 1. -/
def turnObeysBusy (s : State) : Bool :=
  match s.turns with
  | .host op :: _ => !s.status.busy || allowedWhileBusy op
  | _ => true

/-- A step that does not fault. -/
def StepSafe (s : State) : Prop := ∀ r, step s ≠ .fault r

/-- The parameter is legal: 1 ≤ ARENA_BLOCKS ≤ 2^32 (00_scope.md R7). -/
abbrev ParamInv (s : State) : Prop := 1 ≤ s.arenaBlocks ∧ s.arenaBlocks ≤ 2 ^ 32

/-- The arena is in canonical form, the model's own (assumption logs 10 and 2), and lists no byte outside itself (the bound of
20_memory.md R60, R62). -/
abbrev ArenaInv (s : State) : Prop := memWf (arenaBytes s) s.arena = true

/-- The error report is whole (ERR = 1 exactly with a code, 60_exceptions.md R231), and DONE is 0 while a command runs
(10_state.md R22). -/
abbrev StatusInv (s : State) : Prop :=
  s.status.err = s.status.errCode.isSome ∧ (s.status.busy = true → s.status.done = false)

/-- The active configuration (10_state.md R33, R31). -/
abbrev ConfigInv (s : State) : Prop :=
  s.status.cfgv = true →
    1 ≤ s.actP.toNat ∧ 1 ≤ s.actT.toNat ∧ s.actY.toNat ≤ 2 ∧ 1 ≤ s.seglen.toNat ∧
    s.lanelen.toNat = 4 * s.seglen.toNat ∧ s.mprime.toNat = s.actP.toNat * s.lanelen.toNat ∧
    s.mprime.toNat ≤ s.arenaBlocks

/-- The buffer of a context: the fill level is at most 128 and every byte from it on is 0 (41_blake2b.md R121). -/
abbrev BufferInv (c : Ctx) : Prop := c.buflen ≤ 128 ∧ ∀ k : Fin 128, c.buflen ≤ k.val → c.buf.get k = 0#8

/-- The context and its lengths in each mode (41_blake2b.md R121, R122, 10_state.md R43, R44). -/
def ContextInv (s : State) : Prop :=
  BufferInv s.ctx ∧ (s.ctx.buflen = 0 → s.ctx.t = 0#128) ∧
    match s.status.b2mode with
    | .idle => s.ctx = Ctx.zero ∧ s.b2Outlen.toNat = 0 ∧ s.hpT.toNat = 0
    | .plain => 1 ≤ s.b2Outlen.toNat ∧ s.b2Outlen.toNat ≤ 64 ∧ s.hpT.toNat = 0
    | .hprime => 1 ≤ s.hpT.toNat ∧ s.hpT.toNat ≤ 1024 ∧ s.b2Outlen.toNat = min s.hpT.toNat 64

/-- The digest register: DLEN is at most 64 and the bytes from it on are 0 (10_state.md R41, R42). -/
def DigestInv (s : State) : Prop :=
  s.dlen.toNat ≤ 64 ∧ ∀ k < 64, s.dlen.toNat ≤ k → (wordsBytes s.digest.toList).getD k 0#8 = 0#8

/-- The address generator: an active segment lies inside the active configuration (R192, R195), AGIND is the mode of R191,
the input block is that of R193 with `IB[6] = AG_CTR`, a valid address block is the one computed from it (R194), and the
counter is the number of the group of 128 positions whose addresses the block holds (R197). -/
def SegmentInv (s : State) : Prop :=
  (s.status.agact = true →
    s.status.cfgv = true ∧ s.agPass.toNat < s.actT.toNat ∧ s.agLane.toNat < s.actP.toNat ∧
    s.status.agind = addressMode s.actY s.agPass.toNat s.agSlice.toNat ∧
    firstIndex s.agPass.toNat s.agSlice.toNat ≤ s.agIndex.toNat ∧
    s.agIndex.toNat ≤ max s.seglen.toNat (firstIndex s.agPass.toNat s.agSlice.toNat)) ∧
  (s.status.agact = false → s.status.agind = false) ∧
  (s.status.agind = true →
    s.ag.ib = initInputBlock (s.agPass.setWidth 64) (s.agLane.setWidth 64) (s.agSlice.setWidth 64) s) ∧
  (s.ag.abv = true → s.ag.ab = compressG zeroBlock (compressG zeroBlock s.ag.ib)) ∧
  (s.status.agind = true → s.ag.abv = false →
    s.agCtr = 0#64 ∧ s.agIndex.toNat = firstIndex s.agPass.toNat s.agSlice.toNat) ∧
  (s.status.agind = true → s.ag.abv = true →
    1 ≤ s.agIndex.toNat ∧ s.agCtr.toNat = (s.agIndex.toNat - 1) / 128 + 1)

/-- The invariant of the machine: what holds after reset and after every step. -/
structure Inv (s : State) : Prop where
  param : ParamInv s
  arena : ArenaInv s
  status : StatusInv s
  config : ConfigInv s
  context : ContextInv s
  digest : DigestInv s
  segment : SegmentInv s

end Sys2Proof.Machine
end

