-- ==== Sys2Proof/Certificates/Slice0/Obligations.lean ====
section
/-! DEFINITION. The statements for the provers. Each says which rule of the spec it formalises; one that rests on a choice of
the model's own names its assumption log entry. -/

open Sys2Proof Sys2Proof.Machine

/-! ## Encoding -/

/-- 30_encoding.md R92, R94: words written out from the opcode map and the field layout decode to the commands they stand for. -/
def Obligations.SpecWordsDecodeToTheirCommands : Prop :=
  decode 0x0000000000000000#64 = .ok .nop ∧ decode 0x0000000000000001#64 = .ok .wipe ∧
  decode 0x0000000000000002#64 = .ok .cfg ∧ decode 0x0000000000000009#64 = .ok .bxor ∧
  decode 0x0000000040200010#64 = .ok (.b2init 32 64) ∧ decode 0x00000000006C0011#64 = .ok (.b2upd 108) ∧
  decode 0x0000000004000018#64 = .ok (.hpinit 1024) ∧ decode 0x0000000000000020#64 = .ok (.gcmp false) ∧
  decode 0x0000000000000120#64 = .ok (.gcmp true) ∧ decode 0x000000000000002B#64 = .ok .fillseg

/-- R90–R95: for every well-formed command, decoding its word gives it back, with every operand. -/
def Obligations.DecodeOfEncodeIsTheCommand : Prop :=
  ∀ i : Instr, i.wellFormed = true → decode (encode i) = .ok i

/-- R95, R96: no command has a second spelling; a word that decodes is the word that the encoder writes. -/
def Obligations.EncodeOfDecodeIsTheWord : Prop :=
  ∀ (w : Word) (i : Instr), decode w = .ok i → i.wellFormed = true ∧ encode i = w

/-- R94 against R95: the decoder accepts a word exactly when some row of the opcode table matches it under its mask, and at
most one row does. -/
def Obligations.DecodeAcceptsExactlyTheOpcodeTable : Prop :=
  ∀ w : Word, ((∃ i, decode w = .ok i) ↔ ∃ r ∈ opcodeTable, w &&& r.mask = r.pattern) ∧
    ∀ r ∈ opcodeTable, ∀ r' ∈ opcodeTable, w &&& r.mask = r.pattern → w &&& r'.mask = r'.pattern → r = r'

/-- R95, R96, R233: a word is no legal command exactly in the four cases of R95, and the engine then raises ILLEGAL and
changes nothing but STATUS. -/
def Obligations.IllegalWordsOnlyRaiseIllegal : Prop :=
  ∀ (s : State),
    let op := wordField s.cmd 0 8
    ((op ∉ [0x00, 0x01, 0x02, 0x03, 0x08, 0x09, 0x10, 0x11, 0x12, 0x13, 0x14, 0x18, 0x19, 0x20, 0x28, 0x29, 0x2A, 0x2B]
      ∨ wordField s.cmd 32 32 ≠ 0 ∨ wordField s.cmd 9 7 ≠ 0
      ∨ (wordField s.cmd 8 1 = 1 ∧ op ≠ 0x20)
      ∨ (wordField s.cmd 16 16 ≠ 0 ∧ op ∉ [0x10, 0x11, 0x18])) ↔ ∀ i, decode s.cmd ≠ .ok i) ∧
    ((∀ i, decode s.cmd ≠ .ok i) → engineStep s = .next
      { s with status := { s.status with busy := false, err := true, errCode := some .illegal } })

/-! ## The step -/

/-- 10_state.md R24, 30_encoding.md R95, R96, 60_exceptions.md R252: for every CMD, on a turn of the engine with BUSY = 1 a step is
the engine's transition at the state whose turn list has moved on: the meaning of the command that CMD decodes to, or the ILLEGAL
report where it decodes to none; with BUSY = 0 an engine keeps every piece of state. That a step with no turn left is the
engine's too is the model's choice (assumption log 3). -/
def Obligations.StepRunsTheDecodedCommand : Prop :=
  ∀ s : State,
    (∀ rest, s.turns = .engine :: rest →
      (s.status.busy = true → step s = engineStep { s with turns := rest } ∧
        (∀ i, decode s.cmd = .ok i → step s = exec i { s with turns := rest }) ∧
        ((∀ i, decode s.cmd ≠ .ok i) → step s = .next
          { s with
            turns := rest
            status := { s.status with busy := false, err := true, errCode := some .illegal } })) ∧
      (s.status.busy = false → step s = .next { s with turns := rest })) ∧
    (s.turns = [] →
      (s.status.busy = true → step s = engineStep s ∧
        (∀ i, decode s.cmd = .ok i → step s = exec i s) ∧
        ((∀ i, decode s.cmd ≠ .ok i) → step s = .next
          { s with status := { s.status with busy := false, err := true, errCode := some .illegal } })) ∧
      (s.status.busy = false → step s = .next s))

/-- Assumption log 5: the state that `withFetchWord` gives runs the command of that word in its very next step. -/
def Obligations.FetchWordRunsInTheNextStep : Prop :=
  ∀ (s : State) (i : Instr), i.wellFormed = true →
    step (s.withFetchWord 64 (encode i).toNat) = exec i
      { s with
        cmd := encode i
        status := { s.status with busy := true, done := false, err := false, errCode := none } }

/-- 60_exceptions.md R230, R233: every command, in every state, either completes with DONE and keeps ERR and ERRCODE as they
were, or is rejected with one error code and changes nothing but STATUS; a word that is no legal command is rejected in the same
way with ILLEGAL. BUSY is no code of a command (R234). -/
def Obligations.EveryCommandCompletesOrIsRejectedPrecisely : Prop :=
  (∀ (i : Instr) (s : State), ∃ t, exec i s = .next t ∧ t.status.busy = false ∧
    ((t.status.done = true ∧ t.status.err = s.status.err ∧ t.status.errCode = s.status.errCode) ∨
      ∃ c : CmdError, c ≠ .busy ∧ c ≠ .illegal ∧
        t = { s with status := { s.status with busy := false, err := true, errCode := some c } })) ∧
  ∀ s : State, (∀ i, decode s.cmd ≠ .ok i) → engineStep s = .next
    { s with status := { s.status with busy := false, err := true, errCode := some .illegal } }

/-- 60_exceptions.md R231, R234: a command that is not legal in the engine's state is rejected with SEQUENCE, whatever its
parameters and operands are. -/
def Obligations.SequenceErrorsComeFirst : Prop :=
  ∀ s : State,
    (s.status.b2mode = .idle → ∀ len,
      exec (.b2upd len) s = .next (raiseError .sequence s) ∧ exec .b2updb s = .next (raiseError .sequence s) ∧
      exec .b2updd s = .next (raiseError .sequence s)) ∧
    (s.status.b2mode ≠ .plain → exec .b2fin s = .next (raiseError .sequence s)) ∧
    (s.status.b2mode ≠ .hprime → exec .hpfin s = .next (raiseError .sequence s)) ∧
    (s.status.cfgv = false → exec .agseg s = .next (raiseError .sequence s)) ∧
    ((s.status.agact = false ∨ s.seglen.toNat ≤ s.agIndex.toNat) →
      exec .agnext s = .next (raiseError .sequence s) ∧ exec .fillstep s = .next (raiseError .sequence s)) ∧
    (s.status.agact = false → exec .fillseg s = .next (raiseError .sequence s))

/-- 60_exceptions.md R231 (CONFIG): B2INIT, HPINIT and CFG with a parameter out of its legal range. -/
def Obligations.ConfigErrorsOfParameters : Prop :=
  ∀ s : State,
    (∀ nn kk, (nn = 0 ∨ 64 < nn ∨ 64 < kk) → exec (.b2init nn kk) s = .next (raiseError .config s)) ∧
    (∀ t, (t = 0 ∨ 1024 < t) → exec (.hpinit t) s = .next (raiseError .config s)) ∧
    ((s.cfgP.toNat = 0 ∨ s.cfgT.toNat = 0 ∨ s.cfgY.toNat = 3 ∨ s.cfgM.toNat < 4 * s.cfgP.toNat ∨
        s.arenaBlocks < 4 * s.cfgP.toNat * (s.cfgM.toNat / (4 * s.cfgP.toNat))) →
      exec .cfg s = .next (raiseError .config s))

/-- 60_exceptions.md R231 (RANGE), 20_memory.md R68: an operand outside its bound, the full 64-bit value, where no check that
comes before it fails. -/
def Obligations.RangeErrorsOfOperands : Prop :=
  ∀ s : State,
    (s.arenaBlocks ≤ s.opa.toNat → exec .bzero s = .next (raiseError .range s)) ∧
    ((s.arenaBlocks ≤ s.opa.toNat ∨ s.arenaBlocks ≤ s.opb.toNat) → exec .bxor s = .next (raiseError .range s)) ∧
    (∀ w, (s.arenaBlocks ≤ s.opa.toNat ∨ s.arenaBlocks ≤ s.opb.toNat ∨ s.arenaBlocks ≤ s.opc.toNat) →
      exec (.gcmp w) s = .next (raiseError .range s)) ∧
    (∀ len, s.status.b2mode ≠ .idle → 128 < len → exec (.b2upd len) s = .next (raiseError .range s)) ∧
    (s.status.b2mode ≠ .idle → s.arenaBlocks ≤ s.opa.toNat → exec .b2updb s = .next (raiseError .range s)) ∧
    (s.status.b2mode = .hprime → s.arenaBlocks ≤ s.opa.toNat → exec .hpfin s = .next (raiseError .range s)) ∧
    (s.status.cfgv = true → (s.actT.toNat ≤ s.opa.toNat ∨ 4 ≤ s.opb.toNat ∨ s.actP.toNat ≤ s.opc.toNat) →
      exec .agseg s = .next (raiseError .range s))

/-- 30_encoding.md R93, 10_state.md R22, R25–R30, R32: no command writes CMD, CTRL, OPA, OPB, OPC, the staged configuration or
the parameter, and none touches the turns or the read log, which are the model's own (assumption logs 3 and 4). -/
def Obligations.CommandsKeepTheHostsRegisters : Prop :=
  ∀ (i : Instr) (s t : State), exec i s = .next t →
    t.cmd = s.cmd ∧ t.ie = s.ie ∧ t.opa = s.opa ∧ t.opb = s.opb ∧ t.opc = s.opc ∧
    t.cfgP = s.cfgP ∧ t.cfgM = s.cfgM ∧ t.cfgT = s.cfgT ∧ t.cfgY = s.cfgY ∧
    t.arenaBlocks = s.arenaBlocks ∧ t.turns = s.turns ∧ t.readLog = s.readLog

/-- 10_state.md R52, the column "written by commands", R55 and R40: the registers and the arena that a command other than the
listed ones leaves as they are. B2FIN, which R52 does not list for HP_T, writes HP_T <- 0 by R122: where the context invariant
holds, HP_T is 0 already (assumption log 17). -/
def Obligations.CommandsWriteOnlyTheirRegisters : Prop :=
  ∀ (i : Instr) (s t : State), exec i s = .next t →
    (i ≠ .cfg → t.actP = s.actP ∧ t.actT = s.actT ∧ t.actY = s.actY ∧ t.mprime = s.mprime ∧ t.lanelen = s.lanelen ∧
      t.seglen = s.seglen ∧ t.status.cfgv = s.status.cfgv) ∧
    (i ∉ [.agseg, .wipe] → t.agPass = s.agPass ∧ t.agSlice = s.agSlice ∧ t.agLane = s.agLane) ∧
    (i ∉ [.agseg, .agnext, .fillstep, .fillseg, .wipe] → t.agIndex = s.agIndex ∧ t.agCtr = s.agCtr ∧ t.ag = s.ag) ∧
    (i ∉ [.agnext, .fillstep, .fillseg, .wipe] → t.prand = s.prand ∧ t.refLane = s.refLane ∧
      t.refIndex = s.refIndex ∧ t.refBlk = s.refBlk ∧ t.curBlk = s.curBlk ∧ t.prevBlk = s.prevBlk) ∧
    (i ∉ [.agseg, .cfg, .wipe] → t.status.agact = s.status.agact ∧ t.status.agind = s.status.agind) ∧
    (i ∉ [.wipe, .scrub] → t.msg = s.msg) ∧
    (i ∉ [.b2fin, .wipe, .scrub] → t.digest = s.digest ∧ t.dlen = s.dlen) ∧
    (i ∉ [.b2updb, .b2updd, .b2fin, .hpfin, .wipe] → (∀ nn kk, i ≠ .b2init nn kk) → (∀ len, i ≠ .b2upd len) →
      (∀ n, i ≠ .hpinit n) → t.ctx = s.ctx) ∧
    (i ∉ [.b2fin, .hpfin, .wipe] → (∀ nn kk, i ≠ .b2init nn kk) → (∀ n, i ≠ .hpinit n) →
      t.b2Outlen = s.b2Outlen ∧ t.status.b2mode = s.status.b2mode) ∧
    (i ∉ [.hpfin, .wipe] → (∀ nn kk, i ≠ .b2init nn kk) → (∀ n, i ≠ .hpinit n) → (i = .b2fin → ContextInv s) →
      t.hpT = s.hpT) ∧
    (i ∉ [.bzero, .bxor, .hpfin, .gcmp true, .gcmp false, .fillstep, .fillseg, .wipe] → t.arena = s.arena)

/-! ## The host bus, the interrupt and reset -/

/-- 10_state.md R22: a CMD write issues while BUSY = 0 and is refused while BUSY = 1; a read of CMD returns the last issued
word. -/
def Obligations.CmdWriteIssuesOrIsRefused : Prop :=
  ∀ (s : State) (v : Word) (rest : List Turn), s.turns = .host (.writeReg 0x01 v) :: rest →
    (s.status.busy = false → step s = .next
      { s with
        cmd := v
        status := { s.status with busy := true, done := false, err := false, errCode := none }
        turns := rest }) ∧
    (s.status.busy = true → step s = .next
      { s with status := { s.status with err := true, errCode := some .busy }, turns := rest }) ∧
    readOffset 0x01 s = s.cmd

/-- 10_state.md R23, 60_exceptions.md R231: each of the ten fields of STATUS at its bits, ERRCODE and B2MODE with their numbers, the
reserved bits 0, the two computed fields, and write-one-to-clear for DONE and ERR, which takes ERRCODE with it. -/
def Obligations.StatusRegisterFieldsAndWriteOneToClear : Prop :=
  ∀ s : State,
    (let w := readOffset 0x02 s
     wordField w 0 1 = s.status.busy.toNat ∧ wordField w 1 1 = s.status.done.toNat ∧
     wordField w 2 1 = s.status.err.toNat ∧ wordField w 3 5 = 0 ∧
     (wordField w 8 8 =
       match s.status.errCode with
       | none => 0x00
       | some .illegal => 0x01
       | some .busy => 0x02
       | some .sequence => 0x03
       | some .config => 0x04
       | some .range => 0x05) ∧
     wordField w 16 1 = s.status.cfgv.toNat ∧
     (wordField w 17 2 =
       match s.status.b2mode with
       | .idle => 0
       | .plain => 1
       | .hprime => 2) ∧
     wordField w 19 1 = s.status.agact.toNat ∧
     wordField w 20 1 = s.status.agind.toNat ∧
     (wordField w 21 1 = 1 ↔ s.status.agact = true ∧ s.seglen.toNat ≤ s.agIndex.toNat) ∧
     (wordField w 22 1 = 1 ↔ s.ie = true ∧ (s.status.done = true ∨ s.status.err = true)) ∧
     wordField w 23 41 = 0) ∧
    ∀ (v : Word),
      writeOffset 0x02 v s = { s with
        status := { s.status with
          done := s.status.done && !v.getLsbD 1
          err := s.status.err && !v.getLsbD 2
          errCode := if v.getLsbD 2 then none else s.status.errCode } }

/-- 60_exceptions.md R240: the level is IE and (DONE or ERR) and STATUS bit 22 reads it; masking keeps the pending condition,
enabling with a condition pending raises the level at once, clearing both or issuing a command lowers it. -/
def Obligations.InterruptFollowsItsEnableAndCauses : Prop :=
  ∀ s : State,
    (irqLevel s = true ↔ s.ie = true ∧ (s.status.done = true ∨ s.status.err = true)) ∧
    (wordField (readOffset 0x02 s) 22 1 = (irqLevel s).toNat) ∧
    (irqLevel (writeOffset 0x03 1#64 s) = (s.status.done || s.status.err)) ∧
    (irqLevel (writeOffset 0x03 0#64 s) = false ∧ (writeOffset 0x03 0#64 s).status = s.status) ∧
    (irqLevel (writeOffset 0x02 6#64 s) = false) ∧
    (s.status.busy = false → ∀ v, irqLevel (writeOffset 0x01 v s) = false)

/-- 10_state.md R52, R54, 20_memory.md R61: each register stands at the offset of the map and at no other, a read there returns the
register and a write there writes it; the reserved offsets and those above 0x3F read 0 and ignore writes. The offsets, and
the value that each offset reads, are spelled out (STATUS and NBLOCKS, whose values need more words, in statements of their
own). -/
def Obligations.RegisterMapIsExact : Prop :=
  (regOffset .id = 0x00 ∧ regOffset .cmd = 0x01 ∧ regOffset .status = 0x02 ∧ regOffset .ctrl = 0x03 ∧
    regOffset .opa = 0x04 ∧ regOffset .opb = 0x05 ∧ regOffset .opc = 0x06 ∧ regOffset .cfgP = 0x08 ∧
    regOffset .cfgM = 0x09 ∧ regOffset .cfgT = 0x0A ∧ regOffset .cfgY = 0x0B ∧ regOffset .actP = 0x0C ∧
    regOffset .actT = 0x0D ∧ regOffset .actY = 0x0E ∧ regOffset .mprime = 0x0F ∧ regOffset .lanelen = 0x10 ∧
    regOffset .seglen = 0x11 ∧ regOffset .nblocks = 0x12 ∧ regOffset .agPass = 0x14 ∧ regOffset .agSlice = 0x15 ∧
    regOffset .agLane = 0x16 ∧ regOffset .agIndex = 0x17 ∧ regOffset .agCtr = 0x18 ∧ regOffset .prand = 0x19 ∧
    regOffset .refLane = 0x1A ∧ regOffset .refIndex = 0x1B ∧ regOffset .refBlk = 0x1C ∧ regOffset .curBlk = 0x1D ∧
    regOffset .prevBlk = 0x1E ∧ regOffset .dlen = 0x38 ∧ regOffset .b2Outlen = 0x39 ∧ regOffset .hpT = 0x3A) ∧
  (∀ k : Fin 16, regOffset (.msg k) = 0x20 + k.val) ∧
  (∀ k : Fin 8, regOffset (.digest k) = 0x30 + k.val) ∧
  (∀ r : Reg, regAt (regOffset r) = some r) ∧
  (∀ (off : Nat) (r : Reg), regAt off = some r → off = regOffset r) ∧
  (∀ off : Nat, regAt off = none ↔ off = 0x07 ∨ off = 0x13 ∨ off = 0x1F ∨ 0x3B ≤ off) ∧
  (∀ (r : Reg) (s : State) (v : Word),
    readOffset (regOffset r) s = readReg r s ∧ writeOffset (regOffset r) v s = writeReg r v s) ∧
  (∀ (off : Nat) (s : State) (v : Word), regAt off = none → readOffset off s = 0#64 ∧ writeOffset off v s = s) ∧
  ∀ s : State,
    (readOffset 0x00 s = 0x113#64 ∧ (readOffset 0x01 s).toNat = s.cmd.toNat ∧
     (readOffset 0x03 s).toNat = s.ie.toNat ∧ (readOffset 0x04 s).toNat = s.opa.toNat ∧
     (readOffset 0x05 s).toNat = s.opb.toNat ∧ (readOffset 0x06 s).toNat = s.opc.toNat ∧
     (readOffset 0x08 s).toNat = s.cfgP.toNat ∧ (readOffset 0x09 s).toNat = s.cfgM.toNat ∧
     (readOffset 0x0A s).toNat = s.cfgT.toNat ∧ (readOffset 0x0B s).toNat = s.cfgY.toNat ∧
     (readOffset 0x0C s).toNat = s.actP.toNat ∧ (readOffset 0x0D s).toNat = s.actT.toNat ∧
     (readOffset 0x0E s).toNat = s.actY.toNat ∧ (readOffset 0x0F s).toNat = s.mprime.toNat ∧
     (readOffset 0x10 s).toNat = s.lanelen.toNat ∧ (readOffset 0x11 s).toNat = s.seglen.toNat ∧
     (readOffset 0x14 s).toNat = s.agPass.toNat ∧ (readOffset 0x15 s).toNat = s.agSlice.toNat ∧
     (readOffset 0x16 s).toNat = s.agLane.toNat ∧ (readOffset 0x17 s).toNat = s.agIndex.toNat ∧
     (readOffset 0x18 s).toNat = s.agCtr.toNat ∧ (readOffset 0x19 s).toNat = s.prand.toNat ∧
     (readOffset 0x1A s).toNat = s.refLane.toNat ∧ (readOffset 0x1B s).toNat = s.refIndex.toNat ∧
     (readOffset 0x1C s).toNat = s.refBlk.toNat ∧ (readOffset 0x1D s).toNat = s.curBlk.toNat ∧
     (readOffset 0x1E s).toNat = s.prevBlk.toNat ∧ (readOffset 0x38 s).toNat = s.dlen.toNat ∧
     (readOffset 0x39 s).toNat = s.b2Outlen.toNat ∧ (readOffset 0x3A s).toNat = s.hpT.toNat) ∧
    (∀ k : Fin 16, readOffset (0x20 + k.val) s = s.msg.get k) ∧
    ∀ k : Fin 8, readOffset (0x30 + k.val) s = s.digest.get k

/-- 10_state.md R21, R25–R32, R34, R35, R40–R44, 70_reset_and_hazards.md R270: a step whose turn is a host write of a register that
is defined (while BUSY = 0, or of CMD, STATUS or CTRL) is that write; after a write of a register a read-write one reads the
used bits of the value, a read-only one what it read before, and no other register's value changes. What a write of CMD or
of STATUS does to its own register has statements of its own. -/
def Obligations.HostWritesReadBack : Prop :=
  (∀ (s : State) (off : Nat) (v : Word) (rest : List Turn), s.turns = .host (.writeReg off v) :: rest →
    (s.status.busy = false ∨ off ∈ [0x01, 0x02, 0x03]) →
    step s = .next (writeOffset off v { s with turns := rest })) ∧
  ∀ (r : Reg) (v : Word) (s : State), r ≠ .cmd → r ≠ .status →
    writeOffset (regOffset r) v s = writeReg r v s ∧
    readReg r (writeReg r v s) =
      (match r with
       | .opa | .opb | .opc | .msg _ => v
       | .ctrl => v &&& 1#64
       | .cfgP | .cfgM | .cfgT => v &&& 0xFFFFFFFF#64
       | .cfgY => v &&& 3#64
       | r => readReg r s) ∧
    (∀ r' : Reg, r' ≠ r → (r = .ctrl → r' ≠ .status) → readReg r' (writeReg r v s) = readReg r' s) ∧
    (writeReg r v s).arena = s.arena ∧ (writeReg r v s).ctx = s.ctx ∧ (writeReg r v s).ag = s.ag

/-- 20_memory.md R66, 70_reset_and_hazards.md R270: a host read that is defined changes no register, no arena word and no hidden
state; the host receives the word read, which the read log holds (assumption log 4). -/
def Obligations.HostReadsHaveNoSideEffect : Prop :=
  ∀ (s : State) (rest : List Turn),
    (∀ off, s.turns = .host (.readReg off) :: rest → (s.status.busy = false ∨ off ∈ [0x00, 0x02, 0x03]) →
      step s = .next { s with turns := rest, readLog := readOffset off s :: s.readLog }) ∧
    (∀ a, s.turns = .host (.readArena a) :: rest → s.status.busy = false →
      step s = .next { s with turns := rest, readLog := arenaRead s a :: s.readLog })

/-- 70_reset_and_hazards.md R270: while BUSY = 1 the host may read ID, STATUS, CTRL and write STATUS, CTRL, CMD; every other
access is a fault of the model. A step faults in no other case. -/
def Obligations.OnlyUndefinedAccessesWhileBusyFault : Prop :=
  ∀ (s : State) (r : Fault), step s = .fault r ↔
    ∃ op rest, s.turns = .host op :: rest ∧ s.status.busy = true ∧ r = .accessWhileBusy op ∧
      op ≠ .readReg 0x00 ∧ op ≠ .readReg 0x02 ∧ op ≠ .readReg 0x03 ∧
      ∀ v, op ≠ .writeReg 0x01 v ∧ op ≠ .writeReg 0x02 v ∧ op ≠ .writeReg 0x03 v

/-- 20_memory.md R60, R62, R63: a step whose turn is a host write of an arena word while BUSY = 0 is that write; a word stored
inside the arena is read back, every other word and every byte outside it is as before; outside the arena a read returns 0
and a write changes nothing. -/
def Obligations.ArenaWordsAreStorage : Prop :=
  ∀ (s : State) (a : Nat) (v : Word),
    (∀ rest, s.turns = .host (.writeArena a v) :: rest → s.status.busy = false →
      step s = .next (arenaWrite { s with turns := rest } a v)) ∧
    (a < 128 * s.arenaBlocks →
      arenaRead (arenaWrite s a v) a = v ∧
      (∀ c, c ≠ a → arenaRead (arenaWrite s a v) c = arenaRead s c) ∧
      (∀ c, ¬(8 * a ≤ c ∧ c < 8 * a + 8) → memByte (arenaWrite s a v).arena c = memByte s.arena c) ∧
      arenaWrite s a v = { s with arena := (arenaWrite s a v).arena }) ∧
    (128 * s.arenaBlocks ≤ a → arenaRead s a = 0#64 ∧ arenaWrite s a v = s)

/-- 10_state.md R32, 00_scope.md R7: no step of any kind changes ARENA_BLOCKS; NBLOCKS reads it zero-extended, and a write to
NBLOCKS is ignored. -/
def Obligations.ArenaSizeIsConstant : Prop :=
  ∀ s t : State, step s = .next t → t.arenaBlocks = s.arenaBlocks ∧
    (ParamInv s → (readOffset 0x12 t).toNat = s.arenaBlocks) ∧ ∀ v, writeOffset 0x12 v t = t

/-- 10_state.md R31: the active configuration is set only by CFG and cleared only by reset: a step that changes it is the
engine executing CFG, or a reset. -/
def Obligations.ActiveConfigurationChangesOnlyByCfgOrReset : Prop :=
  ∀ s t : State, step s = .next t →
    (t.actP = s.actP ∧ t.actT = s.actT ∧ t.actY = s.actY ∧ t.mprime = s.mprime ∧ t.lanelen = s.lanelen ∧
      t.seglen = s.seglen ∧ t.status.cfgv = s.status.cfgv) ∨
    (s.status.busy = true ∧ decode s.cmd = .ok .cfg ∧ ∀ turn rest, s.turns = turn :: rest → turn = .engine) ∨
    (∃ draw rest, s.turns = .reset draw :: rest)

/-- 70_reset_and_hazards.md R260, R261, 10_state.md R53: from any state a reset gives the reset values: a pending command is
discarded, every register but ID and NBLOCKS reads 0, and the hidden state is 0. The turns and the read log, the model's own
(assumption logs 3 and 4), stay. -/
def Obligations.ResetClearsEveryRegister : Prop :=
  ∀ (s : State) (draw : List Host.Cell) (rest : List Turn), s.turns = .reset draw :: rest →
    ∃ t, step s = .next t ∧ t.status.busy = false ∧
      (∀ r : Reg, readReg r t =
        (match r with | .id => 0x113#64 | .nblocks => BitVec.ofNat 64 s.arenaBlocks | _ => 0#64)) ∧
      t.ctx = Ctx.zero ∧ t.ag = AddrGen.zero ∧ irqLevel t = false ∧ t.turns = rest ∧ t.readLog = s.readLog ∧
      t.arenaBlocks = s.arenaBlocks

/-- 70_reset_and_hazards.md R262: the arena after reset may be any contents whatever: every arena in the model's canonical form
(assumption logs 10 and 2) is the draw of some reset turn. -/
def Obligations.ResetCanDrawAnyArena : Prop :=
  ∀ (s : State) (m : List Host.Cell), memWf (1024 * s.arenaBlocks) m = true →
    ∃ draw, ∀ rest, ∃ t, step { s with turns := .reset draw :: rest } = .next t ∧ t.arena = m

/-! ## Invariants -/

/-- The reset state meets the invariant (10_state.md R53). It rests on assumption log 1 and 2 for its size and arena alone. -/
def Obligations.ResetStateMeetsTheInvariant : Prop := Inv State.reset

/-- Every step keeps the invariant: R7, R33, R41, R121, R193, R194, R197 and the canonical form of the arena, which is the model's
own (assumption logs 10 and 2), over all turns and commands. -/
def Obligations.StepKeepsTheInvariant : Prop := ∀ s t : State, Inv s → step s = .next t → Inv t

/-- Assumption logs 10 and 2: the canonical form (addresses rising, no zero byte listed) is the model's own representation of the
arena, and this says that every step keeps it, from any state whose arena has it, with no other premise. That no byte lies
outside the arena is the bound of 20_memory.md R60, R62. -/
def Obligations.StepKeepsTheArenaCanonical : Prop :=
  ∀ s t : State, ArenaInv s → step s = .next t → ArenaInv t

/-! ## Control and block commands -/

/-- 46_control.md R220. -/
def Obligations.NopOnlyCompletes : Prop :=
  ∀ s : State, exec .nop s = .next { s with status := { s.status with busy := false, done := true } }

/-- 46_control.md R223: MSG, DIGEST and DLEN to 0, nothing else. -/
def Obligations.ScrubZeroesMessageAndDigest : Prop :=
  ∀ s : State, ∃ t, exec .scrub s = .next t ∧
    (∀ k, readReg (.msg k) t = 0#64) ∧ (∀ k, readReg (.digest k) t = 0#64) ∧ t.dlen = 0 ∧
    t = { s with msg := t.msg, digest := t.digest, dlen := 0,
                 status := { s.status with busy := false, done := true } }

/-- 46_control.md R221: every arena byte and every piece of hashing state to 0; the list of what WIPE keeps. That the zero arena
lists no byte is the model's choice (assumption log 2). -/
def Obligations.WipeZeroesArenaAndHashingState : Prop :=
  ∀ s : State, ArenaInv s → ∃ t, exec .wipe s = .next t ∧
    (∀ a, a < 128 * s.arenaBlocks → arenaRead t a = 0#64) ∧ t.arena = [] ∧
    (∀ k, t.msg.get k = 0#64) ∧ (∀ k, t.digest.get k = 0#64) ∧
    t = { s with
      arena := t.arena, msg := t.msg, digest := t.digest, dlen := 0, ctx := Ctx.zero, b2Outlen := 0, hpT := 0,
      ag := AddrGen.zero, agPass := 0, agSlice := 0, agLane := 0, agIndex := 0, agCtr := 0,
      prand := 0, refLane := 0, refIndex := 0, refBlk := 0, curBlk := 0, prevBlk := 0,
      status := { s.status with
        busy := false, done := true, b2mode := .idle, agact := false, agind := false } }

/-- 46_control.md R222, 00_scope.md R9: the checks of CFG and, when they pass, the configuration it latches, as exact numbers. -/
def Obligations.CfgValidatesAndLatches : Prop :=
  ∀ s : State,
    let p := s.cfgP.toNat
    let m := s.cfgM.toNat
    let mp := 4 * p * (m / (4 * p))
    (1 ≤ p ∧ 1 ≤ s.cfgT.toNat ∧ s.cfgY.toNat ≤ 2 ∧ 4 * p ≤ m ∧ mp ≤ s.arenaBlocks →
      ∃ t, exec .cfg s = .next t ∧ t.mprime.toNat = mp ∧ t.lanelen.toNat = mp / p ∧
        t.seglen.toNat = mp / (4 * p) ∧
        t = { s with
          actP := s.cfgP, actT := s.cfgT, actY := s.cfgY, mprime := t.mprime, lanelen := t.lanelen, seglen := t.seglen,
          status := { s.status with busy := false, done := true, cfgv := true, agact := false, agind := false } }) ∧
    (¬(1 ≤ p ∧ 1 ≤ s.cfgT.toNat ∧ s.cfgY.toNat ≤ 2 ∧ 4 * p ≤ m ∧ mp ≤ s.arenaBlocks) →
      exec .cfg s = .next (raiseError .config s))

/-- 43_block.md R160: the 1024 bytes of block OPA become 0, every other byte and everything else stays. -/
def Obligations.BzeroZeroesOneBlock : Prop :=
  ∀ s : State,
    (s.opa.toNat < s.arenaBlocks → ∃ t, exec .bzero s = .next t ∧
      (∀ a, memByte t.arena a =
        if 1024 * s.opa.toNat ≤ a ∧ a < 1024 * s.opa.toNat + 1024 then 0#8 else memByte s.arena a) ∧
      t = { s with arena := t.arena, status := { s.status with busy := false, done := true } }) ∧
    (s.arenaBlocks ≤ s.opa.toNat → exec .bzero s = .next (raiseError .range s))

/-- 43_block.md R161: each word of block OPA becomes its XOR with the word of block OPB, read before the write; every byte
outside block OPA and everything else stays. With OPA = OPB the block becomes zero. -/
def Obligations.BxorAccumulatesOneBlock : Prop :=
  ∀ s : State,
    (s.opa.toNat < s.arenaBlocks → s.opb.toNat < s.arenaBlocks → ∃ t, exec .bxor s = .next t ∧
      (∀ w, w < 128 → arenaRead t (128 * s.opa.toNat + w) =
        arenaRead s (128 * s.opa.toNat + w) ^^^ arenaRead s (128 * s.opb.toNat + w)) ∧
      (∀ a, ¬(1024 * s.opa.toNat ≤ a ∧ a < 1024 * s.opa.toNat + 1024) → memByte t.arena a = memByte s.arena a) ∧
      t = { s with arena := t.arena, status := { s.status with busy := false, done := true } }) ∧
    ((s.arenaBlocks ≤ s.opa.toNat ∨ s.arenaBlocks ≤ s.opb.toNat) → exec .bxor s = .next (raiseError .range s))

/-! ## Compression -/

/-- 44_compress.md R175, R176: block OPA becomes G of the blocks OPB and OPC, XORed into the old block for W = 0, all read
before the write and whatever the equalities among the three; every byte outside block OPA and everything else stays. -/
def Obligations.GcmpCompressesIntoOneBlock : Prop :=
  ∀ (s : State) (w : Bool),
    (s.opa.toNat < s.arenaBlocks → s.opb.toNat < s.arenaBlocks → s.opc.toNat < s.arenaBlocks →
      ∃ t, exec (.gcmp w) s = .next t ∧
        blockRead t s.opa.toNat =
          (let g := compressG (blockRead s s.opb.toNat) (blockRead s s.opc.toNat)
           if w then g else blockXor (blockRead s s.opa.toNat) g) ∧
        (∀ a, ¬(1024 * s.opa.toNat ≤ a ∧ a < 1024 * s.opa.toNat + 1024) → memByte t.arena a = memByte s.arena a) ∧
        t = { s with arena := t.arena, status := { s.status with busy := false, done := true } }) ∧
    ((s.arenaBlocks ≤ s.opa.toNat ∨ s.arenaBlocks ≤ s.opb.toNat ∨ s.arenaBlocks ≤ s.opc.toNat) →
      exec (.gcmp w) s = .next (raiseError .range s))

/-- 44_compress.md R177: with the destination different from both sources, W = 1 is BZERO of the destination and then GCMP
with W = 0. -/
def Obligations.OverwriteIsZeroThenAccumulate : Prop :=
  ∀ s : State, s.opa.toNat < s.arenaBlocks → s.opb.toNat < s.arenaBlocks → s.opc.toNat < s.arenaBlocks →
    s.opa ≠ s.opb → s.opa ≠ s.opc →
    ∃ u t, exec .bzero s = .next u ∧ exec (.gcmp false) u = .next t ∧ exec (.gcmp true) s = .next t

/-- 44_compress.md R174: P is a bijection on blocks, and it fixes the zero block; so does G. -/
def Obligations.PermutationIsABijection : Prop :=
  Function.Bijective permP ∧ permP zeroBlock = zeroBlock ∧ compressG zeroBlock zeroBlock = zeroBlock

/-- 44_compress.md R172, R173: the eight column-wise rounds, and the eight row-wise rounds, may run in any order. -/
def Obligations.RoundOrderInsideAPassIsFree : Prop :=
  ∀ (order : List (Fin 8)) (B : Block), order.Perm (List.finRange 8) →
    roundsAt columnPos order B = roundsAt columnPos (List.finRange 8) B ∧
    roundsAt rowPos order B = roundsAt rowPos (List.finRange 8) B

/-! ## BLAKE2b and H′ -/

/-- 41_blake2b.md R124, R115: B2INIT in every mode opens a plain context of digest length NN with the key buffered. -/
def Obligations.B2initOpensAPlainContext : Prop :=
  ∀ (s : State) (nn kk : Nat), 1 ≤ nn → nn ≤ 64 → kk ≤ 64 → ∃ t, exec (.b2init nn kk) s = .next t ∧
    t.ctx.h.get 0 = 0x6A09E667F3BCC908#64 ^^^ BitVec.ofNat 64 (0x01010000 + kk * 256 + nn) ∧
    (∀ i : Fin 8, i ≠ 0 → t.ctx.h.get i = blakeIV.get i) ∧ t.ctx.t = 0#128 ∧
    (∀ k : Fin 128, t.ctx.buf.get k = if k.val < kk then (wordsBytes s.msg.toList).getD k.val 0#8 else 0#8) ∧
    t.ctx.buflen = (if kk = 0 then 0 else 128) ∧ t.b2Outlen.toNat = nn ∧
    t = { s with ctx := t.ctx, b2Outlen := t.b2Outlen, hpT := 0,
                 status := { s.status with busy := false, done := true, b2mode := .plain } }

/-- 41_blake2b.md R125, R126, R128: on an open context of either kind the three absorb commands append their bytes to it and
change nothing else: LEN bytes of MSG, the 1024 bytes of block OPA, the DLEN bytes of DIGEST. -/
def Obligations.AbsorbCommandsAppendTheirBytes : Prop :=
  ∀ s : State, s.status.b2mode ≠ .idle →
    (∀ len, len ≤ 128 → exec (.b2upd len) s = .next
      { s with ctx := ctxAbsorb s.ctx ((wordsBytes s.msg.toList).take len),
               status := { s.status with busy := false, done := true } }) ∧
    (s.opa.toNat < s.arenaBlocks → exec .b2updb s = .next
      { s with ctx := ctxAbsorb s.ctx (memBytes s.arena (1024 * s.opa.toNat) 1024),
               status := { s.status with busy := false, done := true } }) ∧
    exec .b2updd s = .next
      { s with ctx := ctxAbsorb s.ctx ((wordsBytes s.digest.toList).take s.dlen.toNat),
               status := { s.status with busy := false, done := true } }

/-- 41_blake2b.md R116, R117, R121: absorbing keeps the buffer invariant, leaves a non-empty buffer after any byte, and counts:
the counter and the fill level together grow by the bytes absorbed, modulo 2^128. -/
def Obligations.AbsorbKeepsTheBufferAndCounts : Prop :=
  ∀ (c : Ctx) (bs : List Byte), BufferInv c →
    BufferInv (ctxAbsorb c bs) ∧ (bs ≠ [] → 1 ≤ (ctxAbsorb c bs).buflen) ∧
    ((ctxAbsorb c bs).t.toNat + (ctxAbsorb c bs).buflen) % 2 ^ 128 =
      (c.t.toNat + c.buflen + bs.length) % 2 ^ 128

/-- 41_blake2b.md R129, R125: a message absorbed by two B2UPD commands, with MSG written in between, leaves the context that
one B2UPD of the whole leaves. -/
def Obligations.AbsorbingInTwoCommandsIsAbsorbingAtOnce : Prop :=
  ∀ (s u t t' : State) (m' : Vector Word 16) (n1 n2 : Nat), n1 + n2 ≤ 128 → s.status.b2mode ≠ .idle →
    (wordsBytes m'.toList).take n2 = ((wordsBytes s.msg.toList).drop n1).take n2 →
    exec (.b2upd n1) s = .next u → exec (.b2upd n2) { u with msg := m' } = .next t →
    exec (.b2upd (n1 + n2)) s = .next t' → t.ctx = t'.ctx

/-- 41_blake2b.md R127: B2FIN writes the NN digest bytes, zeros after them and DLEN = NN, and wipes the context; everything
else stays. -/
def Obligations.B2finWritesTheDigest : Prop :=
  ∀ s : State, s.status.b2mode = .plain → ContextInv s → ∃ t, exec .b2fin s = .next t ∧
    (wordsBytes t.digest.toList).take s.b2Outlen.toNat = ctxFinalize s.b2Outlen.toNat s.ctx ∧
    (∀ k, k < 64 → s.b2Outlen.toNat ≤ k → (wordsBytes t.digest.toList).getD k 0#8 = 0#8) ∧
    t = { s with digest := t.digest, dlen := s.b2Outlen, ctx := Ctx.zero, b2Outlen := 0, hpT := 0,
                 status := { s.status with busy := false, done := true, b2mode := .idle } }

/-- 41_blake2b.md R119, R130: B2INIT, B2UPD and B2FIN together compute BLAKE2b of the key and the bytes absorbed, whatever
state they start in; MSG may be rewritten between the commands. -/
def Obligations.PlainHashOfOneMessage : Prop :=
  ∀ (s : State) (m : Vector Word 16) (nn kk len : Nat), 1 ≤ nn → nn ≤ 64 → kk ≤ 64 → len ≤ 128 →
    ∃ u v t, exec (.b2init nn kk) s = .next u ∧ exec (.b2upd len) { u with msg := m } = .next v ∧
      exec .b2fin v = .next t ∧ t.dlen.toNat = nn ∧ t.status.b2mode = .idle ∧
      digBytes t.dlen.toNat t = blake2b nn (msgBytes kk s) ((wordsBytes m.toList).take len)

/-- 42_hprime.md R143: HPINIT in every mode opens a context of digest length min(T, 64) with LE32(T) absorbed. -/
def Obligations.HpinitOpensAnHprimeContext : Prop :=
  ∀ (s : State) (n : Nat), 1 ≤ n → n ≤ 1024 → ∃ t, exec (.hpinit n) s = .next t ∧
    t.ctx.h = (ctxOpen (min n 64) []).h ∧ t.ctx.t = 0#128 ∧ t.ctx.buflen = 4 ∧
    t.ctx.buf.get 0 = BitVec.ofNat 8 n ∧ t.ctx.buf.get 1 = BitVec.ofNat 8 (n / 256) ∧
    (∀ k : Fin 128, 2 ≤ k.val → t.ctx.buf.get k = 0#8) ∧
    t.hpT.toNat = n ∧ t.b2Outlen.toNat = min n 64 ∧
    t = { s with ctx := t.ctx, b2Outlen := t.b2Outlen, hpT := t.hpT,
                 status := { s.status with busy := false, done := true, b2mode := .hprime } }

/-- 42_hprime.md R144: HPFIN writes the chained output and zeros to block OPA, all 1024 bytes, and wipes the context; every byte
outside the block and everything else stays, DIGEST and DLEN included. -/
def Obligations.HpfinWritesTheOutputBlock : Prop :=
  ∀ s : State, s.status.b2mode = .hprime → ContextInv s → s.opa.toNat < s.arenaBlocks →
    ∃ t, exec .hpfin s = .next t ∧
      memBytes t.arena (1024 * s.opa.toNat) 1024 =
        hpOutput s.hpT.toNat (ctxFinalize s.b2Outlen.toNat s.ctx) ++ zeroBytes (1024 - s.hpT.toNat) ∧
      (∀ a, ¬(1024 * s.opa.toNat ≤ a ∧ a < 1024 * s.opa.toNat + 1024) → memByte t.arena a = memByte s.arena a) ∧
      t = { s with arena := t.arena, ctx := Ctx.zero, b2Outlen := 0, hpT := 0,
                   status := { s.status with busy := false, done := true, b2mode := .idle } }

/-- 42_hprime.md R140, R143, R144: HPINIT, B2UPD and HPFIN together write H′ of the bytes absorbed, zero-padded. -/
def Obligations.HprimeOfOneMessage : Prop :=
  ∀ (s : State) (m : Vector Word 16) (d : Word) (n len : Nat), 1 ≤ n → n ≤ 1024 → len ≤ 128 →
    d.toNat < s.arenaBlocks →
    ∃ u v t, exec (.hpinit n) s = .next u ∧ exec (.b2upd len) { u with msg := m } = .next v ∧
      exec .hpfin { v with opa := d } = .next t ∧
      memBytes t.arena (1024 * d.toNat) 1024 = hPrime ((wordsBytes m.toList).take len) n ++ zeroBytes (1024 - n)

/-- 42_hprime.md R147: the output has T bytes for every T in 1..1024. -/
def Obligations.HprimeLengthIsItsParameter : Prop :=
  ∀ (x : List Byte) (n : Nat), 1 ≤ n → n ≤ 1024 → (hPrime x n).length = n

/-- 42_hprime.md R141, R145: at most 64 bytes are one BLAKE2b call; above it the output is the first halves of r digests, each the
hash of the one before it, and a tail of T − 32·r bytes, with r = ceil(T/32) − 2. -/
def Obligations.HprimeShape : Prop :=
  ∀ (x : List Byte) (n : Nat), 1 ≤ n → n ≤ 1024 →
    (n ≤ 64 → hPrime x n = blake2b n [] (le32 (BitVec.ofNat 32 n) ++ x)) ∧
    (64 < n →
      let r := (n + 31) / 32 - 2
      let v := fun k => (blake2b 64 [])^[k] (blake2b 64 [] (le32 (BitVec.ofNat 32 n) ++ x))
      33 ≤ n - 32 * r ∧ n - 32 * r ≤ 64 ∧
      hPrime x n = ((List.range r).flatMap fun k => (v k).take 32) ++ blake2b (n - 32 * r) [] (v (r - 1)))

/-! ## Address generation -/

/-- 45_addrgen.md R190–R193: AGSEG starts the segment OPA, OPB, OPC: its position, its mode, an empty address block and, for the
data-independent mode, the input block. The step results and the arena stay. -/
def Obligations.AgsegStartsASegment : Prop :=
  ∀ s : State, s.status.cfgv = true → s.opa.toNat < s.actT.toNat → s.opb.toNat < 4 → s.opc.toNat < s.actP.toNat →
    let ind := decide (s.actY.toNat = 1) ||
      (decide (s.actY.toNat = 2) && decide (s.opa.toNat = 0) && decide (s.opb.toNat < 2))
    ∃ t, exec .agseg s = .next t ∧
      t.agPass.toNat = s.opa.toNat ∧ t.agSlice.toNat = s.opb.toNat ∧ t.agLane.toNat = s.opc.toNat ∧
      t.agIndex.toNat = (if s.opa.toNat = 0 ∧ s.opb.toNat = 0 then 2 else 0) ∧
      (∀ k : Fin 128, t.ag.ib.get k =
        if ind then [s.opa, s.opc, s.opb, readReg .mprime s, readReg .actT s, readReg .actY s].getD k.val 0#64
        else 0#64) ∧
      (∀ k : Fin 128, t.ag.ab.get k = 0#64) ∧ t.ag.abv = false ∧
      t = { s with
        agPass := t.agPass, agSlice := t.agSlice, agLane := t.agLane, agIndex := t.agIndex, agCtr := 0, ag := t.ag,
        status := { s.status with busy := false, done := true, agact := true, agind := ind } }

/-- 45_addrgen.md R195–R200: AGNEXT on an open segment inside its configuration. The numbers are exact, and the arena and
everything not named stays. -/
def Obligations.AgnextDerivesTheReference : Prop :=
  ∀ s : State, Inv s → s.status.agact = true → s.agIndex.toNat < s.seglen.toNat →
    let i := s.agIndex.toNat
    let r := s.agPass.toNat
    let sl := s.agSlice.toNat
    let l := s.agLane.toNat
    let q := s.lanelen.toNat
    let sg := s.seglen.toNat
    let j := sl * sg + i
    ∃ t, exec .agnext s = .next t ∧
      t.curBlk.toNat = l * q + j ∧ t.prevBlk.toNat = (if j = 0 then l * q + q - 1 else l * q + j - 1) ∧
      (s.status.agind = false → t.prand = arenaRead s (128 * t.prevBlk.toNat) ∧ t.ag = s.ag ∧ t.agCtr = s.agCtr) ∧
      (s.status.agind = true →
        t.prand = t.ag.ab.get ⟨i % 128, Nat.mod_lt _ (by decide)⟩ ∧
        (if s.ag.abv = false ∨ i % 128 = 0 then t.agCtr = s.agCtr + 1 ∧ t.ag.ib = s.ag.ib.set 6 t.agCtr ∧
          t.ag.ab = compressG zeroBlock (compressG zeroBlock t.ag.ib) ∧ t.ag.abv = true
        else t.ag = s.ag ∧ t.agCtr = s.agCtr)) ∧
      t.refLane.toNat = (if r = 0 ∧ sl = 0 then l else t.prand.toNat / 2 ^ 32 % s.actP.toNat) ∧
      t.refIndex.toNat = indexAlpha r sl i q sg (decide (t.refLane.toNat = l)) (t.prand.toNat % 2 ^ 32) ∧
      t.refBlk.toNat = t.refLane.toNat * q + t.refIndex.toNat ∧
      t.agIndex.toNat = i + 1 ∧
      t = { s with
        prand := t.prand, refLane := t.refLane, refIndex := t.refIndex, refBlk := t.refBlk, curBlk := t.curBlk,
        prevBlk := t.prevBlk, agIndex := t.agIndex, agCtr := t.agCtr, ag := t.ag,
        status := { s.status with busy := false, done := true } }

/-- 45_addrgen.md R199, R200: the reference area row by row, and the index derivation in exact integers: with a non-empty area
nothing wraps and the position counts back from the area's end; with an empty area it is 0xFFFFFFFF mod LANELEN from the
start. -/
def Obligations.IndexAlphaIsTheExactFormula : Prop :=
  ∀ (r sl i q sg x : Nat) (same : Bool),
    let area := referenceArea r sl i q sg same
    let z := area * (x * x / 2 ^ 32) / 2 ^ 32
    let start := if r = 0 then 0 else if sl = 3 then 0 else (sl + 1) * sg
    (r = 0 → sl = 0 → area = i - 1) ∧
    (r = 0 → 1 ≤ sl → same = true → area = sl * sg + i - 1) ∧
    (r = 0 → 1 ≤ sl → same = false → area = if i = 0 then sl * sg - 1 else sl * sg) ∧
    (1 ≤ r → same = true → area = q - sg + i - 1) ∧
    (1 ≤ r → same = false → area = if i = 0 then q - sg - 1 else q - sg) ∧
    (1 ≤ q → x < 2 ^ 32 → area < 2 ^ 32 →
      (1 ≤ area → z ≤ area - 1 ∧ indexAlpha r sl i q sg same x = (start + (area - 1 - z)) % q) ∧
      (area = 0 → indexAlpha r sl i q sg same x = (start + 0xFFFFFFFF) % q) ∧
      indexAlpha r sl i q sg same x < q)

/-- 45_addrgen.md R198, R196: every block that AGNEXT names is inside the configured arena. -/
def Obligations.StepBlocksStayInsideTheConfiguration : Prop :=
  ∀ s t : State, Inv s → s.status.agact = true → s.agIndex.toNat < s.seglen.toNat → exec .agnext s = .next t →
    t.refLane.toNat < s.actP.toNat ∧ t.refIndex.toNat < s.lanelen.toNat ∧ t.refBlk.toNat < s.mprime.toNat ∧
    t.curBlk.toNat < s.mprime.toNat ∧ t.prevBlk.toNat < s.mprime.toNat ∧ s.mprime.toNat ≤ s.arenaBlocks

/-- 45_addrgen.md R201: the reference block is never the current block and never the previous block. -/
def Obligations.ReferenceIsNeitherCurrentNorPrevious : Prop :=
  ∀ s t : State, Inv s → s.status.agact = true → s.agIndex.toNat < s.seglen.toNat → exec .agnext s = .next t →
    t.refBlk ≠ t.curBlk ∧ t.refBlk ≠ t.prevBlk

/-- 45_addrgen.md R204: a reference into another lane lies outside the current slice. -/
def Obligations.CrossLaneReferencesAvoidTheCurrentSlice : Prop :=
  ∀ s t : State, Inv s → s.status.agact = true → s.agIndex.toNat < s.seglen.toNat → exec .agnext s = .next t →
    t.refLane ≠ s.agLane → t.refIndex.toNat / s.seglen.toNat ≠ s.agSlice.toNat

/-- 45_addrgen.md R203: in the data-independent mode the reference depends on the configuration and the position alone: two
machines that agree on those, whatever else differs, the arena included, derive the same reference. -/
def Obligations.DataIndependentAddressesIgnoreTheArena : Prop :=
  ∀ s s' t t' : State, Inv s → Inv s' → s.status.agind = true → s'.status.agind = true →
    s.agIndex.toNat < s.seglen.toNat →
    s.actP = s'.actP → s.actT = s'.actT → s.actY = s'.actY → s.mprime = s'.mprime → s.lanelen = s'.lanelen →
    s.seglen = s'.seglen → s.agPass = s'.agPass → s.agSlice = s'.agSlice → s.agLane = s'.agLane →
    s.agIndex = s'.agIndex → exec .agnext s = .next t → exec .agnext s' = .next t' →
    t.prand = t'.prand ∧ t.refLane = t'.refLane ∧ t.refIndex = t'.refIndex ∧ t.refBlk = t'.refBlk

/-- 45_addrgen.md R201, 60_exceptions.md R251: FILLSTEP is AGNEXT followed by GCMP with W = 0 on the blocks that AGNEXT named;
its frame: only block CUR_BLK of the arena changes. -/
def Obligations.FillstepIsAgnextThenGcmp : Prop :=
  ∀ s : State, Inv s → s.status.agact = true → s.agIndex.toNat < s.seglen.toNat →
    ∃ u v t, exec .agnext s = .next u ∧
      exec (.gcmp false) { u with
        opa := u.curBlk.setWidth 64, opb := u.refBlk.setWidth 64, opc := u.prevBlk.setWidth 64 } = .next v ∧
      exec .fillstep s = .next t ∧ t = { u with arena := v.arena } ∧
      ∀ a, ¬(1024 * u.curBlk.toNat ≤ a ∧ a < 1024 * u.curBlk.toNat + 1024) → memByte t.arena a = memByte s.arena a

/-- 45_addrgen.md R202: FILLSEG on an active segment completes; on a finished one it does nothing else; on an open one it is
FILLSTEP followed by FILLSEG. -/
def Obligations.FillsegRepeatsFillstep : Prop :=
  ∀ s : State, s.status.agact = true →
    (s.seglen.toNat ≤ s.agIndex.toNat →
      exec .fillseg s = .next { s with status := { s.status with busy := false, done := true } }) ∧
    (s.agIndex.toNat < s.seglen.toNat → ∃ u t, exec .fillstep s = .next u ∧ u.agIndex.toNat = s.agIndex.toNat + 1 ∧
      exec .fillseg u = .next t ∧ exec .fillseg s = .next t ∧ t.agIndex = s.seglen ∧ agEnd t = true)

/-- 45_addrgen.md R202, 20_memory.md R78: FILLSEG writes only blocks of its own lane in its own slice. -/
def Obligations.FillsegWritesOnlyItsSegment : Prop :=
  ∀ s : State, Inv s → s.status.agact = true → ∃ t, exec .fillseg s = .next t ∧
    ∀ a, ¬(1024 * (s.agLane.toNat * s.lanelen.toNat + s.agSlice.toNat * s.seglen.toNat) ≤ a ∧
        a < 1024 * (s.agLane.toNat * s.lanelen.toNat + (s.agSlice.toNat + 1) * s.seglen.toNat)) →
      memByte t.arena a = memByte s.arena a

/-- 20_memory.md R78, 46_control.md R225: within one pass and slice, the segments of two different lanes may be filled in either
order, with the same final arena. -/
def Obligations.LanesOfOneSliceCommute : Prop :=
  ∀ (s : State) (r sl l1 l2 : Word), Inv s → s.status.cfgv = true → r.toNat < s.actT.toNat → sl.toNat < 4 →
    l1.toNat < s.actP.toNat → l2.toNat < s.actP.toNat → l1 ≠ l2 →
    ∃ a1 u1 a2 t a3 u2 a4 t',
      exec .agseg { s with opa := r, opb := sl, opc := l1 } = .next a1 ∧ exec .fillseg a1 = .next u1 ∧
      exec .agseg { u1 with opa := r, opb := sl, opc := l2 } = .next a2 ∧ exec .fillseg a2 = .next t ∧
      exec .agseg { s with opa := r, opb := sl, opc := l2 } = .next a3 ∧ exec .fillseg a3 = .next u2 ∧
      exec .agseg { u2 with opa := r, opb := sl, opc := l1 } = .next a4 ∧ exec .fillseg a4 = .next t' ∧
      t.arena = t'.arena
end

