-- ==== Sys2Proof/Laws/Bytes.lean ====
section
/-! SUPPORT. Laws of the little-endian serialisation: lengths and round trips. -/

namespace Sys2Proof.Machine

@[simp] theorem leBytes_length (n x : Nat) : (leBytes n x).length = n := by
  induction n generalizing x with
  | zero => rfl
  | succ n ih => simp [leBytes, ih]

@[simp] theorem le16_length (x : BitVec 16) : (le16 x).length = 2 := leBytes_length _ _
@[simp] theorem le32_length (x : BitVec 32) : (le32 x).length = 4 := leBytes_length _ _
@[simp] theorem le64_length (x : Word) : (le64 x).length = 8 := leBytes_length _ _

theorem leValue_leBytes (n x : Nat) : leValue (leBytes n x) = x % 256 ^ n := by
  induction n generalizing x with
  | zero => simp [leBytes, leValue, Nat.mod_one]
  | succ n ih =>
    simp only [leBytes, leValue, ih]
    rw [show 256 ^ (n + 1) = 256 * 256 ^ n by rw [Nat.pow_succ, Nat.mul_comm], Nat.mod_mul, BitVec.toNat_ofNat]

theorem leBytes_leValue (bs : List Byte) : leBytes bs.length (leValue bs) = bs := by
  induction bs with
  | nil => rfl
  | cons b bs ih =>
    simp only [List.length_cons, leBytes, leValue]
    rw [show (b.toNat + 256 * leValue bs) / 256 = leValue bs by have := b.isLt; omega, ih]
    congr 1
    apply BitVec.eq_of_toNat_eq
    rw [BitVec.toNat_ofNat]
    have := b.isLt
    omega

theorem leValue_lt (bs : List Byte) : leValue bs < 256 ^ bs.length := by
  induction bs with
  | nil => simp [leValue]
  | cons b bs ih =>
    have := b.isLt
    simp only [leValue, List.length_cons, Nat.pow_succ]
    omega

@[simp] theorem wordsBytes_nil : wordsBytes [] = [] := rfl
@[simp] theorem wordsBytes_cons (w : Word) (ws : List Word) : wordsBytes (w :: ws) = le64 w ++ wordsBytes ws := rfl

@[simp] theorem wordsBytes_length (ws : List Word) : (wordsBytes ws).length = 8 * ws.length := by
  induction ws with
  | nil => rfl
  | cons w ws ih => simp [ih]; omega

@[simp] theorem blockBytes_length (B : Block) : (blockBytes B).length = 1024 := by simp [blockBytes]

theorem leValue_le64 (w : Word) : BitVec.ofNat 64 (leValue (le64 w)) = w := by
  apply BitVec.eq_of_toNat_eq
  rw [le64, leValue_leBytes, BitVec.toNat_ofNat]
  have := w.isLt
  omega

/-- Word `k` of the serialised words is the `k`-th word. -/
theorem wordAt_wordsBytes (ws : List Word) (k : Nat) : wordAt (wordsBytes ws) k = ws.getD k 0#64 := by
  induction ws generalizing k with
  | nil => simp [wordAt, leValue]
  | cons w ws ih =>
    cases k with
    | zero =>
      simp only [wordAt, wordsBytes_cons, Nat.mul_zero, List.drop_zero, List.getD_cons_zero]
      rw [List.take_append_of_le_length (by simp), List.take_of_length_le (by simp), leValue_le64]
    | succ k =>
      rw [List.getD_cons_succ, ← ih k]
      simp only [wordAt, wordsBytes_cons]
      rw [List.drop_append, List.drop_of_length_le (by simp)]
      simp [show 8 * (k + 1) - 8 = 8 * k by omega]

theorem bytesWords_wordsBytes {n : Nat} (v : Vector Word n) : bytesWords n (wordsBytes v.toList) = v := by
  ext i hi
  simp [bytesWords, wordAt_wordsBytes, List.getD_eq_getElem?_getD]

@[simp] theorem blockOfBytes_blockBytes (B : Block) : blockOfBytes (blockBytes B) = B := bytesWords_wordsBytes B

theorem le64_wordAt (bs : List Byte) (k : Nat) (h : 8 * k + 8 ≤ bs.length) :
    le64 (wordAt bs k) = (bs.drop (8 * k)).take 8 := by
  have hlen : ((bs.drop (8 * k)).take 8).length = 8 := by simp; omega
  have hlt := leValue_lt ((bs.drop (8 * k)).take 8)
  rw [hlen] at hlt
  rw [le64, wordAt, BitVec.toNat_ofNat, Nat.mod_eq_of_lt (by norm_num at hlt ⊢; exact hlt)]
  have := leBytes_leValue ((bs.drop (8 * k)).take 8)
  rwa [hlen] at this

/-- Serialising the words of a string of 8·n bytes gives the string back. -/
theorem wordsBytes_bytesWords {n : Nat} (bs : List Byte) (h : bs.length = 8 * n) :
    wordsBytes (bytesWords n bs).toList = bs := by
  have key : ∀ m, m ≤ n → wordsBytes ((List.range m).map fun k => wordAt bs k) = bs.take (8 * m) := by
    intro m hm
    induction m with
    | zero => simp
    | succ m ih =>
      rw [List.range_succ, List.map_append, wordsBytes, List.flatMap_append]
      have := ih (by omega)
      rw [wordsBytes] at this
      rw [this]
      simp only [List.map_cons, List.map_nil, List.flatMap_cons, List.flatMap_nil, List.append_nil]
      rw [le64_wordAt bs m (by omega), show 8 * (m + 1) = 8 * m + 8 by omega, List.take_add]
  have hl : (bytesWords n bs).toList = (List.range n).map fun k => wordAt bs k := by
    refine List.ext_getElem (by simp) fun i h1 h2 => ?_
    simp [bytesWords]
  rw [hl, key n (le_refl n), List.take_of_length_le (by omega)]

theorem blockBytes_blockOfBytes (bs : List Byte) (h : bs.length = 1024) : blockBytes (blockOfBytes bs) = bs :=
  wordsBytes_bytesWords bs (by omega)

@[simp] theorem zeroBytes_length (n : Nat) : (zeroBytes n).length = n := by simp [zeroBytes]

@[simp] theorem blockXor_get (X Y : Block) (w : Fin 128) : (blockXor X Y).get w = X.get w ^^^ Y.get w := by
  show (blockXor X Y)[w.val] = _
  simp only [blockXor, Vector.getElem_ofFn]

@[simp] theorem zeroBlock_get (w : Fin 128) : zeroBlock.get w = 0#64 := by
  show zeroBlock[w.val] = _
  simp only [zeroBlock, Vector.getElem_replicate]

/-- Two blocks with the same words are equal. -/
theorem block_ext {X Y : Block} (h : ∀ w : Fin 128, X.get w = Y.get w) : X = Y := by
  apply Vector.ext
  intro i hi
  exact h ⟨i, hi⟩

@[simp] theorem blockXor_self (X : Block) : blockXor X X = zeroBlock := block_ext fun w => by simp

theorem blockXor_comm (X Y : Block) : blockXor X Y = blockXor Y X :=
  block_ext fun w => by simp [BitVec.xor_comm]

theorem blockXor_assoc (X Y Z : Block) : blockXor (blockXor X Y) Z = blockXor X (blockXor Y Z) :=
  block_ext fun w => by simp [BitVec.xor_assoc]

@[simp] theorem zeroBlock_xor (X : Block) : blockXor zeroBlock X = X := block_ext fun w => by simp

@[simp] theorem xor_zeroBlock (X : Block) : blockXor X zeroBlock = X := block_ext fun w => by simp

end Sys2Proof.Machine
end

