-- ==== Sys2Proof/Laws/Memory.lean ====
section
/-! SUPPORT. Laws of the byte memory: reading after storing, and the canonical form. -/

namespace Sys2Proof.Machine

theorem memByte_of_not_listed {m : List Host.Cell} {a : Nat} (h : ∀ c ∈ m, c.1 ≠ a) : memByte m a = unlisted a := by
  induction m with
  | nil => rfl
  | cons c m ih =>
    simp only [List.mem_cons, forall_eq_or_imp] at h
    simp [memByte, h.1, ih h.2]

theorem memByte_append_left {l m : List Host.Cell} {a : Nat} (h : ∀ c ∈ l, c.1 ≠ a) :
    memByte (l ++ m) a = memByte m a := by
  induction l with
  | nil => rfl
  | cons c l ih =>
    simp only [List.mem_cons, forall_eq_or_imp] at h
    simp [memByte, h.1, ih h.2]

theorem memByte_append_right {l m : List Host.Cell} {a : Nat} (h : ∀ c ∈ m, c.1 ≠ a) :
    memByte (l ++ m) a = memByte l a := by
  induction l with
  | nil => simpa [memByte] using memByte_of_not_listed h
  | cons c l ih => simp [memByte, ih]

theorem memByte_filter {m : List Host.Cell} {a : Nat} (p : Nat → Bool) :
    memByte (m.filter fun c => p c.1) a = if p a then memByte m a else unlisted a := by
  induction m with
  | nil => simp [memByte]
  | cons c m ih =>
    by_cases hc : p c.1
    · rw [List.filter_cons_of_pos (by simpa using hc)]
      by_cases ha : c.1 = a
      · subst ha; simp [memByte, hc]
      · simp [memByte, ha, ih]
    · rw [List.filter_cons_of_neg (by simpa using hc), ih]
      by_cases ha : c.1 = a
      · subst ha; simp [hc]
      · simp [memByte, ha]

theorem cellsFrom_key {bs : List Byte} {lo : Nat} {c : Host.Cell} (h : c ∈ cellsFrom lo bs) :
    lo ≤ c.1 ∧ c.1 < lo + bs.length ∧ c.2 ≠ unlisted c.1 := by
  induction bs generalizing lo with
  | nil => simp [cellsFrom] at h
  | cons b bs ih =>
    simp only [cellsFrom] at h
    split at h
    · obtain ⟨h1, h2, h3⟩ := ih h
      exact ⟨by omega, by simp only [List.length_cons]; omega, h3⟩
    · rename_i hb
      rcases List.mem_cons.1 h with rfl | h
      · exact ⟨le_refl _, by simp, hb⟩
      · obtain ⟨h1, h2, h3⟩ := ih h
        exact ⟨by omega, by simp only [List.length_cons]; omega, h3⟩

theorem memByte_cellsFrom (bs : List Byte) (lo a : Nat) :
    memByte (cellsFrom lo bs) a = if lo ≤ a ∧ a < lo + bs.length then bs.getD (a - lo) 0#8 else unlisted a := by
  induction bs generalizing lo with
  | nil => simp [cellsFrom, memByte, unlisted]
  | cons b bs ih =>
    by_cases ha : a = lo
    · subst ha
      simp only [cellsFrom]
      split
      · rename_i hb
        rw [ih, if_neg (by omega), if_pos (by simp)]
        simp [hb]
      · simp [memByte]
    · have hrec : memByte (cellsFrom lo (b :: bs)) a = memByte (cellsFrom (lo + 1) bs) a := by
        simp only [cellsFrom]
        split
        · rfl
        · simp [memByte, Ne.symm ha]
      rw [hrec, ih]
      by_cases h : lo + 1 ≤ a ∧ a < lo + 1 + bs.length
      · rw [if_pos h, if_pos (by simp only [List.length_cons]; omega),
          show a - lo = (a - (lo + 1)) + 1 by omega]
        simp
      · rw [if_neg h, if_neg (by simp only [List.length_cons]; omega)]

/-- Reading a byte after a store: the stored byte inside the stored range, the old byte outside it. -/
theorem memByte_memWrite (m : List Host.Cell) (lo a : Nat) (bs : List Byte) :
    memByte (memWrite m lo bs) a =
      if lo ≤ a ∧ a < lo + bs.length then bs.getD (a - lo) 0#8 else memByte m a := by
  have hlow : ∀ c ∈ m.filter (fun c => decide (c.1 < lo)), c.1 < lo := by simp [List.mem_filter]
  have hhigh : ∀ c ∈ m.filter (fun c => decide (lo + bs.length ≤ c.1)), lo + bs.length ≤ c.1 := by
    simp [List.mem_filter]
  unfold memWrite
  by_cases h : lo ≤ a ∧ a < lo + bs.length
  · rw [if_pos h, List.append_assoc, memByte_append_left (by intro c hc; have := hlow c hc; omega),
      memByte_append_right (by intro c hc; have := hhigh c hc; omega), memByte_cellsFrom, if_pos h]
  · rw [if_neg h]
    by_cases ha : a < lo
    · rw [memByte_append_right (by intro c hc; have := hhigh c hc; omega),
        memByte_append_right (by intro c hc; have := cellsFrom_key hc; omega),
        memByte_filter (fun k => decide (k < lo))]
      simp [ha]
    · rw [memByte_append_left, memByte_filter (fun k => decide (lo + bs.length ≤ k))]
      · rw [if_pos (by simp; omega)]
      · intro c hc
        rcases List.mem_append.1 hc with hc | hc
        · have := hlow c hc; omega
        · have := cellsFrom_key hc; omega

theorem memBytes_eq (m : List Host.Cell) (lo n : Nat) :
    memBytes m lo n = (List.range n).map fun i => memByte m (lo + i) := by
  unfold memBytes
  refine List.map_congr_left fun i hi => ?_
  rw [memByte_filter (fun k => decide (lo ≤ k) && decide (k < lo + n))]
  rw [if_pos (by simp [List.mem_range.1 hi])]

@[simp] theorem memBytes_length (m : List Host.Cell) (lo n : Nat) : (memBytes m lo n).length = n := by
  simp [memBytes_eq]

/-- What was stored is read back. -/
theorem memBytes_memWrite_same (m : List Host.Cell) (lo : Nat) (bs : List Byte) :
    memBytes (memWrite m lo bs) lo bs.length = bs := by
  rw [memBytes_eq]
  refine List.ext_getElem (by simp) fun i h1 h2 => ?_
  simp only [List.getElem_map, List.getElem_range, memByte_memWrite]
  rw [if_pos (by omega)]
  simp [List.getD_eq_getElem?_getD, h2]

/-- A store leaves every disjoint range as it was. -/
theorem memBytes_memWrite_disjoint (m : List Host.Cell) (lo lo' n : Nat) (bs : List Byte)
    (h : lo' + n ≤ lo ∨ lo + bs.length ≤ lo') : memBytes (memWrite m lo bs) lo' n = memBytes m lo' n := by
  rw [memBytes_eq, memBytes_eq]
  refine List.map_congr_left fun i hi => ?_
  have := List.mem_range.1 hi
  rw [memByte_memWrite, if_neg (by omega)]

theorem memWf_iff {limit : Nat} {m : List Host.Cell} :
    memWf limit m = true ↔ (m.Pairwise fun c d => c.1 < d.1) ∧ ∀ c ∈ m, c.2 ≠ unlisted c.1 ∧ c.1 < limit := by
  simp [memWf]

theorem memWf_nil (limit : Nat) : memWf limit [] = true := by simp [memWf_iff]

theorem memWf_filter {limit : Nat} {m : List Host.Cell} (h : memWf limit m = true) (p : Host.Cell → Bool) :
    memWf limit (m.filter p) = true := by
  rw [memWf_iff] at h ⊢
  exact ⟨h.1.filter _, fun c hc => h.2 c (List.mem_filter.1 hc).1⟩

theorem cellsFrom_pairwise (bs : List Byte) (lo : Nat) : (cellsFrom lo bs).Pairwise fun c d => c.1 < d.1 := by
  induction bs generalizing lo with
  | nil => simp [cellsFrom]
  | cons b bs ih =>
    simp only [cellsFrom]
    split
    · exact ih _
    · refine List.pairwise_cons.2 ⟨fun c hc => ?_, ih _⟩
      have := cellsFrom_key hc
      show lo < c.1
      omega

/-- Every store that stays below the limit keeps the canonical form. -/
theorem memWf_memWrite {limit : Nat} {m : List Host.Cell} (h : memWf limit m = true) (lo : Nat) (bs : List Byte)
    (hlim : lo + bs.length ≤ limit) : memWf limit (memWrite m lo bs) = true := by
  rw [memWf_iff] at h ⊢
  constructor
  · unfold memWrite
    refine List.pairwise_append.2 ⟨List.pairwise_append.2 ⟨h.1.filter _, cellsFrom_pairwise bs lo, ?_⟩,
      h.1.filter _, ?_⟩
    · intro c hc d hd
      have h1 : c.1 < lo := by simpa using (List.mem_filter.1 hc).2
      have := cellsFrom_key hd
      omega
    · intro c hc d hd
      have h2 : lo + bs.length ≤ d.1 := by simpa using (List.mem_filter.1 hd).2
      rcases List.mem_append.1 hc with hc | hc
      · have h1 : c.1 < lo := by simpa using (List.mem_filter.1 hc).2
        omega
      · have := cellsFrom_key hc
        omega
  · intro c hc
    rcases List.mem_append.1 hc with hc | hc
    · rcases List.mem_append.1 hc with hc | hc
      · exact h.2 c (List.mem_filter.1 hc).1
      · have := cellsFrom_key hc
        exact ⟨this.2.2, by omega⟩
    · exact h.2 c (List.mem_filter.1 hc).1

/-- A listed byte of a canonical memory is what it reads. -/
theorem memByte_of_mem {limit : Nat} {m : List Host.Cell} (h : memWf limit m = true) {c : Host.Cell} (hc : c ∈ m) :
    memByte m c.1 = c.2 := by
  rw [memWf_iff] at h
  obtain ⟨hp, -⟩ := h
  induction m with
  | nil => cases hc
  | cons d m ih =>
    obtain ⟨hd, hp⟩ := List.pairwise_cons.1 hp
    rcases List.mem_cons.1 hc with rfl | hc
    · simp [memByte]
    · have := hd c hc
      rw [memByte, if_neg (by omega)]
      exact ih hc hp

/-- A byte that reads differently from an unlisted one is listed. -/
theorem mem_of_memByte_ne {m : List Host.Cell} {a : Nat} (h : memByte m a ≠ unlisted a) : (a, memByte m a) ∈ m := by
  induction m with
  | nil => simp [memByte] at h
  | cons c m ih =>
    by_cases hc : c.1 = a
    · subst hc; simp [memByte]
    · simp only [memByte, if_neg hc] at h ⊢
      exact List.mem_cons_of_mem _ (ih h)

/-- Canonical memories that read the same at every address are the same list. -/
theorem mem_ext {limit limit' : Nat} {m m' : List Host.Cell} (h : memWf limit m = true) (h' : memWf limit' m' = true)
    (hread : ∀ a, memByte m a = memByte m' a) : m = m' := by
  have sub : ∀ {l l' : Nat} {x y : List Host.Cell}, memWf l x = true → memWf l' y = true →
      (∀ a, memByte x a = memByte y a) → ∀ c ∈ x, c ∈ y := by
    intro l l' x y hx hy hr c hc
    have hread := memByte_of_mem hx hc
    have hne := ((memWf_iff.1 hx).2 c hc).1
    have : memByte y c.1 = c.2 := by rw [← hr, hread]
    have hm := mem_of_memByte_ne (m := y) (a := c.1) (by rw [this]; exact hne)
    rwa [this] at hm
  have nd : ∀ {l : Nat} {x : List Host.Cell}, memWf l x = true → x.Nodup := by
    intro l x hx
    exact ((memWf_iff.1 hx).1).imp fun h e => by subst e; omega
  have hperm : m.Perm m' := (List.perm_ext_iff_of_nodup (nd h) (nd h')).2 fun c =>
    ⟨sub h h' hread c, sub h' h (fun a => (hread a).symm) c⟩
  exact List.Perm.eq_of_pairwise (le := fun c d => c.1 < d.1) (fun a b _ _ h1 h2 => by omega)
    (memWf_iff.1 h).1 (memWf_iff.1 h').1 hperm

/-- A draw is a canonical memory inside the arena. -/
theorem memWf_drawArena (blocks : Nat) (draw : List Host.Cell) :
    memWf (1024 * blocks) (drawArena blocks draw) = true := by
  have : ∀ (m : List Host.Cell), memWf (1024 * blocks) m = true →
      memWf (1024 * blocks)
        (draw.foldl (fun m c => if c.1 < 1024 * blocks then memWrite m c.1 [c.2] else m) m) = true := by
    induction draw with
    | nil => intro m h; exact h
    | cons c draw ih =>
      intro m h
      refine ih _ ?_
      show memWf _ (if _ then _ else _) = true
      split
      · exact memWf_memWrite h _ _ (by simp only [List.length_singleton]; omega)
      · exact h
  exact this [] (memWf_nil _)

end Sys2Proof.Machine
end

