-- ==== Sys2Proof/Laws/Arena.lean ====
section
/-! SUPPORT. Laws of the word and block accesses: what a store changes, what it leaves, and the canonical form. -/

namespace Sys2Proof.Machine

/-- A block store inside the arena, in one equation. -/
theorem blockWrite_of_lt {s : State} {b : Nat} (h : b < s.arenaBlocks) (B : Block) :
    blockWrite s b B = { s with arena := memWrite s.arena (1024 * b) (blockBytes B) } := if_pos h

theorem blockWrite_of_not_lt {s : State} {b : Nat} (h : ¬ b < s.arenaBlocks) (B : Block) : blockWrite s b B = s :=
  if_neg h

/-- A block store changes the arena alone. -/
theorem blockWrite_eq (s : State) (b : Nat) (B : Block) :
    blockWrite s b B = { s with arena := (blockWrite s b B).arena } := by
  unfold blockWrite; split <;> rfl

theorem arenaWrite_eq (s : State) (a : Nat) (v : Word) :
    arenaWrite s a v = { s with arena := (arenaWrite s a v).arena } := by
  unfold arenaWrite; split <;> rfl

@[simp] theorem blockWrite_arenaBlocks (s : State) (b : Nat) (B : Block) :
    (blockWrite s b B).arenaBlocks = s.arenaBlocks := by rw [blockWrite_eq]

@[simp] theorem arenaWrite_arenaBlocks (s : State) (a : Nat) (v : Word) :
    (arenaWrite s a v).arenaBlocks = s.arenaBlocks := by rw [arenaWrite_eq]

/-- A byte after a block store: the block's byte inside the block, the old byte outside it. -/
theorem memByte_blockWrite (s : State) (b a : Nat) (B : Block) (h : b < s.arenaBlocks) :
    memByte (blockWrite s b B).arena a =
      if 1024 * b ≤ a ∧ a < 1024 * b + 1024 then (blockBytes B).getD (a - 1024 * b) 0#8 else memByte s.arena a := by
  rw [blockWrite_of_lt h]
  simp [memByte_memWrite]

/-- The block just stored is read back. -/
theorem blockRead_blockWrite_same (s : State) (b : Nat) (B : Block) (h : b < s.arenaBlocks) :
    blockRead (blockWrite s b B) b = B := by
  rw [blockWrite_of_lt h, blockRead, if_pos h]
  have := memBytes_memWrite_same s.arena (1024 * b) (blockBytes B)
  rw [blockBytes_length] at this
  rw [this, blockOfBytes_blockBytes]

/-- Every other block is as before. -/
theorem blockRead_blockWrite_other (s : State) (b c : Nat) (B : Block) (hc : c ≠ b) :
    blockRead (blockWrite s b B) c = blockRead s c := by
  by_cases h : b < s.arenaBlocks
  · rw [blockWrite_of_lt h]
    unfold blockRead
    rw [memBytes_memWrite_disjoint _ _ _ _ _ (by rw [blockBytes_length]; omega)]
  · rw [blockWrite_of_not_lt h]

/-- The word just stored is read back. -/
theorem arenaRead_arenaWrite_same (s : State) (a : Nat) (v : Word) (h : a < arenaWords s) :
    arenaRead (arenaWrite s a v) a = v := by
  have h' : a < arenaWords (arenaWrite s a v) := by rw [arenaWords, arenaWrite_arenaBlocks]; exact h
  rw [arenaRead, if_pos h', arenaWrite, if_pos h]
  have := memBytes_memWrite_same s.arena (8 * a) (le64 v)
  rw [le64_length] at this
  show wordAt (memBytes (memWrite s.arena (8 * a) (le64 v)) (8 * a) 8) 0 = v
  rw [this, wordAt]
  simp only [Nat.mul_zero, List.drop_zero]
  rw [List.take_of_length_le (by simp), leValue_le64]

/-- Every other word is as before. -/
theorem arenaRead_arenaWrite_other (s : State) (a c : Nat) (v : Word) (hc : c ≠ a) :
    arenaRead (arenaWrite s a v) c = arenaRead s c := by
  by_cases h : a < arenaWords s
  · rw [arenaWrite, if_pos h]
    unfold arenaRead arenaWords
    simp only
    rw [memBytes_memWrite_disjoint _ _ _ _ _ (by rw [le64_length]; omega)]
  · rw [arenaWrite, if_neg h]

/-- A part of a range of bytes is the range of that part. -/
theorem memBytes_part (m : List Host.Cell) (lo n k l : Nat) (h : k + l ≤ n) :
    ((memBytes m lo n).drop k).take l = memBytes m (lo + k) l := by
  rw [memBytes_eq, memBytes_eq]
  refine List.ext_getElem (by simp; omega) fun i h1 h2 => ?_
  simp only [List.getElem_take, List.getElem_drop, List.getElem_map, List.getElem_range]
  rw [Nat.add_assoc]

/-- Word `w` of block `b` is the arena word at word address 128·b + w (43_block.md R162). -/
theorem blockRead_get (s : State) (b : Nat) (w : Fin 128) (h : b < s.arenaBlocks) :
    (blockRead s b).get w = arenaRead s (128 * b + w.val) := by
  rw [blockRead, if_pos h, arenaRead, if_pos (by unfold arenaWords; omega)]
  show (blockOfBytes _)[w.val] = _
  simp only [blockOfBytes, bytesWords, Vector.getElem_ofFn, wordAt]
  rw [memBytes_part _ _ _ _ _ (by omega), memBytes_part _ _ _ _ _ (by omega),
    show 1024 * b + 8 * w.val = 8 * (128 * b + w.val) + 8 * 0 by omega]

/-- The bytes of a block are the arena's bytes. -/
theorem blockBytes_blockRead (s : State) (b : Nat) (h : b < s.arenaBlocks) :
    blockBytes (blockRead s b) = memBytes s.arena (1024 * b) 1024 := by
  rw [blockRead, if_pos h, blockBytes_blockOfBytes _ (by simp)]

/-- A block store keeps the canonical form. -/
theorem memWf_blockWrite (s : State) (b : Nat) (B : Block) (h : memWf (arenaBytes s) s.arena = true) :
    memWf (arenaBytes s) (blockWrite s b B).arena = true := by
  unfold blockWrite
  split
  · exact memWf_memWrite h _ _ (by rw [blockBytes_length, arenaBytes]; omega)
  · exact h

/-- A word store keeps the canonical form. -/
theorem memWf_arenaWrite (s : State) (a : Nat) (v : Word) (h : memWf (arenaBytes s) s.arena = true) :
    memWf (arenaBytes s) (arenaWrite s a v).arena = true := by
  unfold arenaWrite
  split
  · rename_i ha
    exact memWf_memWrite h _ _ (by rw [le64_length, arenaBytes]; unfold arenaWords at ha; omega)
  · exact h

end Sys2Proof.Machine
end

