-- ==== Sys2Proof/Laws/State.lean ====
section
/-! SUPPORT. One lemma per field per update of the state: what each shared operation does to it. -/

namespace Sys2Proof.Machine

/-! `complete` -/

@[simp] theorem complete_cmd (s : State) : (complete s).cmd = s.cmd := rfl
@[simp] theorem complete_busy (s : State) : (complete s).status.busy = false := rfl
@[simp] theorem complete_done (s : State) : (complete s).status.done = true := rfl
@[simp] theorem complete_err (s : State) : (complete s).status.err = s.status.err := rfl
@[simp] theorem complete_errCode (s : State) : (complete s).status.errCode = s.status.errCode := rfl
@[simp] theorem complete_cfgv (s : State) : (complete s).status.cfgv = s.status.cfgv := rfl
@[simp] theorem complete_b2mode (s : State) : (complete s).status.b2mode = s.status.b2mode := rfl
@[simp] theorem complete_agact (s : State) : (complete s).status.agact = s.status.agact := rfl
@[simp] theorem complete_agind (s : State) : (complete s).status.agind = s.status.agind := rfl
@[simp] theorem complete_ie (s : State) : (complete s).ie = s.ie := rfl
@[simp] theorem complete_opa (s : State) : (complete s).opa = s.opa := rfl
@[simp] theorem complete_opb (s : State) : (complete s).opb = s.opb := rfl
@[simp] theorem complete_opc (s : State) : (complete s).opc = s.opc := rfl
@[simp] theorem complete_cfgP (s : State) : (complete s).cfgP = s.cfgP := rfl
@[simp] theorem complete_cfgM (s : State) : (complete s).cfgM = s.cfgM := rfl
@[simp] theorem complete_cfgT (s : State) : (complete s).cfgT = s.cfgT := rfl
@[simp] theorem complete_cfgY (s : State) : (complete s).cfgY = s.cfgY := rfl
@[simp] theorem complete_actP (s : State) : (complete s).actP = s.actP := rfl
@[simp] theorem complete_actT (s : State) : (complete s).actT = s.actT := rfl
@[simp] theorem complete_actY (s : State) : (complete s).actY = s.actY := rfl
@[simp] theorem complete_mprime (s : State) : (complete s).mprime = s.mprime := rfl
@[simp] theorem complete_lanelen (s : State) : (complete s).lanelen = s.lanelen := rfl
@[simp] theorem complete_seglen (s : State) : (complete s).seglen = s.seglen := rfl
@[simp] theorem complete_agPass (s : State) : (complete s).agPass = s.agPass := rfl
@[simp] theorem complete_agSlice (s : State) : (complete s).agSlice = s.agSlice := rfl
@[simp] theorem complete_agLane (s : State) : (complete s).agLane = s.agLane := rfl
@[simp] theorem complete_agIndex (s : State) : (complete s).agIndex = s.agIndex := rfl
@[simp] theorem complete_agCtr (s : State) : (complete s).agCtr = s.agCtr := rfl
@[simp] theorem complete_prand (s : State) : (complete s).prand = s.prand := rfl
@[simp] theorem complete_refLane (s : State) : (complete s).refLane = s.refLane := rfl
@[simp] theorem complete_refIndex (s : State) : (complete s).refIndex = s.refIndex := rfl
@[simp] theorem complete_refBlk (s : State) : (complete s).refBlk = s.refBlk := rfl
@[simp] theorem complete_curBlk (s : State) : (complete s).curBlk = s.curBlk := rfl
@[simp] theorem complete_prevBlk (s : State) : (complete s).prevBlk = s.prevBlk := rfl
@[simp] theorem complete_msg (s : State) : (complete s).msg = s.msg := rfl
@[simp] theorem complete_digest (s : State) : (complete s).digest = s.digest := rfl
@[simp] theorem complete_dlen (s : State) : (complete s).dlen = s.dlen := rfl
@[simp] theorem complete_b2Outlen (s : State) : (complete s).b2Outlen = s.b2Outlen := rfl
@[simp] theorem complete_hpT (s : State) : (complete s).hpT = s.hpT := rfl
@[simp] theorem complete_ctx (s : State) : (complete s).ctx = s.ctx := rfl
@[simp] theorem complete_ag (s : State) : (complete s).ag = s.ag := rfl
@[simp] theorem complete_arena (s : State) : (complete s).arena = s.arena := rfl
@[simp] theorem complete_arenaBlocks (s : State) : (complete s).arenaBlocks = s.arenaBlocks := rfl
@[simp] theorem complete_turns (s : State) : (complete s).turns = s.turns := rfl
@[simp] theorem complete_readLog (s : State) : (complete s).readLog = s.readLog := rfl

/-! `raiseError` -/

@[simp] theorem raiseError_cmd (c : CmdError) (s : State) : (raiseError c s).cmd = s.cmd := rfl
@[simp] theorem raiseError_busy (c : CmdError) (s : State) : (raiseError c s).status.busy = false := rfl
@[simp] theorem raiseError_done (c : CmdError) (s : State) : (raiseError c s).status.done = s.status.done := rfl
@[simp] theorem raiseError_err (c : CmdError) (s : State) : (raiseError c s).status.err = true := rfl
@[simp] theorem raiseError_errCode (c : CmdError) (s : State) : (raiseError c s).status.errCode = some c := rfl
@[simp] theorem raiseError_cfgv (c : CmdError) (s : State) : (raiseError c s).status.cfgv = s.status.cfgv := rfl
@[simp] theorem raiseError_b2mode (c : CmdError) (s : State) : (raiseError c s).status.b2mode = s.status.b2mode := rfl
@[simp] theorem raiseError_agact (c : CmdError) (s : State) : (raiseError c s).status.agact = s.status.agact := rfl
@[simp] theorem raiseError_agind (c : CmdError) (s : State) : (raiseError c s).status.agind = s.status.agind := rfl
@[simp] theorem raiseError_ie (c : CmdError) (s : State) : (raiseError c s).ie = s.ie := rfl
@[simp] theorem raiseError_opa (c : CmdError) (s : State) : (raiseError c s).opa = s.opa := rfl
@[simp] theorem raiseError_opb (c : CmdError) (s : State) : (raiseError c s).opb = s.opb := rfl
@[simp] theorem raiseError_opc (c : CmdError) (s : State) : (raiseError c s).opc = s.opc := rfl
@[simp] theorem raiseError_cfgP (c : CmdError) (s : State) : (raiseError c s).cfgP = s.cfgP := rfl
@[simp] theorem raiseError_cfgM (c : CmdError) (s : State) : (raiseError c s).cfgM = s.cfgM := rfl
@[simp] theorem raiseError_cfgT (c : CmdError) (s : State) : (raiseError c s).cfgT = s.cfgT := rfl
@[simp] theorem raiseError_cfgY (c : CmdError) (s : State) : (raiseError c s).cfgY = s.cfgY := rfl
@[simp] theorem raiseError_actP (c : CmdError) (s : State) : (raiseError c s).actP = s.actP := rfl
@[simp] theorem raiseError_actT (c : CmdError) (s : State) : (raiseError c s).actT = s.actT := rfl
@[simp] theorem raiseError_actY (c : CmdError) (s : State) : (raiseError c s).actY = s.actY := rfl
@[simp] theorem raiseError_mprime (c : CmdError) (s : State) : (raiseError c s).mprime = s.mprime := rfl
@[simp] theorem raiseError_lanelen (c : CmdError) (s : State) : (raiseError c s).lanelen = s.lanelen := rfl
@[simp] theorem raiseError_seglen (c : CmdError) (s : State) : (raiseError c s).seglen = s.seglen := rfl
@[simp] theorem raiseError_agPass (c : CmdError) (s : State) : (raiseError c s).agPass = s.agPass := rfl
@[simp] theorem raiseError_agSlice (c : CmdError) (s : State) : (raiseError c s).agSlice = s.agSlice := rfl
@[simp] theorem raiseError_agLane (c : CmdError) (s : State) : (raiseError c s).agLane = s.agLane := rfl
@[simp] theorem raiseError_agIndex (c : CmdError) (s : State) : (raiseError c s).agIndex = s.agIndex := rfl
@[simp] theorem raiseError_agCtr (c : CmdError) (s : State) : (raiseError c s).agCtr = s.agCtr := rfl
@[simp] theorem raiseError_prand (c : CmdError) (s : State) : (raiseError c s).prand = s.prand := rfl
@[simp] theorem raiseError_refLane (c : CmdError) (s : State) : (raiseError c s).refLane = s.refLane := rfl
@[simp] theorem raiseError_refIndex (c : CmdError) (s : State) : (raiseError c s).refIndex = s.refIndex := rfl
@[simp] theorem raiseError_refBlk (c : CmdError) (s : State) : (raiseError c s).refBlk = s.refBlk := rfl
@[simp] theorem raiseError_curBlk (c : CmdError) (s : State) : (raiseError c s).curBlk = s.curBlk := rfl
@[simp] theorem raiseError_prevBlk (c : CmdError) (s : State) : (raiseError c s).prevBlk = s.prevBlk := rfl
@[simp] theorem raiseError_msg (c : CmdError) (s : State) : (raiseError c s).msg = s.msg := rfl
@[simp] theorem raiseError_digest (c : CmdError) (s : State) : (raiseError c s).digest = s.digest := rfl
@[simp] theorem raiseError_dlen (c : CmdError) (s : State) : (raiseError c s).dlen = s.dlen := rfl
@[simp] theorem raiseError_b2Outlen (c : CmdError) (s : State) : (raiseError c s).b2Outlen = s.b2Outlen := rfl
@[simp] theorem raiseError_hpT (c : CmdError) (s : State) : (raiseError c s).hpT = s.hpT := rfl
@[simp] theorem raiseError_ctx (c : CmdError) (s : State) : (raiseError c s).ctx = s.ctx := rfl
@[simp] theorem raiseError_ag (c : CmdError) (s : State) : (raiseError c s).ag = s.ag := rfl
@[simp] theorem raiseError_arena (c : CmdError) (s : State) : (raiseError c s).arena = s.arena := rfl
@[simp] theorem raiseError_arenaBlocks (c : CmdError) (s : State) : (raiseError c s).arenaBlocks = s.arenaBlocks :=
  rfl
@[simp] theorem raiseError_turns (c : CmdError) (s : State) : (raiseError c s).turns = s.turns := rfl
@[simp] theorem raiseError_readLog (c : CmdError) (s : State) : (raiseError c s).readLog = s.readLog := rfl

/-! `issue` -/

@[simp] theorem issue_cmd (v : Word) (s : State) : (issue v s).cmd = v := rfl
@[simp] theorem issue_busy (v : Word) (s : State) : (issue v s).status.busy = true := rfl
@[simp] theorem issue_done (v : Word) (s : State) : (issue v s).status.done = false := rfl
@[simp] theorem issue_err (v : Word) (s : State) : (issue v s).status.err = false := rfl
@[simp] theorem issue_errCode (v : Word) (s : State) : (issue v s).status.errCode = none := rfl
@[simp] theorem issue_cfgv (v : Word) (s : State) : (issue v s).status.cfgv = s.status.cfgv := rfl
@[simp] theorem issue_b2mode (v : Word) (s : State) : (issue v s).status.b2mode = s.status.b2mode := rfl
@[simp] theorem issue_agact (v : Word) (s : State) : (issue v s).status.agact = s.status.agact := rfl
@[simp] theorem issue_agind (v : Word) (s : State) : (issue v s).status.agind = s.status.agind := rfl
@[simp] theorem issue_ie (v : Word) (s : State) : (issue v s).ie = s.ie := rfl
@[simp] theorem issue_opa (v : Word) (s : State) : (issue v s).opa = s.opa := rfl
@[simp] theorem issue_opb (v : Word) (s : State) : (issue v s).opb = s.opb := rfl
@[simp] theorem issue_opc (v : Word) (s : State) : (issue v s).opc = s.opc := rfl
@[simp] theorem issue_cfgP (v : Word) (s : State) : (issue v s).cfgP = s.cfgP := rfl
@[simp] theorem issue_cfgM (v : Word) (s : State) : (issue v s).cfgM = s.cfgM := rfl
@[simp] theorem issue_cfgT (v : Word) (s : State) : (issue v s).cfgT = s.cfgT := rfl
@[simp] theorem issue_cfgY (v : Word) (s : State) : (issue v s).cfgY = s.cfgY := rfl
@[simp] theorem issue_actP (v : Word) (s : State) : (issue v s).actP = s.actP := rfl
@[simp] theorem issue_actT (v : Word) (s : State) : (issue v s).actT = s.actT := rfl
@[simp] theorem issue_actY (v : Word) (s : State) : (issue v s).actY = s.actY := rfl
@[simp] theorem issue_mprime (v : Word) (s : State) : (issue v s).mprime = s.mprime := rfl
@[simp] theorem issue_lanelen (v : Word) (s : State) : (issue v s).lanelen = s.lanelen := rfl
@[simp] theorem issue_seglen (v : Word) (s : State) : (issue v s).seglen = s.seglen := rfl
@[simp] theorem issue_agPass (v : Word) (s : State) : (issue v s).agPass = s.agPass := rfl
@[simp] theorem issue_agSlice (v : Word) (s : State) : (issue v s).agSlice = s.agSlice := rfl
@[simp] theorem issue_agLane (v : Word) (s : State) : (issue v s).agLane = s.agLane := rfl
@[simp] theorem issue_agIndex (v : Word) (s : State) : (issue v s).agIndex = s.agIndex := rfl
@[simp] theorem issue_agCtr (v : Word) (s : State) : (issue v s).agCtr = s.agCtr := rfl
@[simp] theorem issue_prand (v : Word) (s : State) : (issue v s).prand = s.prand := rfl
@[simp] theorem issue_refLane (v : Word) (s : State) : (issue v s).refLane = s.refLane := rfl
@[simp] theorem issue_refIndex (v : Word) (s : State) : (issue v s).refIndex = s.refIndex := rfl
@[simp] theorem issue_refBlk (v : Word) (s : State) : (issue v s).refBlk = s.refBlk := rfl
@[simp] theorem issue_curBlk (v : Word) (s : State) : (issue v s).curBlk = s.curBlk := rfl
@[simp] theorem issue_prevBlk (v : Word) (s : State) : (issue v s).prevBlk = s.prevBlk := rfl
@[simp] theorem issue_msg (v : Word) (s : State) : (issue v s).msg = s.msg := rfl
@[simp] theorem issue_digest (v : Word) (s : State) : (issue v s).digest = s.digest := rfl
@[simp] theorem issue_dlen (v : Word) (s : State) : (issue v s).dlen = s.dlen := rfl
@[simp] theorem issue_b2Outlen (v : Word) (s : State) : (issue v s).b2Outlen = s.b2Outlen := rfl
@[simp] theorem issue_hpT (v : Word) (s : State) : (issue v s).hpT = s.hpT := rfl
@[simp] theorem issue_ctx (v : Word) (s : State) : (issue v s).ctx = s.ctx := rfl
@[simp] theorem issue_ag (v : Word) (s : State) : (issue v s).ag = s.ag := rfl
@[simp] theorem issue_arena (v : Word) (s : State) : (issue v s).arena = s.arena := rfl
@[simp] theorem issue_arenaBlocks (v : Word) (s : State) : (issue v s).arenaBlocks = s.arenaBlocks := rfl
@[simp] theorem issue_turns (v : Word) (s : State) : (issue v s).turns = s.turns := rfl
@[simp] theorem issue_readLog (v : Word) (s : State) : (issue v s).readLog = s.readLog := rfl

/-! `refuseIssue` -/

@[simp] theorem refuseIssue_cmd (s : State) : (refuseIssue s).cmd = s.cmd := rfl
@[simp] theorem refuseIssue_busy (s : State) : (refuseIssue s).status.busy = s.status.busy := rfl
@[simp] theorem refuseIssue_done (s : State) : (refuseIssue s).status.done = s.status.done := rfl
@[simp] theorem refuseIssue_err (s : State) : (refuseIssue s).status.err = true := rfl
@[simp] theorem refuseIssue_errCode (s : State) : (refuseIssue s).status.errCode = some .busy := rfl
@[simp] theorem refuseIssue_cfgv (s : State) : (refuseIssue s).status.cfgv = s.status.cfgv := rfl
@[simp] theorem refuseIssue_b2mode (s : State) : (refuseIssue s).status.b2mode = s.status.b2mode := rfl
@[simp] theorem refuseIssue_agact (s : State) : (refuseIssue s).status.agact = s.status.agact := rfl
@[simp] theorem refuseIssue_agind (s : State) : (refuseIssue s).status.agind = s.status.agind := rfl
@[simp] theorem refuseIssue_ie (s : State) : (refuseIssue s).ie = s.ie := rfl
@[simp] theorem refuseIssue_opa (s : State) : (refuseIssue s).opa = s.opa := rfl
@[simp] theorem refuseIssue_opb (s : State) : (refuseIssue s).opb = s.opb := rfl
@[simp] theorem refuseIssue_opc (s : State) : (refuseIssue s).opc = s.opc := rfl
@[simp] theorem refuseIssue_cfgP (s : State) : (refuseIssue s).cfgP = s.cfgP := rfl
@[simp] theorem refuseIssue_cfgM (s : State) : (refuseIssue s).cfgM = s.cfgM := rfl
@[simp] theorem refuseIssue_cfgT (s : State) : (refuseIssue s).cfgT = s.cfgT := rfl
@[simp] theorem refuseIssue_cfgY (s : State) : (refuseIssue s).cfgY = s.cfgY := rfl
@[simp] theorem refuseIssue_actP (s : State) : (refuseIssue s).actP = s.actP := rfl
@[simp] theorem refuseIssue_actT (s : State) : (refuseIssue s).actT = s.actT := rfl
@[simp] theorem refuseIssue_actY (s : State) : (refuseIssue s).actY = s.actY := rfl
@[simp] theorem refuseIssue_mprime (s : State) : (refuseIssue s).mprime = s.mprime := rfl
@[simp] theorem refuseIssue_lanelen (s : State) : (refuseIssue s).lanelen = s.lanelen := rfl
@[simp] theorem refuseIssue_seglen (s : State) : (refuseIssue s).seglen = s.seglen := rfl
@[simp] theorem refuseIssue_agPass (s : State) : (refuseIssue s).agPass = s.agPass := rfl
@[simp] theorem refuseIssue_agSlice (s : State) : (refuseIssue s).agSlice = s.agSlice := rfl
@[simp] theorem refuseIssue_agLane (s : State) : (refuseIssue s).agLane = s.agLane := rfl
@[simp] theorem refuseIssue_agIndex (s : State) : (refuseIssue s).agIndex = s.agIndex := rfl
@[simp] theorem refuseIssue_agCtr (s : State) : (refuseIssue s).agCtr = s.agCtr := rfl
@[simp] theorem refuseIssue_prand (s : State) : (refuseIssue s).prand = s.prand := rfl
@[simp] theorem refuseIssue_refLane (s : State) : (refuseIssue s).refLane = s.refLane := rfl
@[simp] theorem refuseIssue_refIndex (s : State) : (refuseIssue s).refIndex = s.refIndex := rfl
@[simp] theorem refuseIssue_refBlk (s : State) : (refuseIssue s).refBlk = s.refBlk := rfl
@[simp] theorem refuseIssue_curBlk (s : State) : (refuseIssue s).curBlk = s.curBlk := rfl
@[simp] theorem refuseIssue_prevBlk (s : State) : (refuseIssue s).prevBlk = s.prevBlk := rfl
@[simp] theorem refuseIssue_msg (s : State) : (refuseIssue s).msg = s.msg := rfl
@[simp] theorem refuseIssue_digest (s : State) : (refuseIssue s).digest = s.digest := rfl
@[simp] theorem refuseIssue_dlen (s : State) : (refuseIssue s).dlen = s.dlen := rfl
@[simp] theorem refuseIssue_b2Outlen (s : State) : (refuseIssue s).b2Outlen = s.b2Outlen := rfl
@[simp] theorem refuseIssue_hpT (s : State) : (refuseIssue s).hpT = s.hpT := rfl
@[simp] theorem refuseIssue_ctx (s : State) : (refuseIssue s).ctx = s.ctx := rfl
@[simp] theorem refuseIssue_ag (s : State) : (refuseIssue s).ag = s.ag := rfl
@[simp] theorem refuseIssue_arena (s : State) : (refuseIssue s).arena = s.arena := rfl
@[simp] theorem refuseIssue_arenaBlocks (s : State) : (refuseIssue s).arenaBlocks = s.arenaBlocks := rfl
@[simp] theorem refuseIssue_turns (s : State) : (refuseIssue s).turns = s.turns := rfl
@[simp] theorem refuseIssue_readLog (s : State) : (refuseIssue s).readLog = s.readLog := rfl

/-! `writeStatus` -/

@[simp] theorem writeStatus_cmd (v : Word) (s : State) : (writeStatus v s).cmd = s.cmd := rfl
@[simp] theorem writeStatus_busy (v : Word) (s : State) : (writeStatus v s).status.busy = s.status.busy := rfl
@[simp] theorem writeStatus_done (v : Word) (s : State) :
    (writeStatus v s).status.done = if v.getLsbD 1 then false else s.status.done :=
  rfl
@[simp] theorem writeStatus_err (v : Word) (s : State) :
    (writeStatus v s).status.err = if v.getLsbD 2 then false else s.status.err :=
  rfl
@[simp] theorem writeStatus_errCode (v : Word) (s : State) :
    (writeStatus v s).status.errCode = if v.getLsbD 2 then none else s.status.errCode :=
  rfl
@[simp] theorem writeStatus_cfgv (v : Word) (s : State) : (writeStatus v s).status.cfgv = s.status.cfgv := rfl
@[simp] theorem writeStatus_b2mode (v : Word) (s : State) : (writeStatus v s).status.b2mode = s.status.b2mode := rfl
@[simp] theorem writeStatus_agact (v : Word) (s : State) : (writeStatus v s).status.agact = s.status.agact := rfl
@[simp] theorem writeStatus_agind (v : Word) (s : State) : (writeStatus v s).status.agind = s.status.agind := rfl
@[simp] theorem writeStatus_ie (v : Word) (s : State) : (writeStatus v s).ie = s.ie := rfl
@[simp] theorem writeStatus_opa (v : Word) (s : State) : (writeStatus v s).opa = s.opa := rfl
@[simp] theorem writeStatus_opb (v : Word) (s : State) : (writeStatus v s).opb = s.opb := rfl
@[simp] theorem writeStatus_opc (v : Word) (s : State) : (writeStatus v s).opc = s.opc := rfl
@[simp] theorem writeStatus_cfgP (v : Word) (s : State) : (writeStatus v s).cfgP = s.cfgP := rfl
@[simp] theorem writeStatus_cfgM (v : Word) (s : State) : (writeStatus v s).cfgM = s.cfgM := rfl
@[simp] theorem writeStatus_cfgT (v : Word) (s : State) : (writeStatus v s).cfgT = s.cfgT := rfl
@[simp] theorem writeStatus_cfgY (v : Word) (s : State) : (writeStatus v s).cfgY = s.cfgY := rfl
@[simp] theorem writeStatus_actP (v : Word) (s : State) : (writeStatus v s).actP = s.actP := rfl
@[simp] theorem writeStatus_actT (v : Word) (s : State) : (writeStatus v s).actT = s.actT := rfl
@[simp] theorem writeStatus_actY (v : Word) (s : State) : (writeStatus v s).actY = s.actY := rfl
@[simp] theorem writeStatus_mprime (v : Word) (s : State) : (writeStatus v s).mprime = s.mprime := rfl
@[simp] theorem writeStatus_lanelen (v : Word) (s : State) : (writeStatus v s).lanelen = s.lanelen := rfl
@[simp] theorem writeStatus_seglen (v : Word) (s : State) : (writeStatus v s).seglen = s.seglen := rfl
@[simp] theorem writeStatus_agPass (v : Word) (s : State) : (writeStatus v s).agPass = s.agPass := rfl
@[simp] theorem writeStatus_agSlice (v : Word) (s : State) : (writeStatus v s).agSlice = s.agSlice := rfl
@[simp] theorem writeStatus_agLane (v : Word) (s : State) : (writeStatus v s).agLane = s.agLane := rfl
@[simp] theorem writeStatus_agIndex (v : Word) (s : State) : (writeStatus v s).agIndex = s.agIndex := rfl
@[simp] theorem writeStatus_agCtr (v : Word) (s : State) : (writeStatus v s).agCtr = s.agCtr := rfl
@[simp] theorem writeStatus_prand (v : Word) (s : State) : (writeStatus v s).prand = s.prand := rfl
@[simp] theorem writeStatus_refLane (v : Word) (s : State) : (writeStatus v s).refLane = s.refLane := rfl
@[simp] theorem writeStatus_refIndex (v : Word) (s : State) : (writeStatus v s).refIndex = s.refIndex := rfl
@[simp] theorem writeStatus_refBlk (v : Word) (s : State) : (writeStatus v s).refBlk = s.refBlk := rfl
@[simp] theorem writeStatus_curBlk (v : Word) (s : State) : (writeStatus v s).curBlk = s.curBlk := rfl
@[simp] theorem writeStatus_prevBlk (v : Word) (s : State) : (writeStatus v s).prevBlk = s.prevBlk := rfl
@[simp] theorem writeStatus_msg (v : Word) (s : State) : (writeStatus v s).msg = s.msg := rfl
@[simp] theorem writeStatus_digest (v : Word) (s : State) : (writeStatus v s).digest = s.digest := rfl
@[simp] theorem writeStatus_dlen (v : Word) (s : State) : (writeStatus v s).dlen = s.dlen := rfl
@[simp] theorem writeStatus_b2Outlen (v : Word) (s : State) : (writeStatus v s).b2Outlen = s.b2Outlen := rfl
@[simp] theorem writeStatus_hpT (v : Word) (s : State) : (writeStatus v s).hpT = s.hpT := rfl
@[simp] theorem writeStatus_ctx (v : Word) (s : State) : (writeStatus v s).ctx = s.ctx := rfl
@[simp] theorem writeStatus_ag (v : Word) (s : State) : (writeStatus v s).ag = s.ag := rfl
@[simp] theorem writeStatus_arena (v : Word) (s : State) : (writeStatus v s).arena = s.arena := rfl
@[simp] theorem writeStatus_arenaBlocks (v : Word) (s : State) : (writeStatus v s).arenaBlocks = s.arenaBlocks := rfl
@[simp] theorem writeStatus_turns (v : Word) (s : State) : (writeStatus v s).turns = s.turns := rfl
@[simp] theorem writeStatus_readLog (v : Word) (s : State) : (writeStatus v s).readLog = s.readLog := rfl

/-! `logRead` -/

@[simp] theorem logRead_cmd (v : Word) (s : State) : (logRead v s).cmd = s.cmd := rfl
@[simp] theorem logRead_status (v : Word) (s : State) : (logRead v s).status = s.status := rfl
@[simp] theorem logRead_ie (v : Word) (s : State) : (logRead v s).ie = s.ie := rfl
@[simp] theorem logRead_opa (v : Word) (s : State) : (logRead v s).opa = s.opa := rfl
@[simp] theorem logRead_opb (v : Word) (s : State) : (logRead v s).opb = s.opb := rfl
@[simp] theorem logRead_opc (v : Word) (s : State) : (logRead v s).opc = s.opc := rfl
@[simp] theorem logRead_cfgP (v : Word) (s : State) : (logRead v s).cfgP = s.cfgP := rfl
@[simp] theorem logRead_cfgM (v : Word) (s : State) : (logRead v s).cfgM = s.cfgM := rfl
@[simp] theorem logRead_cfgT (v : Word) (s : State) : (logRead v s).cfgT = s.cfgT := rfl
@[simp] theorem logRead_cfgY (v : Word) (s : State) : (logRead v s).cfgY = s.cfgY := rfl
@[simp] theorem logRead_actP (v : Word) (s : State) : (logRead v s).actP = s.actP := rfl
@[simp] theorem logRead_actT (v : Word) (s : State) : (logRead v s).actT = s.actT := rfl
@[simp] theorem logRead_actY (v : Word) (s : State) : (logRead v s).actY = s.actY := rfl
@[simp] theorem logRead_mprime (v : Word) (s : State) : (logRead v s).mprime = s.mprime := rfl
@[simp] theorem logRead_lanelen (v : Word) (s : State) : (logRead v s).lanelen = s.lanelen := rfl
@[simp] theorem logRead_seglen (v : Word) (s : State) : (logRead v s).seglen = s.seglen := rfl
@[simp] theorem logRead_agPass (v : Word) (s : State) : (logRead v s).agPass = s.agPass := rfl
@[simp] theorem logRead_agSlice (v : Word) (s : State) : (logRead v s).agSlice = s.agSlice := rfl
@[simp] theorem logRead_agLane (v : Word) (s : State) : (logRead v s).agLane = s.agLane := rfl
@[simp] theorem logRead_agIndex (v : Word) (s : State) : (logRead v s).agIndex = s.agIndex := rfl
@[simp] theorem logRead_agCtr (v : Word) (s : State) : (logRead v s).agCtr = s.agCtr := rfl
@[simp] theorem logRead_prand (v : Word) (s : State) : (logRead v s).prand = s.prand := rfl
@[simp] theorem logRead_refLane (v : Word) (s : State) : (logRead v s).refLane = s.refLane := rfl
@[simp] theorem logRead_refIndex (v : Word) (s : State) : (logRead v s).refIndex = s.refIndex := rfl
@[simp] theorem logRead_refBlk (v : Word) (s : State) : (logRead v s).refBlk = s.refBlk := rfl
@[simp] theorem logRead_curBlk (v : Word) (s : State) : (logRead v s).curBlk = s.curBlk := rfl
@[simp] theorem logRead_prevBlk (v : Word) (s : State) : (logRead v s).prevBlk = s.prevBlk := rfl
@[simp] theorem logRead_msg (v : Word) (s : State) : (logRead v s).msg = s.msg := rfl
@[simp] theorem logRead_digest (v : Word) (s : State) : (logRead v s).digest = s.digest := rfl
@[simp] theorem logRead_dlen (v : Word) (s : State) : (logRead v s).dlen = s.dlen := rfl
@[simp] theorem logRead_b2Outlen (v : Word) (s : State) : (logRead v s).b2Outlen = s.b2Outlen := rfl
@[simp] theorem logRead_hpT (v : Word) (s : State) : (logRead v s).hpT = s.hpT := rfl
@[simp] theorem logRead_ctx (v : Word) (s : State) : (logRead v s).ctx = s.ctx := rfl
@[simp] theorem logRead_ag (v : Word) (s : State) : (logRead v s).ag = s.ag := rfl
@[simp] theorem logRead_arena (v : Word) (s : State) : (logRead v s).arena = s.arena := rfl
@[simp] theorem logRead_arenaBlocks (v : Word) (s : State) : (logRead v s).arenaBlocks = s.arenaBlocks := rfl
@[simp] theorem logRead_turns (v : Word) (s : State) : (logRead v s).turns = s.turns := rfl
@[simp] theorem logRead_readLog (v : Word) (s : State) : (logRead v s).readLog = v :: s.readLog := rfl

/-! `popTurn` -/

@[simp] theorem popTurn_cmd (s : State) : (popTurn s).cmd = s.cmd := rfl
@[simp] theorem popTurn_status (s : State) : (popTurn s).status = s.status := rfl
@[simp] theorem popTurn_ie (s : State) : (popTurn s).ie = s.ie := rfl
@[simp] theorem popTurn_opa (s : State) : (popTurn s).opa = s.opa := rfl
@[simp] theorem popTurn_opb (s : State) : (popTurn s).opb = s.opb := rfl
@[simp] theorem popTurn_opc (s : State) : (popTurn s).opc = s.opc := rfl
@[simp] theorem popTurn_cfgP (s : State) : (popTurn s).cfgP = s.cfgP := rfl
@[simp] theorem popTurn_cfgM (s : State) : (popTurn s).cfgM = s.cfgM := rfl
@[simp] theorem popTurn_cfgT (s : State) : (popTurn s).cfgT = s.cfgT := rfl
@[simp] theorem popTurn_cfgY (s : State) : (popTurn s).cfgY = s.cfgY := rfl
@[simp] theorem popTurn_actP (s : State) : (popTurn s).actP = s.actP := rfl
@[simp] theorem popTurn_actT (s : State) : (popTurn s).actT = s.actT := rfl
@[simp] theorem popTurn_actY (s : State) : (popTurn s).actY = s.actY := rfl
@[simp] theorem popTurn_mprime (s : State) : (popTurn s).mprime = s.mprime := rfl
@[simp] theorem popTurn_lanelen (s : State) : (popTurn s).lanelen = s.lanelen := rfl
@[simp] theorem popTurn_seglen (s : State) : (popTurn s).seglen = s.seglen := rfl
@[simp] theorem popTurn_agPass (s : State) : (popTurn s).agPass = s.agPass := rfl
@[simp] theorem popTurn_agSlice (s : State) : (popTurn s).agSlice = s.agSlice := rfl
@[simp] theorem popTurn_agLane (s : State) : (popTurn s).agLane = s.agLane := rfl
@[simp] theorem popTurn_agIndex (s : State) : (popTurn s).agIndex = s.agIndex := rfl
@[simp] theorem popTurn_agCtr (s : State) : (popTurn s).agCtr = s.agCtr := rfl
@[simp] theorem popTurn_prand (s : State) : (popTurn s).prand = s.prand := rfl
@[simp] theorem popTurn_refLane (s : State) : (popTurn s).refLane = s.refLane := rfl
@[simp] theorem popTurn_refIndex (s : State) : (popTurn s).refIndex = s.refIndex := rfl
@[simp] theorem popTurn_refBlk (s : State) : (popTurn s).refBlk = s.refBlk := rfl
@[simp] theorem popTurn_curBlk (s : State) : (popTurn s).curBlk = s.curBlk := rfl
@[simp] theorem popTurn_prevBlk (s : State) : (popTurn s).prevBlk = s.prevBlk := rfl
@[simp] theorem popTurn_msg (s : State) : (popTurn s).msg = s.msg := rfl
@[simp] theorem popTurn_digest (s : State) : (popTurn s).digest = s.digest := rfl
@[simp] theorem popTurn_dlen (s : State) : (popTurn s).dlen = s.dlen := rfl
@[simp] theorem popTurn_b2Outlen (s : State) : (popTurn s).b2Outlen = s.b2Outlen := rfl
@[simp] theorem popTurn_hpT (s : State) : (popTurn s).hpT = s.hpT := rfl
@[simp] theorem popTurn_ctx (s : State) : (popTurn s).ctx = s.ctx := rfl
@[simp] theorem popTurn_ag (s : State) : (popTurn s).ag = s.ag := rfl
@[simp] theorem popTurn_arena (s : State) : (popTurn s).arena = s.arena := rfl
@[simp] theorem popTurn_arenaBlocks (s : State) : (popTurn s).arenaBlocks = s.arenaBlocks := rfl
@[simp] theorem popTurn_turns (s : State) : (popTurn s).turns = s.turns.tail := rfl
@[simp] theorem popTurn_readLog (s : State) : (popTurn s).readLog = s.readLog := rfl

/-! `openCtx` -/

@[simp] theorem openCtx_cmd (nn : Nat) (key : List Byte) (s : State) : (openCtx nn key s).cmd = s.cmd := rfl
@[simp] theorem openCtx_status (nn : Nat) (key : List Byte) (s : State) : (openCtx nn key s).status = s.status := rfl
@[simp] theorem openCtx_ie (nn : Nat) (key : List Byte) (s : State) : (openCtx nn key s).ie = s.ie := rfl
@[simp] theorem openCtx_opa (nn : Nat) (key : List Byte) (s : State) : (openCtx nn key s).opa = s.opa := rfl
@[simp] theorem openCtx_opb (nn : Nat) (key : List Byte) (s : State) : (openCtx nn key s).opb = s.opb := rfl
@[simp] theorem openCtx_opc (nn : Nat) (key : List Byte) (s : State) : (openCtx nn key s).opc = s.opc := rfl
@[simp] theorem openCtx_cfgP (nn : Nat) (key : List Byte) (s : State) : (openCtx nn key s).cfgP = s.cfgP := rfl
@[simp] theorem openCtx_cfgM (nn : Nat) (key : List Byte) (s : State) : (openCtx nn key s).cfgM = s.cfgM := rfl
@[simp] theorem openCtx_cfgT (nn : Nat) (key : List Byte) (s : State) : (openCtx nn key s).cfgT = s.cfgT := rfl
@[simp] theorem openCtx_cfgY (nn : Nat) (key : List Byte) (s : State) : (openCtx nn key s).cfgY = s.cfgY := rfl
@[simp] theorem openCtx_actP (nn : Nat) (key : List Byte) (s : State) : (openCtx nn key s).actP = s.actP := rfl
@[simp] theorem openCtx_actT (nn : Nat) (key : List Byte) (s : State) : (openCtx nn key s).actT = s.actT := rfl
@[simp] theorem openCtx_actY (nn : Nat) (key : List Byte) (s : State) : (openCtx nn key s).actY = s.actY := rfl
@[simp] theorem openCtx_mprime (nn : Nat) (key : List Byte) (s : State) : (openCtx nn key s).mprime = s.mprime := rfl
@[simp] theorem openCtx_lanelen (nn : Nat) (key : List Byte) (s : State) :
    (openCtx nn key s).lanelen = s.lanelen :=
  rfl
@[simp] theorem openCtx_seglen (nn : Nat) (key : List Byte) (s : State) : (openCtx nn key s).seglen = s.seglen := rfl
@[simp] theorem openCtx_agPass (nn : Nat) (key : List Byte) (s : State) : (openCtx nn key s).agPass = s.agPass := rfl
@[simp] theorem openCtx_agSlice (nn : Nat) (key : List Byte) (s : State) :
    (openCtx nn key s).agSlice = s.agSlice :=
  rfl
@[simp] theorem openCtx_agLane (nn : Nat) (key : List Byte) (s : State) : (openCtx nn key s).agLane = s.agLane := rfl
@[simp] theorem openCtx_agIndex (nn : Nat) (key : List Byte) (s : State) :
    (openCtx nn key s).agIndex = s.agIndex :=
  rfl
@[simp] theorem openCtx_agCtr (nn : Nat) (key : List Byte) (s : State) : (openCtx nn key s).agCtr = s.agCtr := rfl
@[simp] theorem openCtx_prand (nn : Nat) (key : List Byte) (s : State) : (openCtx nn key s).prand = s.prand := rfl
@[simp] theorem openCtx_refLane (nn : Nat) (key : List Byte) (s : State) :
    (openCtx nn key s).refLane = s.refLane :=
  rfl
@[simp] theorem openCtx_refIndex (nn : Nat) (key : List Byte) (s : State) :
    (openCtx nn key s).refIndex = s.refIndex :=
  rfl
@[simp] theorem openCtx_refBlk (nn : Nat) (key : List Byte) (s : State) : (openCtx nn key s).refBlk = s.refBlk := rfl
@[simp] theorem openCtx_curBlk (nn : Nat) (key : List Byte) (s : State) : (openCtx nn key s).curBlk = s.curBlk := rfl
@[simp] theorem openCtx_prevBlk (nn : Nat) (key : List Byte) (s : State) :
    (openCtx nn key s).prevBlk = s.prevBlk :=
  rfl
@[simp] theorem openCtx_msg (nn : Nat) (key : List Byte) (s : State) : (openCtx nn key s).msg = s.msg := rfl
@[simp] theorem openCtx_digest (nn : Nat) (key : List Byte) (s : State) : (openCtx nn key s).digest = s.digest := rfl
@[simp] theorem openCtx_dlen (nn : Nat) (key : List Byte) (s : State) : (openCtx nn key s).dlen = s.dlen := rfl
@[simp] theorem openCtx_b2Outlen (nn : Nat) (key : List Byte) (s : State) :
    (openCtx nn key s).b2Outlen = BitVec.ofNat 7 nn :=
  rfl
@[simp] theorem openCtx_hpT (nn : Nat) (key : List Byte) (s : State) : (openCtx nn key s).hpT = s.hpT := rfl
@[simp] theorem openCtx_ctx (nn : Nat) (key : List Byte) (s : State) : (openCtx nn key s).ctx = ctxOpen nn key := rfl
@[simp] theorem openCtx_ag (nn : Nat) (key : List Byte) (s : State) : (openCtx nn key s).ag = s.ag := rfl
@[simp] theorem openCtx_arena (nn : Nat) (key : List Byte) (s : State) : (openCtx nn key s).arena = s.arena := rfl
@[simp] theorem openCtx_arenaBlocks (nn : Nat) (key : List Byte) (s : State) :
    (openCtx nn key s).arenaBlocks = s.arenaBlocks :=
  rfl
@[simp] theorem openCtx_turns (nn : Nat) (key : List Byte) (s : State) : (openCtx nn key s).turns = s.turns := rfl
@[simp] theorem openCtx_readLog (nn : Nat) (key : List Byte) (s : State) :
    (openCtx nn key s).readLog = s.readLog :=
  rfl

/-! `absorbCtx` -/

@[simp] theorem absorbCtx_cmd (bs : List Byte) (s : State) : (absorbCtx bs s).cmd = s.cmd := rfl
@[simp] theorem absorbCtx_status (bs : List Byte) (s : State) : (absorbCtx bs s).status = s.status := rfl
@[simp] theorem absorbCtx_ie (bs : List Byte) (s : State) : (absorbCtx bs s).ie = s.ie := rfl
@[simp] theorem absorbCtx_opa (bs : List Byte) (s : State) : (absorbCtx bs s).opa = s.opa := rfl
@[simp] theorem absorbCtx_opb (bs : List Byte) (s : State) : (absorbCtx bs s).opb = s.opb := rfl
@[simp] theorem absorbCtx_opc (bs : List Byte) (s : State) : (absorbCtx bs s).opc = s.opc := rfl
@[simp] theorem absorbCtx_cfgP (bs : List Byte) (s : State) : (absorbCtx bs s).cfgP = s.cfgP := rfl
@[simp] theorem absorbCtx_cfgM (bs : List Byte) (s : State) : (absorbCtx bs s).cfgM = s.cfgM := rfl
@[simp] theorem absorbCtx_cfgT (bs : List Byte) (s : State) : (absorbCtx bs s).cfgT = s.cfgT := rfl
@[simp] theorem absorbCtx_cfgY (bs : List Byte) (s : State) : (absorbCtx bs s).cfgY = s.cfgY := rfl
@[simp] theorem absorbCtx_actP (bs : List Byte) (s : State) : (absorbCtx bs s).actP = s.actP := rfl
@[simp] theorem absorbCtx_actT (bs : List Byte) (s : State) : (absorbCtx bs s).actT = s.actT := rfl
@[simp] theorem absorbCtx_actY (bs : List Byte) (s : State) : (absorbCtx bs s).actY = s.actY := rfl
@[simp] theorem absorbCtx_mprime (bs : List Byte) (s : State) : (absorbCtx bs s).mprime = s.mprime := rfl
@[simp] theorem absorbCtx_lanelen (bs : List Byte) (s : State) : (absorbCtx bs s).lanelen = s.lanelen := rfl
@[simp] theorem absorbCtx_seglen (bs : List Byte) (s : State) : (absorbCtx bs s).seglen = s.seglen := rfl
@[simp] theorem absorbCtx_agPass (bs : List Byte) (s : State) : (absorbCtx bs s).agPass = s.agPass := rfl
@[simp] theorem absorbCtx_agSlice (bs : List Byte) (s : State) : (absorbCtx bs s).agSlice = s.agSlice := rfl
@[simp] theorem absorbCtx_agLane (bs : List Byte) (s : State) : (absorbCtx bs s).agLane = s.agLane := rfl
@[simp] theorem absorbCtx_agIndex (bs : List Byte) (s : State) : (absorbCtx bs s).agIndex = s.agIndex := rfl
@[simp] theorem absorbCtx_agCtr (bs : List Byte) (s : State) : (absorbCtx bs s).agCtr = s.agCtr := rfl
@[simp] theorem absorbCtx_prand (bs : List Byte) (s : State) : (absorbCtx bs s).prand = s.prand := rfl
@[simp] theorem absorbCtx_refLane (bs : List Byte) (s : State) : (absorbCtx bs s).refLane = s.refLane := rfl
@[simp] theorem absorbCtx_refIndex (bs : List Byte) (s : State) : (absorbCtx bs s).refIndex = s.refIndex := rfl
@[simp] theorem absorbCtx_refBlk (bs : List Byte) (s : State) : (absorbCtx bs s).refBlk = s.refBlk := rfl
@[simp] theorem absorbCtx_curBlk (bs : List Byte) (s : State) : (absorbCtx bs s).curBlk = s.curBlk := rfl
@[simp] theorem absorbCtx_prevBlk (bs : List Byte) (s : State) : (absorbCtx bs s).prevBlk = s.prevBlk := rfl
@[simp] theorem absorbCtx_msg (bs : List Byte) (s : State) : (absorbCtx bs s).msg = s.msg := rfl
@[simp] theorem absorbCtx_digest (bs : List Byte) (s : State) : (absorbCtx bs s).digest = s.digest := rfl
@[simp] theorem absorbCtx_dlen (bs : List Byte) (s : State) : (absorbCtx bs s).dlen = s.dlen := rfl
@[simp] theorem absorbCtx_b2Outlen (bs : List Byte) (s : State) : (absorbCtx bs s).b2Outlen = s.b2Outlen := rfl
@[simp] theorem absorbCtx_hpT (bs : List Byte) (s : State) : (absorbCtx bs s).hpT = s.hpT := rfl
@[simp] theorem absorbCtx_ctx (bs : List Byte) (s : State) : (absorbCtx bs s).ctx = ctxAbsorb s.ctx bs := rfl
@[simp] theorem absorbCtx_ag (bs : List Byte) (s : State) : (absorbCtx bs s).ag = s.ag := rfl
@[simp] theorem absorbCtx_arena (bs : List Byte) (s : State) : (absorbCtx bs s).arena = s.arena := rfl
@[simp] theorem absorbCtx_arenaBlocks (bs : List Byte) (s : State) :
    (absorbCtx bs s).arenaBlocks = s.arenaBlocks :=
  rfl
@[simp] theorem absorbCtx_turns (bs : List Byte) (s : State) : (absorbCtx bs s).turns = s.turns := rfl
@[simp] theorem absorbCtx_readLog (bs : List Byte) (s : State) : (absorbCtx bs s).readLog = s.readLog := rfl

/-! `wipeCtx` -/

@[simp] theorem wipeCtx_cmd (s : State) : (wipeCtx s).cmd = s.cmd := rfl
@[simp] theorem wipeCtx_busy (s : State) : (wipeCtx s).status.busy = s.status.busy := rfl
@[simp] theorem wipeCtx_done (s : State) : (wipeCtx s).status.done = s.status.done := rfl
@[simp] theorem wipeCtx_err (s : State) : (wipeCtx s).status.err = s.status.err := rfl
@[simp] theorem wipeCtx_errCode (s : State) : (wipeCtx s).status.errCode = s.status.errCode := rfl
@[simp] theorem wipeCtx_cfgv (s : State) : (wipeCtx s).status.cfgv = s.status.cfgv := rfl
@[simp] theorem wipeCtx_b2mode (s : State) : (wipeCtx s).status.b2mode = .idle := rfl
@[simp] theorem wipeCtx_agact (s : State) : (wipeCtx s).status.agact = s.status.agact := rfl
@[simp] theorem wipeCtx_agind (s : State) : (wipeCtx s).status.agind = s.status.agind := rfl
@[simp] theorem wipeCtx_ie (s : State) : (wipeCtx s).ie = s.ie := rfl
@[simp] theorem wipeCtx_opa (s : State) : (wipeCtx s).opa = s.opa := rfl
@[simp] theorem wipeCtx_opb (s : State) : (wipeCtx s).opb = s.opb := rfl
@[simp] theorem wipeCtx_opc (s : State) : (wipeCtx s).opc = s.opc := rfl
@[simp] theorem wipeCtx_cfgP (s : State) : (wipeCtx s).cfgP = s.cfgP := rfl
@[simp] theorem wipeCtx_cfgM (s : State) : (wipeCtx s).cfgM = s.cfgM := rfl
@[simp] theorem wipeCtx_cfgT (s : State) : (wipeCtx s).cfgT = s.cfgT := rfl
@[simp] theorem wipeCtx_cfgY (s : State) : (wipeCtx s).cfgY = s.cfgY := rfl
@[simp] theorem wipeCtx_actP (s : State) : (wipeCtx s).actP = s.actP := rfl
@[simp] theorem wipeCtx_actT (s : State) : (wipeCtx s).actT = s.actT := rfl
@[simp] theorem wipeCtx_actY (s : State) : (wipeCtx s).actY = s.actY := rfl
@[simp] theorem wipeCtx_mprime (s : State) : (wipeCtx s).mprime = s.mprime := rfl
@[simp] theorem wipeCtx_lanelen (s : State) : (wipeCtx s).lanelen = s.lanelen := rfl
@[simp] theorem wipeCtx_seglen (s : State) : (wipeCtx s).seglen = s.seglen := rfl
@[simp] theorem wipeCtx_agPass (s : State) : (wipeCtx s).agPass = s.agPass := rfl
@[simp] theorem wipeCtx_agSlice (s : State) : (wipeCtx s).agSlice = s.agSlice := rfl
@[simp] theorem wipeCtx_agLane (s : State) : (wipeCtx s).agLane = s.agLane := rfl
@[simp] theorem wipeCtx_agIndex (s : State) : (wipeCtx s).agIndex = s.agIndex := rfl
@[simp] theorem wipeCtx_agCtr (s : State) : (wipeCtx s).agCtr = s.agCtr := rfl
@[simp] theorem wipeCtx_prand (s : State) : (wipeCtx s).prand = s.prand := rfl
@[simp] theorem wipeCtx_refLane (s : State) : (wipeCtx s).refLane = s.refLane := rfl
@[simp] theorem wipeCtx_refIndex (s : State) : (wipeCtx s).refIndex = s.refIndex := rfl
@[simp] theorem wipeCtx_refBlk (s : State) : (wipeCtx s).refBlk = s.refBlk := rfl
@[simp] theorem wipeCtx_curBlk (s : State) : (wipeCtx s).curBlk = s.curBlk := rfl
@[simp] theorem wipeCtx_prevBlk (s : State) : (wipeCtx s).prevBlk = s.prevBlk := rfl
@[simp] theorem wipeCtx_msg (s : State) : (wipeCtx s).msg = s.msg := rfl
@[simp] theorem wipeCtx_digest (s : State) : (wipeCtx s).digest = s.digest := rfl
@[simp] theorem wipeCtx_dlen (s : State) : (wipeCtx s).dlen = s.dlen := rfl
@[simp] theorem wipeCtx_b2Outlen (s : State) : (wipeCtx s).b2Outlen = 0 := rfl
@[simp] theorem wipeCtx_hpT (s : State) : (wipeCtx s).hpT = 0 := rfl
@[simp] theorem wipeCtx_ctx (s : State) : (wipeCtx s).ctx = Ctx.zero := rfl
@[simp] theorem wipeCtx_ag (s : State) : (wipeCtx s).ag = s.ag := rfl
@[simp] theorem wipeCtx_arena (s : State) : (wipeCtx s).arena = s.arena := rfl
@[simp] theorem wipeCtx_arenaBlocks (s : State) : (wipeCtx s).arenaBlocks = s.arenaBlocks := rfl
@[simp] theorem wipeCtx_turns (s : State) : (wipeCtx s).turns = s.turns := rfl
@[simp] theorem wipeCtx_readLog (s : State) : (wipeCtx s).readLog = s.readLog := rfl

/-! `writeDigest` -/

@[simp] theorem writeDigest_cmd (nn : Nat) (d : List Byte) (s : State) : (writeDigest nn d s).cmd = s.cmd := rfl
@[simp] theorem writeDigest_status (nn : Nat) (d : List Byte) (s : State) :
    (writeDigest nn d s).status = s.status :=
  rfl
@[simp] theorem writeDigest_ie (nn : Nat) (d : List Byte) (s : State) : (writeDigest nn d s).ie = s.ie := rfl
@[simp] theorem writeDigest_opa (nn : Nat) (d : List Byte) (s : State) : (writeDigest nn d s).opa = s.opa := rfl
@[simp] theorem writeDigest_opb (nn : Nat) (d : List Byte) (s : State) : (writeDigest nn d s).opb = s.opb := rfl
@[simp] theorem writeDigest_opc (nn : Nat) (d : List Byte) (s : State) : (writeDigest nn d s).opc = s.opc := rfl
@[simp] theorem writeDigest_cfgP (nn : Nat) (d : List Byte) (s : State) : (writeDigest nn d s).cfgP = s.cfgP := rfl
@[simp] theorem writeDigest_cfgM (nn : Nat) (d : List Byte) (s : State) : (writeDigest nn d s).cfgM = s.cfgM := rfl
@[simp] theorem writeDigest_cfgT (nn : Nat) (d : List Byte) (s : State) : (writeDigest nn d s).cfgT = s.cfgT := rfl
@[simp] theorem writeDigest_cfgY (nn : Nat) (d : List Byte) (s : State) : (writeDigest nn d s).cfgY = s.cfgY := rfl
@[simp] theorem writeDigest_actP (nn : Nat) (d : List Byte) (s : State) : (writeDigest nn d s).actP = s.actP := rfl
@[simp] theorem writeDigest_actT (nn : Nat) (d : List Byte) (s : State) : (writeDigest nn d s).actT = s.actT := rfl
@[simp] theorem writeDigest_actY (nn : Nat) (d : List Byte) (s : State) : (writeDigest nn d s).actY = s.actY := rfl
@[simp] theorem writeDigest_mprime (nn : Nat) (d : List Byte) (s : State) :
    (writeDigest nn d s).mprime = s.mprime :=
  rfl
@[simp] theorem writeDigest_lanelen (nn : Nat) (d : List Byte) (s : State) :
    (writeDigest nn d s).lanelen = s.lanelen :=
  rfl
@[simp] theorem writeDigest_seglen (nn : Nat) (d : List Byte) (s : State) :
    (writeDigest nn d s).seglen = s.seglen :=
  rfl
@[simp] theorem writeDigest_agPass (nn : Nat) (d : List Byte) (s : State) :
    (writeDigest nn d s).agPass = s.agPass :=
  rfl
@[simp] theorem writeDigest_agSlice (nn : Nat) (d : List Byte) (s : State) :
    (writeDigest nn d s).agSlice = s.agSlice :=
  rfl
@[simp] theorem writeDigest_agLane (nn : Nat) (d : List Byte) (s : State) :
    (writeDigest nn d s).agLane = s.agLane :=
  rfl
@[simp] theorem writeDigest_agIndex (nn : Nat) (d : List Byte) (s : State) :
    (writeDigest nn d s).agIndex = s.agIndex :=
  rfl
@[simp] theorem writeDigest_agCtr (nn : Nat) (d : List Byte) (s : State) : (writeDigest nn d s).agCtr = s.agCtr := rfl
@[simp] theorem writeDigest_prand (nn : Nat) (d : List Byte) (s : State) : (writeDigest nn d s).prand = s.prand := rfl
@[simp] theorem writeDigest_refLane (nn : Nat) (d : List Byte) (s : State) :
    (writeDigest nn d s).refLane = s.refLane :=
  rfl
@[simp] theorem writeDigest_refIndex (nn : Nat) (d : List Byte) (s : State) :
    (writeDigest nn d s).refIndex = s.refIndex :=
  rfl
@[simp] theorem writeDigest_refBlk (nn : Nat) (d : List Byte) (s : State) :
    (writeDigest nn d s).refBlk = s.refBlk :=
  rfl
@[simp] theorem writeDigest_curBlk (nn : Nat) (d : List Byte) (s : State) :
    (writeDigest nn d s).curBlk = s.curBlk :=
  rfl
@[simp] theorem writeDigest_prevBlk (nn : Nat) (d : List Byte) (s : State) :
    (writeDigest nn d s).prevBlk = s.prevBlk :=
  rfl
@[simp] theorem writeDigest_msg (nn : Nat) (d : List Byte) (s : State) : (writeDigest nn d s).msg = s.msg := rfl
@[simp] theorem writeDigest_digest (nn : Nat) (d : List Byte) (s : State) :
    (writeDigest nn d s).digest = bytesWords 8 (d ++ zeroBytes (64 - nn)) :=
  rfl
@[simp] theorem writeDigest_dlen (nn : Nat) (d : List Byte) (s : State) :
    (writeDigest nn d s).dlen = BitVec.ofNat 7 nn :=
  rfl
@[simp] theorem writeDigest_b2Outlen (nn : Nat) (d : List Byte) (s : State) :
    (writeDigest nn d s).b2Outlen = s.b2Outlen :=
  rfl
@[simp] theorem writeDigest_hpT (nn : Nat) (d : List Byte) (s : State) : (writeDigest nn d s).hpT = s.hpT := rfl
@[simp] theorem writeDigest_ctx (nn : Nat) (d : List Byte) (s : State) : (writeDigest nn d s).ctx = s.ctx := rfl
@[simp] theorem writeDigest_ag (nn : Nat) (d : List Byte) (s : State) : (writeDigest nn d s).ag = s.ag := rfl
@[simp] theorem writeDigest_arena (nn : Nat) (d : List Byte) (s : State) : (writeDigest nn d s).arena = s.arena := rfl
@[simp] theorem writeDigest_arenaBlocks (nn : Nat) (d : List Byte) (s : State) :
    (writeDigest nn d s).arenaBlocks = s.arenaBlocks :=
  rfl
@[simp] theorem writeDigest_turns (nn : Nat) (d : List Byte) (s : State) : (writeDigest nn d s).turns = s.turns := rfl
@[simp] theorem writeDigest_readLog (nn : Nat) (d : List Byte) (s : State) :
    (writeDigest nn d s).readLog = s.readLog :=
  rfl

/-! `scrubRegs` -/

@[simp] theorem scrubRegs_cmd (s : State) : (scrubRegs s).cmd = s.cmd := rfl
@[simp] theorem scrubRegs_status (s : State) : (scrubRegs s).status = s.status := rfl
@[simp] theorem scrubRegs_ie (s : State) : (scrubRegs s).ie = s.ie := rfl
@[simp] theorem scrubRegs_opa (s : State) : (scrubRegs s).opa = s.opa := rfl
@[simp] theorem scrubRegs_opb (s : State) : (scrubRegs s).opb = s.opb := rfl
@[simp] theorem scrubRegs_opc (s : State) : (scrubRegs s).opc = s.opc := rfl
@[simp] theorem scrubRegs_cfgP (s : State) : (scrubRegs s).cfgP = s.cfgP := rfl
@[simp] theorem scrubRegs_cfgM (s : State) : (scrubRegs s).cfgM = s.cfgM := rfl
@[simp] theorem scrubRegs_cfgT (s : State) : (scrubRegs s).cfgT = s.cfgT := rfl
@[simp] theorem scrubRegs_cfgY (s : State) : (scrubRegs s).cfgY = s.cfgY := rfl
@[simp] theorem scrubRegs_actP (s : State) : (scrubRegs s).actP = s.actP := rfl
@[simp] theorem scrubRegs_actT (s : State) : (scrubRegs s).actT = s.actT := rfl
@[simp] theorem scrubRegs_actY (s : State) : (scrubRegs s).actY = s.actY := rfl
@[simp] theorem scrubRegs_mprime (s : State) : (scrubRegs s).mprime = s.mprime := rfl
@[simp] theorem scrubRegs_lanelen (s : State) : (scrubRegs s).lanelen = s.lanelen := rfl
@[simp] theorem scrubRegs_seglen (s : State) : (scrubRegs s).seglen = s.seglen := rfl
@[simp] theorem scrubRegs_agPass (s : State) : (scrubRegs s).agPass = s.agPass := rfl
@[simp] theorem scrubRegs_agSlice (s : State) : (scrubRegs s).agSlice = s.agSlice := rfl
@[simp] theorem scrubRegs_agLane (s : State) : (scrubRegs s).agLane = s.agLane := rfl
@[simp] theorem scrubRegs_agIndex (s : State) : (scrubRegs s).agIndex = s.agIndex := rfl
@[simp] theorem scrubRegs_agCtr (s : State) : (scrubRegs s).agCtr = s.agCtr := rfl
@[simp] theorem scrubRegs_prand (s : State) : (scrubRegs s).prand = s.prand := rfl
@[simp] theorem scrubRegs_refLane (s : State) : (scrubRegs s).refLane = s.refLane := rfl
@[simp] theorem scrubRegs_refIndex (s : State) : (scrubRegs s).refIndex = s.refIndex := rfl
@[simp] theorem scrubRegs_refBlk (s : State) : (scrubRegs s).refBlk = s.refBlk := rfl
@[simp] theorem scrubRegs_curBlk (s : State) : (scrubRegs s).curBlk = s.curBlk := rfl
@[simp] theorem scrubRegs_prevBlk (s : State) : (scrubRegs s).prevBlk = s.prevBlk := rfl
@[simp] theorem scrubRegs_msg (s : State) : (scrubRegs s).msg = Vector.replicate 16 0#64 := rfl
@[simp] theorem scrubRegs_digest (s : State) : (scrubRegs s).digest = Vector.replicate 8 0#64 := rfl
@[simp] theorem scrubRegs_dlen (s : State) : (scrubRegs s).dlen = 0 := rfl
@[simp] theorem scrubRegs_b2Outlen (s : State) : (scrubRegs s).b2Outlen = s.b2Outlen := rfl
@[simp] theorem scrubRegs_hpT (s : State) : (scrubRegs s).hpT = s.hpT := rfl
@[simp] theorem scrubRegs_ctx (s : State) : (scrubRegs s).ctx = s.ctx := rfl
@[simp] theorem scrubRegs_ag (s : State) : (scrubRegs s).ag = s.ag := rfl
@[simp] theorem scrubRegs_arena (s : State) : (scrubRegs s).arena = s.arena := rfl
@[simp] theorem scrubRegs_arenaBlocks (s : State) : (scrubRegs s).arenaBlocks = s.arenaBlocks := rfl
@[simp] theorem scrubRegs_turns (s : State) : (scrubRegs s).turns = s.turns := rfl
@[simp] theorem scrubRegs_readLog (s : State) : (scrubRegs s).readLog = s.readLog := rfl

/-! `wipeAddrGen` -/

@[simp] theorem wipeAddrGen_cmd (s : State) : (wipeAddrGen s).cmd = s.cmd := rfl
@[simp] theorem wipeAddrGen_busy (s : State) : (wipeAddrGen s).status.busy = s.status.busy := rfl
@[simp] theorem wipeAddrGen_done (s : State) : (wipeAddrGen s).status.done = s.status.done := rfl
@[simp] theorem wipeAddrGen_err (s : State) : (wipeAddrGen s).status.err = s.status.err := rfl
@[simp] theorem wipeAddrGen_errCode (s : State) : (wipeAddrGen s).status.errCode = s.status.errCode := rfl
@[simp] theorem wipeAddrGen_cfgv (s : State) : (wipeAddrGen s).status.cfgv = s.status.cfgv := rfl
@[simp] theorem wipeAddrGen_b2mode (s : State) : (wipeAddrGen s).status.b2mode = s.status.b2mode := rfl
@[simp] theorem wipeAddrGen_agact (s : State) : (wipeAddrGen s).status.agact = false := rfl
@[simp] theorem wipeAddrGen_agind (s : State) : (wipeAddrGen s).status.agind = false := rfl
@[simp] theorem wipeAddrGen_ie (s : State) : (wipeAddrGen s).ie = s.ie := rfl
@[simp] theorem wipeAddrGen_opa (s : State) : (wipeAddrGen s).opa = s.opa := rfl
@[simp] theorem wipeAddrGen_opb (s : State) : (wipeAddrGen s).opb = s.opb := rfl
@[simp] theorem wipeAddrGen_opc (s : State) : (wipeAddrGen s).opc = s.opc := rfl
@[simp] theorem wipeAddrGen_cfgP (s : State) : (wipeAddrGen s).cfgP = s.cfgP := rfl
@[simp] theorem wipeAddrGen_cfgM (s : State) : (wipeAddrGen s).cfgM = s.cfgM := rfl
@[simp] theorem wipeAddrGen_cfgT (s : State) : (wipeAddrGen s).cfgT = s.cfgT := rfl
@[simp] theorem wipeAddrGen_cfgY (s : State) : (wipeAddrGen s).cfgY = s.cfgY := rfl
@[simp] theorem wipeAddrGen_actP (s : State) : (wipeAddrGen s).actP = s.actP := rfl
@[simp] theorem wipeAddrGen_actT (s : State) : (wipeAddrGen s).actT = s.actT := rfl
@[simp] theorem wipeAddrGen_actY (s : State) : (wipeAddrGen s).actY = s.actY := rfl
@[simp] theorem wipeAddrGen_mprime (s : State) : (wipeAddrGen s).mprime = s.mprime := rfl
@[simp] theorem wipeAddrGen_lanelen (s : State) : (wipeAddrGen s).lanelen = s.lanelen := rfl
@[simp] theorem wipeAddrGen_seglen (s : State) : (wipeAddrGen s).seglen = s.seglen := rfl
@[simp] theorem wipeAddrGen_agPass (s : State) : (wipeAddrGen s).agPass = 0 := rfl
@[simp] theorem wipeAddrGen_agSlice (s : State) : (wipeAddrGen s).agSlice = 0 := rfl
@[simp] theorem wipeAddrGen_agLane (s : State) : (wipeAddrGen s).agLane = 0 := rfl
@[simp] theorem wipeAddrGen_agIndex (s : State) : (wipeAddrGen s).agIndex = 0 := rfl
@[simp] theorem wipeAddrGen_agCtr (s : State) : (wipeAddrGen s).agCtr = 0 := rfl
@[simp] theorem wipeAddrGen_prand (s : State) : (wipeAddrGen s).prand = 0 := rfl
@[simp] theorem wipeAddrGen_refLane (s : State) : (wipeAddrGen s).refLane = 0 := rfl
@[simp] theorem wipeAddrGen_refIndex (s : State) : (wipeAddrGen s).refIndex = 0 := rfl
@[simp] theorem wipeAddrGen_refBlk (s : State) : (wipeAddrGen s).refBlk = 0 := rfl
@[simp] theorem wipeAddrGen_curBlk (s : State) : (wipeAddrGen s).curBlk = 0 := rfl
@[simp] theorem wipeAddrGen_prevBlk (s : State) : (wipeAddrGen s).prevBlk = 0 := rfl
@[simp] theorem wipeAddrGen_msg (s : State) : (wipeAddrGen s).msg = s.msg := rfl
@[simp] theorem wipeAddrGen_digest (s : State) : (wipeAddrGen s).digest = s.digest := rfl
@[simp] theorem wipeAddrGen_dlen (s : State) : (wipeAddrGen s).dlen = s.dlen := rfl
@[simp] theorem wipeAddrGen_b2Outlen (s : State) : (wipeAddrGen s).b2Outlen = s.b2Outlen := rfl
@[simp] theorem wipeAddrGen_hpT (s : State) : (wipeAddrGen s).hpT = s.hpT := rfl
@[simp] theorem wipeAddrGen_ctx (s : State) : (wipeAddrGen s).ctx = s.ctx := rfl
@[simp] theorem wipeAddrGen_ag (s : State) : (wipeAddrGen s).ag = AddrGen.zero := rfl
@[simp] theorem wipeAddrGen_arena (s : State) : (wipeAddrGen s).arena = s.arena := rfl
@[simp] theorem wipeAddrGen_arenaBlocks (s : State) : (wipeAddrGen s).arenaBlocks = s.arenaBlocks := rfl
@[simp] theorem wipeAddrGen_turns (s : State) : (wipeAddrGen s).turns = s.turns := rfl
@[simp] theorem wipeAddrGen_readLog (s : State) : (wipeAddrGen s).readLog = s.readLog := rfl

/-! `wipeArena` -/

@[simp] theorem wipeArena_cmd (s : State) : (wipeArena s).cmd = s.cmd := rfl
@[simp] theorem wipeArena_status (s : State) : (wipeArena s).status = s.status := rfl
@[simp] theorem wipeArena_ie (s : State) : (wipeArena s).ie = s.ie := rfl
@[simp] theorem wipeArena_opa (s : State) : (wipeArena s).opa = s.opa := rfl
@[simp] theorem wipeArena_opb (s : State) : (wipeArena s).opb = s.opb := rfl
@[simp] theorem wipeArena_opc (s : State) : (wipeArena s).opc = s.opc := rfl
@[simp] theorem wipeArena_cfgP (s : State) : (wipeArena s).cfgP = s.cfgP := rfl
@[simp] theorem wipeArena_cfgM (s : State) : (wipeArena s).cfgM = s.cfgM := rfl
@[simp] theorem wipeArena_cfgT (s : State) : (wipeArena s).cfgT = s.cfgT := rfl
@[simp] theorem wipeArena_cfgY (s : State) : (wipeArena s).cfgY = s.cfgY := rfl
@[simp] theorem wipeArena_actP (s : State) : (wipeArena s).actP = s.actP := rfl
@[simp] theorem wipeArena_actT (s : State) : (wipeArena s).actT = s.actT := rfl
@[simp] theorem wipeArena_actY (s : State) : (wipeArena s).actY = s.actY := rfl
@[simp] theorem wipeArena_mprime (s : State) : (wipeArena s).mprime = s.mprime := rfl
@[simp] theorem wipeArena_lanelen (s : State) : (wipeArena s).lanelen = s.lanelen := rfl
@[simp] theorem wipeArena_seglen (s : State) : (wipeArena s).seglen = s.seglen := rfl
@[simp] theorem wipeArena_agPass (s : State) : (wipeArena s).agPass = s.agPass := rfl
@[simp] theorem wipeArena_agSlice (s : State) : (wipeArena s).agSlice = s.agSlice := rfl
@[simp] theorem wipeArena_agLane (s : State) : (wipeArena s).agLane = s.agLane := rfl
@[simp] theorem wipeArena_agIndex (s : State) : (wipeArena s).agIndex = s.agIndex := rfl
@[simp] theorem wipeArena_agCtr (s : State) : (wipeArena s).agCtr = s.agCtr := rfl
@[simp] theorem wipeArena_prand (s : State) : (wipeArena s).prand = s.prand := rfl
@[simp] theorem wipeArena_refLane (s : State) : (wipeArena s).refLane = s.refLane := rfl
@[simp] theorem wipeArena_refIndex (s : State) : (wipeArena s).refIndex = s.refIndex := rfl
@[simp] theorem wipeArena_refBlk (s : State) : (wipeArena s).refBlk = s.refBlk := rfl
@[simp] theorem wipeArena_curBlk (s : State) : (wipeArena s).curBlk = s.curBlk := rfl
@[simp] theorem wipeArena_prevBlk (s : State) : (wipeArena s).prevBlk = s.prevBlk := rfl
@[simp] theorem wipeArena_msg (s : State) : (wipeArena s).msg = s.msg := rfl
@[simp] theorem wipeArena_digest (s : State) : (wipeArena s).digest = s.digest := rfl
@[simp] theorem wipeArena_dlen (s : State) : (wipeArena s).dlen = s.dlen := rfl
@[simp] theorem wipeArena_b2Outlen (s : State) : (wipeArena s).b2Outlen = s.b2Outlen := rfl
@[simp] theorem wipeArena_hpT (s : State) : (wipeArena s).hpT = s.hpT := rfl
@[simp] theorem wipeArena_ctx (s : State) : (wipeArena s).ctx = s.ctx := rfl
@[simp] theorem wipeArena_ag (s : State) : (wipeArena s).ag = s.ag := rfl
@[simp] theorem wipeArena_arena (s : State) :
    (wipeArena s).arena = s.arena.filter fun c => decide (arenaBytes s ≤ c.1) :=
  rfl
@[simp] theorem wipeArena_arenaBlocks (s : State) : (wipeArena s).arenaBlocks = s.arenaBlocks := rfl
@[simp] theorem wipeArena_turns (s : State) : (wipeArena s).turns = s.turns := rfl
@[simp] theorem wipeArena_readLog (s : State) : (wipeArena s).readLog = s.readLog := rfl

/-! `latchConfig` -/

@[simp] theorem latchConfig_cmd (p t : BitVec 32) (y : BitVec 2) (mp : Nat) (s : State) :
    (latchConfig p t y mp s).cmd = s.cmd :=
  rfl
@[simp] theorem latchConfig_busy (p t : BitVec 32) (y : BitVec 2) (mp : Nat) (s : State) :
    (latchConfig p t y mp s).status.busy = s.status.busy :=
  rfl
@[simp] theorem latchConfig_done (p t : BitVec 32) (y : BitVec 2) (mp : Nat) (s : State) :
    (latchConfig p t y mp s).status.done = s.status.done :=
  rfl
@[simp] theorem latchConfig_err (p t : BitVec 32) (y : BitVec 2) (mp : Nat) (s : State) :
    (latchConfig p t y mp s).status.err = s.status.err :=
  rfl
@[simp] theorem latchConfig_errCode (p t : BitVec 32) (y : BitVec 2) (mp : Nat) (s : State) :
    (latchConfig p t y mp s).status.errCode = s.status.errCode :=
  rfl
@[simp] theorem latchConfig_cfgv (p t : BitVec 32) (y : BitVec 2) (mp : Nat) (s : State) :
    (latchConfig p t y mp s).status.cfgv = true :=
  rfl
@[simp] theorem latchConfig_b2mode (p t : BitVec 32) (y : BitVec 2) (mp : Nat) (s : State) :
    (latchConfig p t y mp s).status.b2mode = s.status.b2mode :=
  rfl
@[simp] theorem latchConfig_agact (p t : BitVec 32) (y : BitVec 2) (mp : Nat) (s : State) :
    (latchConfig p t y mp s).status.agact = false :=
  rfl
@[simp] theorem latchConfig_agind (p t : BitVec 32) (y : BitVec 2) (mp : Nat) (s : State) :
    (latchConfig p t y mp s).status.agind = false :=
  rfl
@[simp] theorem latchConfig_ie (p t : BitVec 32) (y : BitVec 2) (mp : Nat) (s : State) :
    (latchConfig p t y mp s).ie = s.ie :=
  rfl
@[simp] theorem latchConfig_opa (p t : BitVec 32) (y : BitVec 2) (mp : Nat) (s : State) :
    (latchConfig p t y mp s).opa = s.opa :=
  rfl
@[simp] theorem latchConfig_opb (p t : BitVec 32) (y : BitVec 2) (mp : Nat) (s : State) :
    (latchConfig p t y mp s).opb = s.opb :=
  rfl
@[simp] theorem latchConfig_opc (p t : BitVec 32) (y : BitVec 2) (mp : Nat) (s : State) :
    (latchConfig p t y mp s).opc = s.opc :=
  rfl
@[simp] theorem latchConfig_cfgP (p t : BitVec 32) (y : BitVec 2) (mp : Nat) (s : State) :
    (latchConfig p t y mp s).cfgP = s.cfgP :=
  rfl
@[simp] theorem latchConfig_cfgM (p t : BitVec 32) (y : BitVec 2) (mp : Nat) (s : State) :
    (latchConfig p t y mp s).cfgM = s.cfgM :=
  rfl
@[simp] theorem latchConfig_cfgT (p t : BitVec 32) (y : BitVec 2) (mp : Nat) (s : State) :
    (latchConfig p t y mp s).cfgT = s.cfgT :=
  rfl
@[simp] theorem latchConfig_cfgY (p t : BitVec 32) (y : BitVec 2) (mp : Nat) (s : State) :
    (latchConfig p t y mp s).cfgY = s.cfgY :=
  rfl
@[simp] theorem latchConfig_actP (p t : BitVec 32) (y : BitVec 2) (mp : Nat) (s : State) :
    (latchConfig p t y mp s).actP = p :=
  rfl
@[simp] theorem latchConfig_actT (p t : BitVec 32) (y : BitVec 2) (mp : Nat) (s : State) :
    (latchConfig p t y mp s).actT = t :=
  rfl
@[simp] theorem latchConfig_actY (p t : BitVec 32) (y : BitVec 2) (mp : Nat) (s : State) :
    (latchConfig p t y mp s).actY = y :=
  rfl
@[simp] theorem latchConfig_mprime (p t : BitVec 32) (y : BitVec 2) (mp : Nat) (s : State) :
    (latchConfig p t y mp s).mprime = BitVec.ofNat 32 mp :=
  rfl
@[simp] theorem latchConfig_lanelen (p t : BitVec 32) (y : BitVec 2) (mp : Nat) (s : State) :
    (latchConfig p t y mp s).lanelen = BitVec.ofNat 32 (mp / p.toNat) :=
  rfl
@[simp] theorem latchConfig_seglen (p t : BitVec 32) (y : BitVec 2) (mp : Nat) (s : State) :
    (latchConfig p t y mp s).seglen = BitVec.ofNat 32 (mp / (4 * p.toNat)) :=
  rfl
@[simp] theorem latchConfig_agPass (p t : BitVec 32) (y : BitVec 2) (mp : Nat) (s : State) :
    (latchConfig p t y mp s).agPass = s.agPass :=
  rfl
@[simp] theorem latchConfig_agSlice (p t : BitVec 32) (y : BitVec 2) (mp : Nat) (s : State) :
    (latchConfig p t y mp s).agSlice = s.agSlice :=
  rfl
@[simp] theorem latchConfig_agLane (p t : BitVec 32) (y : BitVec 2) (mp : Nat) (s : State) :
    (latchConfig p t y mp s).agLane = s.agLane :=
  rfl
@[simp] theorem latchConfig_agIndex (p t : BitVec 32) (y : BitVec 2) (mp : Nat) (s : State) :
    (latchConfig p t y mp s).agIndex = s.agIndex :=
  rfl
@[simp] theorem latchConfig_agCtr (p t : BitVec 32) (y : BitVec 2) (mp : Nat) (s : State) :
    (latchConfig p t y mp s).agCtr = s.agCtr :=
  rfl
@[simp] theorem latchConfig_prand (p t : BitVec 32) (y : BitVec 2) (mp : Nat) (s : State) :
    (latchConfig p t y mp s).prand = s.prand :=
  rfl
@[simp] theorem latchConfig_refLane (p t : BitVec 32) (y : BitVec 2) (mp : Nat) (s : State) :
    (latchConfig p t y mp s).refLane = s.refLane :=
  rfl
@[simp] theorem latchConfig_refIndex (p t : BitVec 32) (y : BitVec 2) (mp : Nat) (s : State) :
    (latchConfig p t y mp s).refIndex = s.refIndex :=
  rfl
@[simp] theorem latchConfig_refBlk (p t : BitVec 32) (y : BitVec 2) (mp : Nat) (s : State) :
    (latchConfig p t y mp s).refBlk = s.refBlk :=
  rfl
@[simp] theorem latchConfig_curBlk (p t : BitVec 32) (y : BitVec 2) (mp : Nat) (s : State) :
    (latchConfig p t y mp s).curBlk = s.curBlk :=
  rfl
@[simp] theorem latchConfig_prevBlk (p t : BitVec 32) (y : BitVec 2) (mp : Nat) (s : State) :
    (latchConfig p t y mp s).prevBlk = s.prevBlk :=
  rfl
@[simp] theorem latchConfig_msg (p t : BitVec 32) (y : BitVec 2) (mp : Nat) (s : State) :
    (latchConfig p t y mp s).msg = s.msg :=
  rfl
@[simp] theorem latchConfig_digest (p t : BitVec 32) (y : BitVec 2) (mp : Nat) (s : State) :
    (latchConfig p t y mp s).digest = s.digest :=
  rfl
@[simp] theorem latchConfig_dlen (p t : BitVec 32) (y : BitVec 2) (mp : Nat) (s : State) :
    (latchConfig p t y mp s).dlen = s.dlen :=
  rfl
@[simp] theorem latchConfig_b2Outlen (p t : BitVec 32) (y : BitVec 2) (mp : Nat) (s : State) :
    (latchConfig p t y mp s).b2Outlen = s.b2Outlen :=
  rfl
@[simp] theorem latchConfig_hpT (p t : BitVec 32) (y : BitVec 2) (mp : Nat) (s : State) :
    (latchConfig p t y mp s).hpT = s.hpT :=
  rfl
@[simp] theorem latchConfig_ctx (p t : BitVec 32) (y : BitVec 2) (mp : Nat) (s : State) :
    (latchConfig p t y mp s).ctx = s.ctx :=
  rfl
@[simp] theorem latchConfig_ag (p t : BitVec 32) (y : BitVec 2) (mp : Nat) (s : State) :
    (latchConfig p t y mp s).ag = s.ag :=
  rfl
@[simp] theorem latchConfig_arena (p t : BitVec 32) (y : BitVec 2) (mp : Nat) (s : State) :
    (latchConfig p t y mp s).arena = s.arena :=
  rfl
@[simp] theorem latchConfig_arenaBlocks (p t : BitVec 32) (y : BitVec 2) (mp : Nat) (s : State) :
    (latchConfig p t y mp s).arenaBlocks = s.arenaBlocks :=
  rfl
@[simp] theorem latchConfig_turns (p t : BitVec 32) (y : BitVec 2) (mp : Nat) (s : State) :
    (latchConfig p t y mp s).turns = s.turns :=
  rfl
@[simp] theorem latchConfig_readLog (p t : BitVec 32) (y : BitVec 2) (mp : Nat) (s : State) :
    (latchConfig p t y mp s).readLog = s.readLog :=
  rfl

/-! `refill` -/

@[simp] theorem refill_cmd (s : State) : (refill s).cmd = s.cmd := rfl
@[simp] theorem refill_status (s : State) : (refill s).status = s.status := rfl
@[simp] theorem refill_ie (s : State) : (refill s).ie = s.ie := rfl
@[simp] theorem refill_opa (s : State) : (refill s).opa = s.opa := rfl
@[simp] theorem refill_opb (s : State) : (refill s).opb = s.opb := rfl
@[simp] theorem refill_opc (s : State) : (refill s).opc = s.opc := rfl
@[simp] theorem refill_cfgP (s : State) : (refill s).cfgP = s.cfgP := rfl
@[simp] theorem refill_cfgM (s : State) : (refill s).cfgM = s.cfgM := rfl
@[simp] theorem refill_cfgT (s : State) : (refill s).cfgT = s.cfgT := rfl
@[simp] theorem refill_cfgY (s : State) : (refill s).cfgY = s.cfgY := rfl
@[simp] theorem refill_actP (s : State) : (refill s).actP = s.actP := rfl
@[simp] theorem refill_actT (s : State) : (refill s).actT = s.actT := rfl
@[simp] theorem refill_actY (s : State) : (refill s).actY = s.actY := rfl
@[simp] theorem refill_mprime (s : State) : (refill s).mprime = s.mprime := rfl
@[simp] theorem refill_lanelen (s : State) : (refill s).lanelen = s.lanelen := rfl
@[simp] theorem refill_seglen (s : State) : (refill s).seglen = s.seglen := rfl
@[simp] theorem refill_agPass (s : State) : (refill s).agPass = s.agPass := rfl
@[simp] theorem refill_agSlice (s : State) : (refill s).agSlice = s.agSlice := rfl
@[simp] theorem refill_agLane (s : State) : (refill s).agLane = s.agLane := rfl
@[simp] theorem refill_agIndex (s : State) : (refill s).agIndex = s.agIndex := rfl
@[simp] theorem refill_agCtr (s : State) : (refill s).agCtr = s.agCtr + 1 := rfl
@[simp] theorem refill_prand (s : State) : (refill s).prand = s.prand := rfl
@[simp] theorem refill_refLane (s : State) : (refill s).refLane = s.refLane := rfl
@[simp] theorem refill_refIndex (s : State) : (refill s).refIndex = s.refIndex := rfl
@[simp] theorem refill_refBlk (s : State) : (refill s).refBlk = s.refBlk := rfl
@[simp] theorem refill_curBlk (s : State) : (refill s).curBlk = s.curBlk := rfl
@[simp] theorem refill_prevBlk (s : State) : (refill s).prevBlk = s.prevBlk := rfl
@[simp] theorem refill_msg (s : State) : (refill s).msg = s.msg := rfl
@[simp] theorem refill_digest (s : State) : (refill s).digest = s.digest := rfl
@[simp] theorem refill_dlen (s : State) : (refill s).dlen = s.dlen := rfl
@[simp] theorem refill_b2Outlen (s : State) : (refill s).b2Outlen = s.b2Outlen := rfl
@[simp] theorem refill_hpT (s : State) : (refill s).hpT = s.hpT := rfl
@[simp] theorem refill_ctx (s : State) : (refill s).ctx = s.ctx := rfl
@[simp] theorem refill_arena (s : State) : (refill s).arena = s.arena := rfl
@[simp] theorem refill_arenaBlocks (s : State) : (refill s).arenaBlocks = s.arenaBlocks := rfl
@[simp] theorem refill_turns (s : State) : (refill s).turns = s.turns := rfl
@[simp] theorem refill_readLog (s : State) : (refill s).readLog = s.readLog := rfl

/-! `blockWrite`: everything but the arena -/

@[simp] theorem blockWrite_cmd (s : State) (b : Nat) (B : Block) : (blockWrite s b B).cmd = s.cmd :=
  by rw [blockWrite_eq]
@[simp] theorem blockWrite_status (s : State) (b : Nat) (B : Block) : (blockWrite s b B).status = s.status :=
  by rw [blockWrite_eq]
@[simp] theorem blockWrite_ie (s : State) (b : Nat) (B : Block) : (blockWrite s b B).ie = s.ie :=
  by rw [blockWrite_eq]
@[simp] theorem blockWrite_opa (s : State) (b : Nat) (B : Block) : (blockWrite s b B).opa = s.opa :=
  by rw [blockWrite_eq]
@[simp] theorem blockWrite_opb (s : State) (b : Nat) (B : Block) : (blockWrite s b B).opb = s.opb :=
  by rw [blockWrite_eq]
@[simp] theorem blockWrite_opc (s : State) (b : Nat) (B : Block) : (blockWrite s b B).opc = s.opc :=
  by rw [blockWrite_eq]
@[simp] theorem blockWrite_cfgP (s : State) (b : Nat) (B : Block) : (blockWrite s b B).cfgP = s.cfgP :=
  by rw [blockWrite_eq]
@[simp] theorem blockWrite_cfgM (s : State) (b : Nat) (B : Block) : (blockWrite s b B).cfgM = s.cfgM :=
  by rw [blockWrite_eq]
@[simp] theorem blockWrite_cfgT (s : State) (b : Nat) (B : Block) : (blockWrite s b B).cfgT = s.cfgT :=
  by rw [blockWrite_eq]
@[simp] theorem blockWrite_cfgY (s : State) (b : Nat) (B : Block) : (blockWrite s b B).cfgY = s.cfgY :=
  by rw [blockWrite_eq]
@[simp] theorem blockWrite_actP (s : State) (b : Nat) (B : Block) : (blockWrite s b B).actP = s.actP :=
  by rw [blockWrite_eq]
@[simp] theorem blockWrite_actT (s : State) (b : Nat) (B : Block) : (blockWrite s b B).actT = s.actT :=
  by rw [blockWrite_eq]
@[simp] theorem blockWrite_actY (s : State) (b : Nat) (B : Block) : (blockWrite s b B).actY = s.actY :=
  by rw [blockWrite_eq]
@[simp] theorem blockWrite_mprime (s : State) (b : Nat) (B : Block) : (blockWrite s b B).mprime = s.mprime :=
  by rw [blockWrite_eq]
@[simp] theorem blockWrite_lanelen (s : State) (b : Nat) (B : Block) : (blockWrite s b B).lanelen = s.lanelen :=
  by rw [blockWrite_eq]
@[simp] theorem blockWrite_seglen (s : State) (b : Nat) (B : Block) : (blockWrite s b B).seglen = s.seglen :=
  by rw [blockWrite_eq]
@[simp] theorem blockWrite_agPass (s : State) (b : Nat) (B : Block) : (blockWrite s b B).agPass = s.agPass :=
  by rw [blockWrite_eq]
@[simp] theorem blockWrite_agSlice (s : State) (b : Nat) (B : Block) : (blockWrite s b B).agSlice = s.agSlice :=
  by rw [blockWrite_eq]
@[simp] theorem blockWrite_agLane (s : State) (b : Nat) (B : Block) : (blockWrite s b B).agLane = s.agLane :=
  by rw [blockWrite_eq]
@[simp] theorem blockWrite_agIndex (s : State) (b : Nat) (B : Block) : (blockWrite s b B).agIndex = s.agIndex :=
  by rw [blockWrite_eq]
@[simp] theorem blockWrite_agCtr (s : State) (b : Nat) (B : Block) : (blockWrite s b B).agCtr = s.agCtr :=
  by rw [blockWrite_eq]
@[simp] theorem blockWrite_prand (s : State) (b : Nat) (B : Block) : (blockWrite s b B).prand = s.prand :=
  by rw [blockWrite_eq]
@[simp] theorem blockWrite_refLane (s : State) (b : Nat) (B : Block) : (blockWrite s b B).refLane = s.refLane :=
  by rw [blockWrite_eq]
@[simp] theorem blockWrite_refIndex (s : State) (b : Nat) (B : Block) : (blockWrite s b B).refIndex = s.refIndex :=
  by rw [blockWrite_eq]
@[simp] theorem blockWrite_refBlk (s : State) (b : Nat) (B : Block) : (blockWrite s b B).refBlk = s.refBlk :=
  by rw [blockWrite_eq]
@[simp] theorem blockWrite_curBlk (s : State) (b : Nat) (B : Block) : (blockWrite s b B).curBlk = s.curBlk :=
  by rw [blockWrite_eq]
@[simp] theorem blockWrite_prevBlk (s : State) (b : Nat) (B : Block) : (blockWrite s b B).prevBlk = s.prevBlk :=
  by rw [blockWrite_eq]
@[simp] theorem blockWrite_msg (s : State) (b : Nat) (B : Block) : (blockWrite s b B).msg = s.msg :=
  by rw [blockWrite_eq]
@[simp] theorem blockWrite_digest (s : State) (b : Nat) (B : Block) : (blockWrite s b B).digest = s.digest :=
  by rw [blockWrite_eq]
@[simp] theorem blockWrite_dlen (s : State) (b : Nat) (B : Block) : (blockWrite s b B).dlen = s.dlen :=
  by rw [blockWrite_eq]
@[simp] theorem blockWrite_b2Outlen (s : State) (b : Nat) (B : Block) : (blockWrite s b B).b2Outlen = s.b2Outlen :=
  by rw [blockWrite_eq]
@[simp] theorem blockWrite_hpT (s : State) (b : Nat) (B : Block) : (blockWrite s b B).hpT = s.hpT :=
  by rw [blockWrite_eq]
@[simp] theorem blockWrite_ctx (s : State) (b : Nat) (B : Block) : (blockWrite s b B).ctx = s.ctx :=
  by rw [blockWrite_eq]
@[simp] theorem blockWrite_ag (s : State) (b : Nat) (B : Block) : (blockWrite s b B).ag = s.ag :=
  by rw [blockWrite_eq]
@[simp] theorem blockWrite_turns (s : State) (b : Nat) (B : Block) : (blockWrite s b B).turns = s.turns :=
  by rw [blockWrite_eq]
@[simp] theorem blockWrite_readLog (s : State) (b : Nat) (B : Block) : (blockWrite s b B).readLog = s.readLog :=
  by rw [blockWrite_eq]

/-! `arenaWrite`: everything but the arena -/

@[simp] theorem arenaWrite_cmd (s : State) (a : Nat) (v : Word) : (arenaWrite s a v).cmd = s.cmd :=
  by rw [arenaWrite_eq]
@[simp] theorem arenaWrite_status (s : State) (a : Nat) (v : Word) : (arenaWrite s a v).status = s.status :=
  by rw [arenaWrite_eq]
@[simp] theorem arenaWrite_ie (s : State) (a : Nat) (v : Word) : (arenaWrite s a v).ie = s.ie := by rw [arenaWrite_eq]
@[simp] theorem arenaWrite_opa (s : State) (a : Nat) (v : Word) : (arenaWrite s a v).opa = s.opa :=
  by rw [arenaWrite_eq]
@[simp] theorem arenaWrite_opb (s : State) (a : Nat) (v : Word) : (arenaWrite s a v).opb = s.opb :=
  by rw [arenaWrite_eq]
@[simp] theorem arenaWrite_opc (s : State) (a : Nat) (v : Word) : (arenaWrite s a v).opc = s.opc :=
  by rw [arenaWrite_eq]
@[simp] theorem arenaWrite_cfgP (s : State) (a : Nat) (v : Word) : (arenaWrite s a v).cfgP = s.cfgP :=
  by rw [arenaWrite_eq]
@[simp] theorem arenaWrite_cfgM (s : State) (a : Nat) (v : Word) : (arenaWrite s a v).cfgM = s.cfgM :=
  by rw [arenaWrite_eq]
@[simp] theorem arenaWrite_cfgT (s : State) (a : Nat) (v : Word) : (arenaWrite s a v).cfgT = s.cfgT :=
  by rw [arenaWrite_eq]
@[simp] theorem arenaWrite_cfgY (s : State) (a : Nat) (v : Word) : (arenaWrite s a v).cfgY = s.cfgY :=
  by rw [arenaWrite_eq]
@[simp] theorem arenaWrite_actP (s : State) (a : Nat) (v : Word) : (arenaWrite s a v).actP = s.actP :=
  by rw [arenaWrite_eq]
@[simp] theorem arenaWrite_actT (s : State) (a : Nat) (v : Word) : (arenaWrite s a v).actT = s.actT :=
  by rw [arenaWrite_eq]
@[simp] theorem arenaWrite_actY (s : State) (a : Nat) (v : Word) : (arenaWrite s a v).actY = s.actY :=
  by rw [arenaWrite_eq]
@[simp] theorem arenaWrite_mprime (s : State) (a : Nat) (v : Word) : (arenaWrite s a v).mprime = s.mprime :=
  by rw [arenaWrite_eq]
@[simp] theorem arenaWrite_lanelen (s : State) (a : Nat) (v : Word) : (arenaWrite s a v).lanelen = s.lanelen :=
  by rw [arenaWrite_eq]
@[simp] theorem arenaWrite_seglen (s : State) (a : Nat) (v : Word) : (arenaWrite s a v).seglen = s.seglen :=
  by rw [arenaWrite_eq]
@[simp] theorem arenaWrite_agPass (s : State) (a : Nat) (v : Word) : (arenaWrite s a v).agPass = s.agPass :=
  by rw [arenaWrite_eq]
@[simp] theorem arenaWrite_agSlice (s : State) (a : Nat) (v : Word) : (arenaWrite s a v).agSlice = s.agSlice :=
  by rw [arenaWrite_eq]
@[simp] theorem arenaWrite_agLane (s : State) (a : Nat) (v : Word) : (arenaWrite s a v).agLane = s.agLane :=
  by rw [arenaWrite_eq]
@[simp] theorem arenaWrite_agIndex (s : State) (a : Nat) (v : Word) : (arenaWrite s a v).agIndex = s.agIndex :=
  by rw [arenaWrite_eq]
@[simp] theorem arenaWrite_agCtr (s : State) (a : Nat) (v : Word) : (arenaWrite s a v).agCtr = s.agCtr :=
  by rw [arenaWrite_eq]
@[simp] theorem arenaWrite_prand (s : State) (a : Nat) (v : Word) : (arenaWrite s a v).prand = s.prand :=
  by rw [arenaWrite_eq]
@[simp] theorem arenaWrite_refLane (s : State) (a : Nat) (v : Word) : (arenaWrite s a v).refLane = s.refLane :=
  by rw [arenaWrite_eq]
@[simp] theorem arenaWrite_refIndex (s : State) (a : Nat) (v : Word) : (arenaWrite s a v).refIndex = s.refIndex :=
  by rw [arenaWrite_eq]
@[simp] theorem arenaWrite_refBlk (s : State) (a : Nat) (v : Word) : (arenaWrite s a v).refBlk = s.refBlk :=
  by rw [arenaWrite_eq]
@[simp] theorem arenaWrite_curBlk (s : State) (a : Nat) (v : Word) : (arenaWrite s a v).curBlk = s.curBlk :=
  by rw [arenaWrite_eq]
@[simp] theorem arenaWrite_prevBlk (s : State) (a : Nat) (v : Word) : (arenaWrite s a v).prevBlk = s.prevBlk :=
  by rw [arenaWrite_eq]
@[simp] theorem arenaWrite_msg (s : State) (a : Nat) (v : Word) : (arenaWrite s a v).msg = s.msg :=
  by rw [arenaWrite_eq]
@[simp] theorem arenaWrite_digest (s : State) (a : Nat) (v : Word) : (arenaWrite s a v).digest = s.digest :=
  by rw [arenaWrite_eq]
@[simp] theorem arenaWrite_dlen (s : State) (a : Nat) (v : Word) : (arenaWrite s a v).dlen = s.dlen :=
  by rw [arenaWrite_eq]
@[simp] theorem arenaWrite_b2Outlen (s : State) (a : Nat) (v : Word) : (arenaWrite s a v).b2Outlen = s.b2Outlen :=
  by rw [arenaWrite_eq]
@[simp] theorem arenaWrite_hpT (s : State) (a : Nat) (v : Word) : (arenaWrite s a v).hpT = s.hpT :=
  by rw [arenaWrite_eq]
@[simp] theorem arenaWrite_ctx (s : State) (a : Nat) (v : Word) : (arenaWrite s a v).ctx = s.ctx :=
  by rw [arenaWrite_eq]
@[simp] theorem arenaWrite_ag (s : State) (a : Nat) (v : Word) : (arenaWrite s a v).ag = s.ag := by rw [arenaWrite_eq]
@[simp] theorem arenaWrite_turns (s : State) (a : Nat) (v : Word) : (arenaWrite s a v).turns = s.turns :=
  by rw [arenaWrite_eq]
@[simp] theorem arenaWrite_readLog (s : State) (a : Nat) (v : Word) : (arenaWrite s a v).readLog = s.readLog :=
  by rw [arenaWrite_eq]

/-! `refillIfDue`: everything but the counter and the hidden blocks -/

@[simp] theorem refillIfDue_cmd (s : State) : (refillIfDue s).cmd = s.cmd := by unfold refillIfDue; split <;> rfl
@[simp] theorem refillIfDue_status (s : State) : (refillIfDue s).status = s.status :=
  by unfold refillIfDue; split <;> rfl
@[simp] theorem refillIfDue_ie (s : State) : (refillIfDue s).ie = s.ie := by unfold refillIfDue; split <;> rfl
@[simp] theorem refillIfDue_opa (s : State) : (refillIfDue s).opa = s.opa := by unfold refillIfDue; split <;> rfl
@[simp] theorem refillIfDue_opb (s : State) : (refillIfDue s).opb = s.opb := by unfold refillIfDue; split <;> rfl
@[simp] theorem refillIfDue_opc (s : State) : (refillIfDue s).opc = s.opc := by unfold refillIfDue; split <;> rfl
@[simp] theorem refillIfDue_cfgP (s : State) : (refillIfDue s).cfgP = s.cfgP := by unfold refillIfDue; split <;> rfl
@[simp] theorem refillIfDue_cfgM (s : State) : (refillIfDue s).cfgM = s.cfgM := by unfold refillIfDue; split <;> rfl
@[simp] theorem refillIfDue_cfgT (s : State) : (refillIfDue s).cfgT = s.cfgT := by unfold refillIfDue; split <;> rfl
@[simp] theorem refillIfDue_cfgY (s : State) : (refillIfDue s).cfgY = s.cfgY := by unfold refillIfDue; split <;> rfl
@[simp] theorem refillIfDue_actP (s : State) : (refillIfDue s).actP = s.actP := by unfold refillIfDue; split <;> rfl
@[simp] theorem refillIfDue_actT (s : State) : (refillIfDue s).actT = s.actT := by unfold refillIfDue; split <;> rfl
@[simp] theorem refillIfDue_actY (s : State) : (refillIfDue s).actY = s.actY := by unfold refillIfDue; split <;> rfl
@[simp] theorem refillIfDue_mprime (s : State) : (refillIfDue s).mprime = s.mprime :=
  by unfold refillIfDue; split <;> rfl
@[simp] theorem refillIfDue_lanelen (s : State) : (refillIfDue s).lanelen = s.lanelen :=
  by unfold refillIfDue; split <;> rfl
@[simp] theorem refillIfDue_seglen (s : State) : (refillIfDue s).seglen = s.seglen :=
  by unfold refillIfDue; split <;> rfl
@[simp] theorem refillIfDue_agPass (s : State) : (refillIfDue s).agPass = s.agPass :=
  by unfold refillIfDue; split <;> rfl
@[simp] theorem refillIfDue_agSlice (s : State) : (refillIfDue s).agSlice = s.agSlice :=
  by unfold refillIfDue; split <;> rfl
@[simp] theorem refillIfDue_agLane (s : State) : (refillIfDue s).agLane = s.agLane :=
  by unfold refillIfDue; split <;> rfl
@[simp] theorem refillIfDue_agIndex (s : State) : (refillIfDue s).agIndex = s.agIndex :=
  by unfold refillIfDue; split <;> rfl
@[simp] theorem refillIfDue_prand (s : State) : (refillIfDue s).prand = s.prand :=
  by unfold refillIfDue; split <;> rfl
@[simp] theorem refillIfDue_refLane (s : State) : (refillIfDue s).refLane = s.refLane :=
  by unfold refillIfDue; split <;> rfl
@[simp] theorem refillIfDue_refIndex (s : State) : (refillIfDue s).refIndex = s.refIndex :=
  by unfold refillIfDue; split <;> rfl
@[simp] theorem refillIfDue_refBlk (s : State) : (refillIfDue s).refBlk = s.refBlk :=
  by unfold refillIfDue; split <;> rfl
@[simp] theorem refillIfDue_curBlk (s : State) : (refillIfDue s).curBlk = s.curBlk :=
  by unfold refillIfDue; split <;> rfl
@[simp] theorem refillIfDue_prevBlk (s : State) : (refillIfDue s).prevBlk = s.prevBlk :=
  by unfold refillIfDue; split <;> rfl
@[simp] theorem refillIfDue_msg (s : State) : (refillIfDue s).msg = s.msg := by unfold refillIfDue; split <;> rfl
@[simp] theorem refillIfDue_digest (s : State) : (refillIfDue s).digest = s.digest :=
  by unfold refillIfDue; split <;> rfl
@[simp] theorem refillIfDue_dlen (s : State) : (refillIfDue s).dlen = s.dlen := by unfold refillIfDue; split <;> rfl
@[simp] theorem refillIfDue_b2Outlen (s : State) : (refillIfDue s).b2Outlen = s.b2Outlen :=
  by unfold refillIfDue; split <;> rfl
@[simp] theorem refillIfDue_hpT (s : State) : (refillIfDue s).hpT = s.hpT := by unfold refillIfDue; split <;> rfl
@[simp] theorem refillIfDue_ctx (s : State) : (refillIfDue s).ctx = s.ctx := by unfold refillIfDue; split <;> rfl
@[simp] theorem refillIfDue_arena (s : State) : (refillIfDue s).arena = s.arena :=
  by unfold refillIfDue; split <;> rfl
@[simp] theorem refillIfDue_arenaBlocks (s : State) : (refillIfDue s).arenaBlocks = s.arenaBlocks :=
  by unfold refillIfDue; split <;> rfl
@[simp] theorem refillIfDue_turns (s : State) : (refillIfDue s).turns = s.turns :=
  by unfold refillIfDue; split <;> rfl
@[simp] theorem refillIfDue_readLog (s : State) : (refillIfDue s).readLog = s.readLog :=
  by unfold refillIfDue; split <;> rfl

/-! `agStep`: everything but the step results, the position and the hidden blocks -/

@[simp] theorem agStep_cmd (s : State) : (agStep s).cmd = s.cmd := refillIfDue_cmd s
@[simp] theorem agStep_status (s : State) : (agStep s).status = s.status := refillIfDue_status s
@[simp] theorem agStep_ie (s : State) : (agStep s).ie = s.ie := refillIfDue_ie s
@[simp] theorem agStep_opa (s : State) : (agStep s).opa = s.opa := refillIfDue_opa s
@[simp] theorem agStep_opb (s : State) : (agStep s).opb = s.opb := refillIfDue_opb s
@[simp] theorem agStep_opc (s : State) : (agStep s).opc = s.opc := refillIfDue_opc s
@[simp] theorem agStep_cfgP (s : State) : (agStep s).cfgP = s.cfgP := refillIfDue_cfgP s
@[simp] theorem agStep_cfgM (s : State) : (agStep s).cfgM = s.cfgM := refillIfDue_cfgM s
@[simp] theorem agStep_cfgT (s : State) : (agStep s).cfgT = s.cfgT := refillIfDue_cfgT s
@[simp] theorem agStep_cfgY (s : State) : (agStep s).cfgY = s.cfgY := refillIfDue_cfgY s
@[simp] theorem agStep_actP (s : State) : (agStep s).actP = s.actP := refillIfDue_actP s
@[simp] theorem agStep_actT (s : State) : (agStep s).actT = s.actT := refillIfDue_actT s
@[simp] theorem agStep_actY (s : State) : (agStep s).actY = s.actY := refillIfDue_actY s
@[simp] theorem agStep_mprime (s : State) : (agStep s).mprime = s.mprime := refillIfDue_mprime s
@[simp] theorem agStep_lanelen (s : State) : (agStep s).lanelen = s.lanelen := refillIfDue_lanelen s
@[simp] theorem agStep_seglen (s : State) : (agStep s).seglen = s.seglen := refillIfDue_seglen s
@[simp] theorem agStep_agPass (s : State) : (agStep s).agPass = s.agPass := refillIfDue_agPass s
@[simp] theorem agStep_agSlice (s : State) : (agStep s).agSlice = s.agSlice := refillIfDue_agSlice s
@[simp] theorem agStep_agLane (s : State) : (agStep s).agLane = s.agLane := refillIfDue_agLane s
@[simp] theorem agStep_msg (s : State) : (agStep s).msg = s.msg := refillIfDue_msg s
@[simp] theorem agStep_digest (s : State) : (agStep s).digest = s.digest := refillIfDue_digest s
@[simp] theorem agStep_dlen (s : State) : (agStep s).dlen = s.dlen := refillIfDue_dlen s
@[simp] theorem agStep_b2Outlen (s : State) : (agStep s).b2Outlen = s.b2Outlen := refillIfDue_b2Outlen s
@[simp] theorem agStep_hpT (s : State) : (agStep s).hpT = s.hpT := refillIfDue_hpT s
@[simp] theorem agStep_ctx (s : State) : (agStep s).ctx = s.ctx := refillIfDue_ctx s
@[simp] theorem agStep_arena (s : State) : (agStep s).arena = s.arena := refillIfDue_arena s
@[simp] theorem agStep_arenaBlocks (s : State) : (agStep s).arenaBlocks = s.arenaBlocks := refillIfDue_arenaBlocks s
@[simp] theorem agStep_turns (s : State) : (agStep s).turns = s.turns := refillIfDue_turns s
@[simp] theorem agStep_readLog (s : State) : (agStep s).readLog = s.readLog := refillIfDue_readLog s
@[simp] theorem agStep_agIndex (s : State) : (agStep s).agIndex = s.agIndex + 1 :=
  congrArg (· + 1) (refillIfDue_agIndex s)

/-! `fillBody`: a step of the generator and a block store -/

@[simp] theorem fillBody_cmd (s : State) : (fillBody s).cmd = s.cmd := by simp [fillBody, compressStep]
@[simp] theorem fillBody_status (s : State) : (fillBody s).status = s.status := by simp [fillBody, compressStep]
@[simp] theorem fillBody_ie (s : State) : (fillBody s).ie = s.ie := by simp [fillBody, compressStep]
@[simp] theorem fillBody_opa (s : State) : (fillBody s).opa = s.opa := by simp [fillBody, compressStep]
@[simp] theorem fillBody_opb (s : State) : (fillBody s).opb = s.opb := by simp [fillBody, compressStep]
@[simp] theorem fillBody_opc (s : State) : (fillBody s).opc = s.opc := by simp [fillBody, compressStep]
@[simp] theorem fillBody_cfgP (s : State) : (fillBody s).cfgP = s.cfgP := by simp [fillBody, compressStep]
@[simp] theorem fillBody_cfgM (s : State) : (fillBody s).cfgM = s.cfgM := by simp [fillBody, compressStep]
@[simp] theorem fillBody_cfgT (s : State) : (fillBody s).cfgT = s.cfgT := by simp [fillBody, compressStep]
@[simp] theorem fillBody_cfgY (s : State) : (fillBody s).cfgY = s.cfgY := by simp [fillBody, compressStep]
@[simp] theorem fillBody_actP (s : State) : (fillBody s).actP = s.actP := by simp [fillBody, compressStep]
@[simp] theorem fillBody_actT (s : State) : (fillBody s).actT = s.actT := by simp [fillBody, compressStep]
@[simp] theorem fillBody_actY (s : State) : (fillBody s).actY = s.actY := by simp [fillBody, compressStep]
@[simp] theorem fillBody_mprime (s : State) : (fillBody s).mprime = s.mprime := by simp [fillBody, compressStep]
@[simp] theorem fillBody_lanelen (s : State) : (fillBody s).lanelen = s.lanelen := by simp [fillBody, compressStep]
@[simp] theorem fillBody_seglen (s : State) : (fillBody s).seglen = s.seglen := by simp [fillBody, compressStep]
@[simp] theorem fillBody_agPass (s : State) : (fillBody s).agPass = s.agPass := by simp [fillBody, compressStep]
@[simp] theorem fillBody_agSlice (s : State) : (fillBody s).agSlice = s.agSlice := by simp [fillBody, compressStep]
@[simp] theorem fillBody_agLane (s : State) : (fillBody s).agLane = s.agLane := by simp [fillBody, compressStep]
@[simp] theorem fillBody_msg (s : State) : (fillBody s).msg = s.msg := by simp [fillBody, compressStep]
@[simp] theorem fillBody_digest (s : State) : (fillBody s).digest = s.digest := by simp [fillBody, compressStep]
@[simp] theorem fillBody_dlen (s : State) : (fillBody s).dlen = s.dlen := by simp [fillBody, compressStep]
@[simp] theorem fillBody_b2Outlen (s : State) : (fillBody s).b2Outlen = s.b2Outlen := by simp [fillBody, compressStep]
@[simp] theorem fillBody_hpT (s : State) : (fillBody s).hpT = s.hpT := by simp [fillBody, compressStep]
@[simp] theorem fillBody_ctx (s : State) : (fillBody s).ctx = s.ctx := by simp [fillBody, compressStep]
@[simp] theorem fillBody_arenaBlocks (s : State) : (fillBody s).arenaBlocks = s.arenaBlocks :=
  by simp [fillBody, compressStep]
@[simp] theorem fillBody_turns (s : State) : (fillBody s).turns = s.turns := by simp [fillBody, compressStep]
@[simp] theorem fillBody_readLog (s : State) : (fillBody s).readLog = s.readLog := by simp [fillBody, compressStep]
@[simp] theorem fillBody_agIndex (s : State) : (fillBody s).agIndex = s.agIndex + 1 :=
  by simp [fillBody, compressStep]

end Sys2Proof.Machine
end

