-- ==== Sys2Proof/Laws/Ops.lean ====
section
/-! SUPPORT. What a command and a step can do, said once: every command is one checked computation that `finish` ends, and a step
is one of four kinds of turn. -/

namespace Sys2Proof.Machine

/-- The checked computation of each command: its new state, or the error it raises. -/
def commandResult (s : State) : Instr → Except CmdError State
  | .nop => cmdNop s
  | .wipe => cmdWipe s
  | .cfg => cmdCfg s
  | .scrub => cmdScrub s
  | .bzero => cmdBzero s
  | .bxor => cmdBxor s
  | .b2init nn kk => cmdB2init nn kk s
  | .b2upd len => cmdB2upd len s
  | .b2updb => cmdB2updb s
  | .b2updd => cmdB2updd s
  | .b2fin => cmdB2fin s
  | .hpinit t => cmdHpinit t s
  | .hpfin => cmdHpfin s
  | .gcmp w => cmdGcmp w s
  | .agseg => cmdAgseg s
  | .agnext => cmdAgnext s
  | .fillstep => cmdFillstep s
  | .fillseg => cmdFillseg s

/-- A command never stops the machine: it answers what `finish` makes of its computation. -/
theorem exec_eq (i : Instr) (s : State) : exec i s = .next (finish s (commandResult s i)) := by cases i <;> rfl

@[simp] theorem finish_ok (s s' : State) : finish s (.ok s') = complete s' := rfl
@[simp] theorem finish_error (s : State) (c : CmdError) : finish s (.error c) = raiseError c s := rfl

/-- A command that answers `t` either completed with a new state of its own or raised an error on the old one. -/
theorem exec_next {i : Instr} {s t : State} (h : exec i s = .next t) :
    (∃ s', commandResult s i = .ok s' ∧ t = complete s') ∨ ∃ c, commandResult s i = .error c ∧ t = raiseError c s := by
  rw [exec_eq] at h
  cases hr : commandResult s i with
  | ok s' => rw [hr] at h; cases h; exact .inl ⟨s', rfl, rfl⟩
  | error c => rw [hr] at h; cases h; exact .inr ⟨c, rfl, rfl⟩

theorem exec_of_ok {i : Instr} {s s' : State} (h : commandResult s i = .ok s') : exec i s = .next (complete s') := by
  rw [exec_eq, h]; rfl

theorem exec_of_error {i : Instr} {s : State} {c : CmdError} (h : commandResult s i = .error c) :
    exec i s = .next (raiseError c s) := by
  rw [exec_eq, h]; rfl

/-- The engine's transition: a command's, or the ILLEGAL report. -/
theorem engineStep_eq (s : State) :
    (∃ i, decode s.cmd = .ok i ∧ engineStep s = exec i s) ∨
    ((∀ i, decode s.cmd ≠ .ok i) ∧ engineStep s = .next (raiseError .illegal s)) := by
  unfold engineStep
  cases h : decode s.cmd with
  | ok i => exact .inl ⟨i, rfl, rfl⟩
  | error e => exact .inr ⟨fun i => by simp, rfl⟩

/-- A turn of the engine that answers `t`: idle, a command, or the ILLEGAL report. -/
theorem engineTurn_next {s t : State} (h : engineTurn s = .next t) :
    (s.status.busy = false ∧ t = s) ∨
    (∃ i, s.status.busy = true ∧ decode s.cmd = .ok i ∧ exec i s = .next t) ∨
    (s.status.busy = true ∧ t = raiseError .illegal s) := by
  unfold engineTurn at h
  split at h
  · rename_i hb
    rcases engineStep_eq s with ⟨i, hi, he⟩ | ⟨-, he⟩
    · exact .inr (.inl ⟨i, hb, hi, he ▸ h⟩)
    · rw [he] at h; cases h; exact .inr (.inr ⟨hb, rfl⟩)
  · rename_i hb
    cases h
    exact .inl ⟨by simpa using hb, rfl⟩

/-- A host access that answers `t` had its effect. -/
theorem hostAccess_next {op : BusOp} {s t : State} (h : hostAccess op s = .next t) : t = busEffect op s := by
  unfold hostAccess at h
  split at h
  · cases h
  · cases h; rfl

/-- What a step that answers `t` can have been. -/
theorem step_next {s t : State} (h : step s = .next t) :
    (∃ s', (s' = s ∨ s' = popTurn s) ∧ engineTurn s' = .next t) ∨
    (∃ op rest, s.turns = .host op :: rest ∧ t = busEffect op (popTurn s)) ∨
    (∃ draw rest, s.turns = .reset draw :: rest ∧ t = applyReset draw (popTurn s)) := by
  unfold step at h
  split at h
  · exact .inl ⟨s, .inl rfl, h⟩
  · exact .inl ⟨popTurn s, .inr rfl, h⟩
  · rename_i op rest ht
    exact .inr (.inl ⟨op, rest, ht, hostAccess_next h⟩)
  · rename_i draw rest ht
    cases h
    exact .inr (.inr ⟨draw, rest, ht, rfl⟩)

/-- A step answers a next state or the fault of R270; it never refuses. -/
theorem step_cases (s : State) :
    (∃ t, step s = .next t) ∨
    ∃ op rest, s.turns = .host op :: rest ∧ s.status.busy = true ∧ allowedWhileBusy op = false ∧
      step s = .fault (.accessWhileBusy op) := by
  have hexec : ∀ s, ∃ t, engineTurn s = .next t := by
    intro s
    unfold engineTurn
    split
    · rcases engineStep_eq s with ⟨i, -, he⟩ | ⟨-, he⟩
      · exact ⟨_, by rw [he, exec_eq]⟩
      · exact ⟨_, he⟩
    · exact ⟨s, rfl⟩
  unfold step
  split
  · exact .inl (hexec _)
  · exact .inl (hexec _)
  · rename_i op rest ht
    unfold hostAccess
    split
    · rename_i hc
      simp only [Bool.and_eq_true, Bool.not_eq_true'] at hc
      exact .inr ⟨op, rest, ht, hc.1, hc.2, rfl⟩
    · exact .inl ⟨_, rfl⟩
  · exact .inl ⟨_, rfl⟩

/-- Wiping the arena is storing a zero byte at each of its addresses (46_control.md R221). -/
theorem wipeArena_arena_eq (s : State) : (wipeArena s).arena = memWrite s.arena 0 (zeroBytes (arenaBytes s)) := by
  have : ∀ n a, cellsFrom a (zeroBytes n) = [] := by
    intro n
    induction n with
    | zero => intro a; rfl
    | succ n ih => intro a; simpa [zeroBytes, List.replicate_succ, cellsFrom, unlisted] using ih (a + 1)
  simp [wipeArena, memWrite, this]

end Sys2Proof.Machine
end

