-- ==== Sys2Proof/Laws/AddrGen.lean ====
section
/-! SUPPORT. Laws of the address generator: what one step and a whole fill may change, and the exact index arithmetic. -/

namespace Sys2Proof.Machine

/-- A state without the parts that AGNEXT writes (45_addrgen.md R195). -/
def dropStep (s : State) : State :=
  { s with ag := AddrGen.zero, agCtr := 0, agIndex := 0, prand := 0, refLane := 0, refIndex := 0, refBlk := 0,
           curBlk := 0, prevBlk := 0 }

/-- A state without the parts that FILLSTEP and FILLSEG write (45_addrgen.md R201, R202). -/
def dropFill (s : State) : State := { dropStep s with arena := [] }

/-- The refill changes the counter and the hidden blocks alone (R194). -/
theorem refillIfDue_eq (s : State) :
    refillIfDue s = { s with agCtr := (refillIfDue s).agCtr, ag := (refillIfDue s).ag } := by
  unfold refillIfDue; split <;> rfl

/-- AGNEXT changes nothing but its own registers and the hidden blocks; the arena stays (R195). -/
theorem dropStep_agStep (s : State) : dropStep (agStep s) = dropStep s := by
  unfold agStep refillIfDue; split <;> rfl

theorem dropFill_agStep (s : State) : dropFill (agStep s) = dropFill s :=
  congrArg (fun s : State => { s with arena := [] }) (dropStep_agStep s)

theorem dropFill_blockWrite (s : State) (b : Nat) (B : Block) : dropFill (blockWrite s b B) = dropFill s := by
  unfold blockWrite; split <;> rfl

/-- One fill step changes nothing but what AGNEXT writes and the arena (R201). -/
theorem dropFill_fillBody (s : State) : dropFill (fillBody s) = dropFill s := by
  rw [fillBody, compressStep, dropFill_blockWrite, dropFill_agStep]

/-- So does the whole loop of FILLSEG (R202). -/
theorem dropFill_fillLoop (n : Nat) (s : State) : dropFill (fillLoop n s) = dropFill s := by
  induction n generalizing s with
  | zero => rfl
  | succ n ih =>
    rw [fillLoop]
    split
    · rw [ih, dropFill_fillBody]
    · rfl

/-- The bias product stays below the area: the relative position does not wrap when the area is not empty (R200). -/
theorem biasProduct_le {area x : Nat} (hx : x < 2 ^ 32) (ha : 1 ≤ area) :
    area * (x * x / 2 ^ 32) / 2 ^ 32 ≤ area - 1 := by
  have h1 : x * x / 2 ^ 32 < 2 ^ 32 := by
    apply Nat.div_lt_of_lt_mul
    exact Nat.mul_lt_mul'' hx hx
  have h2 : area * (x * x / 2 ^ 32) / 2 ^ 32 < area := by
    apply Nat.div_lt_of_lt_mul
    rw [Nat.mul_comm]
    exact Nat.mul_lt_mul_of_pos_right h1 ha
  omega

/-- The relative position as an exact number, for a non-empty area (R200). -/
theorem relativePosition_toNat {area x : Nat} (hx : x < 2 ^ 32) (ha : 1 ≤ area) (hb : area < 2 ^ 32) :
    (relativePosition area x).toNat = area - 1 - area * (x * x / 2 ^ 32) / 2 ^ 32 := by
  have := biasProduct_le hx ha
  unfold relativePosition
  rw [BitVec.toNat_sub, BitVec.toNat_setWidth, BitVec.toNat_sub, BitVec.toNat_ofNat, BitVec.toNat_ofNat,
    BitVec.toNat_ofNat]
  generalize area * (x * x / 2 ^ 32) / 2 ^ 32 = z at *
  omega

/-- The relative position of an empty area: the 32-bit subtraction wraps (R200). -/
theorem relativePosition_zero (x : Nat) : (relativePosition 0 x).toNat = 0xFFFFFFFF := by
  unfold relativePosition
  rw [Nat.zero_mul, Nat.zero_div]
  decide

end Sys2Proof.Machine
end

