-- ==== Sys2Proof/Laws/Blake2b.lean ====
section
/-! SUPPORT. Laws of the BLAKE2b context and of H′: absorbing by parts, the lengths of digests, and the exact forms of the
operations on a buffer. -/

namespace Sys2Proof.Machine

@[simp] theorem ctxAbsorb_nil (c : Ctx) : ctxAbsorb c [] = c := rfl

@[simp] theorem ctxAbsorb_cons (c : Ctx) (x : Byte) (bs : List Byte) :
    ctxAbsorb c (x :: bs) = ctxAbsorb (ctxAbsorbByte c x) bs := rfl

/-- Absorbing a concatenation is absorbing its parts in turn (41_blake2b.md R129). -/
theorem ctxAbsorb_append (c : Ctx) (bs cs : List Byte) : ctxAbsorb c (bs ++ cs) = ctxAbsorb (ctxAbsorb c bs) cs :=
  List.foldl_append

/-- A byte that finds room is stored at the fill level (R116). -/
theorem ctxAbsorbByte_of_ne {c : Ctx} (h : c.buflen ≠ 128) (x : Byte) :
    ctxAbsorbByte c x = { c with buf := c.buf.setIfInBounds c.buflen x, buflen := c.buflen + 1 } := by
  simp [ctxAbsorbByte, h]

/-- A byte that finds a full buffer compresses it first (R116). -/
theorem ctxAbsorbByte_of_full {c : Ctx} (h : c.buflen = 128) (x : Byte) :
    ctxAbsorbByte c x =
      { ctxFlush c with buf := (ctxFlush c).buf.setIfInBounds 0 x, buflen := 1 } := by
  simp [ctxAbsorbByte, h, ctxFlush]

/-- A digest has the length asked for, up to 64 bytes (R118). -/
@[simp] theorem ctxFinalize_length (nn : Nat) (c : Ctx) : (ctxFinalize nn c).length = min nn 64 := by
  simp [ctxFinalize]

@[simp] theorem blake2b_length (nn : Nat) (key bs : List Byte) : (blake2b nn key bs).length = min nn 64 :=
  ctxFinalize_length _ _

@[simp] theorem msgBytes_length (n : Nat) (s : State) : (msgBytes n s).length = min n 128 := by simp [msgBytes]

@[simp] theorem digBytes_length (n : Nat) (s : State) : (digBytes n s).length = min n 64 := by simp [digBytes]

/-- The chain of H′ gives as many bytes as it is asked for, when its fuel is enough (42_hprime.md R140). -/
theorem hpChain_length (fuel : Nat) (v : List Byte) (rem : Nat) (h : rem ≤ 64 + 32 * (fuel - 1)) (hf : 1 ≤ fuel) :
    (hpChain fuel v rem).length = rem := by
  induction fuel generalizing v rem with
  | zero => omega
  | succ n ih =>
    unfold hpChain
    split
    · rw [List.length_append, ih _ _ (by omega) (by omega)]
      simp
      omega
    · simp
      omega

end Sys2Proof.Machine
end

