-- ==== Sys2Proof/Laws/Decode.lean ====
section
/-! SUPPORT. Laws of the decoder and the encoder: a word is its fields, what a word that decodes looks like, and the number that
a command's word is. -/

namespace Sys2Proof

/-- A command word is its five fields (30_encoding.md R90). -/
theorem toNat_eq_fields (w : Word) :
    w.toNat = wordField w 0 8 + 2 ^ 8 * wordField w 8 1 + 2 ^ 9 * wordField w 9 7 + 2 ^ 16 * wordField w 16 16
      + 2 ^ 32 * wordField w 32 32 := by
  simp only [wordField]
  have := w.isLt
  omega

/-- IMM is its two bytes, the fields NN and KK of B2INIT (30_encoding.md R92). -/
theorem immField_eq_bytes (w : Word) : wordField w 16 16 = wordField w 16 8 + 2 ^ 8 * wordField w 24 8 := by
  simp only [wordField]
  omega

/-- The width of a field bounds it. -/
theorem wordField_lt (w : Word) (lo len : Nat) : wordField w lo len < 2 ^ len := Nat.mod_lt _ (Nat.two_pow_pos len)

/-- A word that decodes names its command and passes the three tests of R95. -/
theorem decode_ok {w : Word} {i : Instr} (h : decode w = .ok i) :
    opcodeInstr w = some i ∧ wordField w 32 32 = 0 ∧ wordField w 9 7 = 0 ∧
      (wordField w 8 1 = 1 → usesW i = true) ∧ (wordField w 16 16 ≠ 0 → usesImm i = true) := by
  unfold decode at h
  split at h
  · cases h
  · rename_i j hj
    split at h
    · cases h
    · rename_i hr
      split at h
      · cases h
      · rename_i hw
        split at h
        · cases h
        · rename_i hi
          cases h
          rw [not_or, not_not, not_not] at hr
          exact ⟨hj, hr.1, hr.2, fun h1 => by simpa [h1] using hw, fun h1 => by simpa [h1] using hi⟩

/-- A word that names a command and passes the three tests decodes to it (R95). -/
theorem decode_of_fields {w : Word} {i : Instr} (h : opcodeInstr w = some i) (hu : wordField w 32 32 = 0)
    (hl : wordField w 9 7 = 0) (hw : wordField w 8 1 = 1 → usesW i = true)
    (hi : wordField w 16 16 ≠ 0 → usesImm i = true) : decode w = .ok i := by
  unfold decode
  rw [h]
  have h1 : ¬(wordField w 32 32 ≠ 0 ∨ wordField w 9 7 ≠ 0) := by simp [hu, hl]
  have h2 : ¬(wordField w 8 1 = 1 ∧ usesW i = false) := fun h => by simp [hw h.1] at h
  have h3 : ¬(wordField w 16 16 ≠ 0 ∧ usesImm i = false) := fun h => by simp [hi h.1] at h
  simp only [if_neg h1, if_neg h2, if_neg h3]

/-- A word names the command whose OP it carries (R94). -/
theorem opcode_of_opcodeInstr {w : Word} {i : Instr} (h : opcodeInstr w = some i) : wordField w 0 8 = opcode i := by
  unfold opcodeInstr at h
  split at h <;> cases h <;> assumption

/-- A word names a command exactly when its OP is assigned (R94, R96). -/
theorem opcodeInstr_isSome (w : Word) :
    (∃ i, opcodeInstr w = some i) ↔
      wordField w 0 8 ∈ [0x00, 0x01, 0x02, 0x03, 0x08, 0x09, 0x10, 0x11, 0x12, 0x13, 0x14, 0x18, 0x19, 0x20, 0x28, 0x29,
        0x2A, 0x2B] := by
  unfold opcodeInstr
  split <;> rename_i h <;> simp_all

/-- The word of a well-formed command, as a number below 2^32. -/
theorem encode_toNat {i : Instr} (h : i.wellFormed = true) :
    (encode i).toNat = opcode i + operandBits i ∧ opcode i + operandBits i < 2 ^ 32 := by
  cases i <;> simp only [Instr.wellFormed, Bool.and_eq_true, decide_eq_true_eq] at h <;>
    simp only [encode, BitVec.toNat_ofNat, opcode, operandBits]
  case gcmp w => cases w <;> decide
  all_goals (constructor <;> omega)

end Sys2Proof
end

