-- ==== Sys2Proof/Machine/HostProgram.lean ====
section
/-! DEFINITION. The host's side as lists of turns: the bus operations of 30_encoding.md R98, the pseudo-instructions of R99 and
the Argon2 procedure of 46_control.md R224. `polls` is how many reads of STATUS find BUSY = 1 before a command completes; it is
not specified (10_state.md R24), so it is a parameter. -/

namespace Sys2Proof.Machine

/-- `W <REGNAME>, v` (R98). -/
def hostWrite (r : Reg) (v : Word) : Turn := .host (.writeReg (regOffset r) v)

/-- `R <REGNAME>` (R98). -/
def hostRead (r : Reg) : Turn := .host (.readReg (regOffset r))

/-- `WA a, v` (R98). -/
def hostWriteArena (a : Nat) (v : Word) : Turn := .host (.writeArena a v)

/-- `RA a` (R98). -/
def hostReadArena (a : Nat) : Turn := .host (.readArena a)

/-- `C <command>` (R99): the CMD write, then reads of STATUS until one finds BUSY = 0. -/
def hostCommand (polls : Nat) (i : Instr) : List Turn :=
  hostWrite .cmd (encode i) :: List.replicate polls (hostRead .status) ++ [.engine, hostRead .status]

/-- `SETOP a, b, c`; omitted trailing operands are not written (R99). -/
def setOperands (ops : List Word) : List Turn := List.zipWith hostWrite [.opa, .opb, .opc] ops

/-- `LOADMSG <bytes>`, at most 128 bytes, zero-padded (R99). -/
def loadMsg (bs : List Byte) : List Turn :=
  (List.finRange 16).map fun k => hostWrite (.msg k) (wordAt (bs ++ zeroBytes (128 - bs.length)) k.val)

/-- The successive chunks of at most 128 bytes of a byte string (R99); `fuel` bounds their number. -/
def chunks128 : Nat → List Byte → List (List Byte)
  | 0, _ => []
  | fuel + 1, bs => if bs.isEmpty then [] else bs.take 128 :: chunks128 fuel (bs.drop 128)

/-- `ABSORB <bytes>` (R99). -/
def absorbBytes (polls : Nat) (bs : List Byte) : List Turn :=
  (chunks128 bs.length bs).flatMap fun c => loadMsg c ++ hostCommand polls (.b2upd c.length)

/-- `CFGSET p, m, t, y` (R99). -/
def configSet (polls : Nat) (p m t y : Word) : List Turn :=
  [hostWrite .cfgP p, hostWrite .cfgM m, hostWrite .cfgT t, hostWrite .cfgY y] ++ hostCommand polls .cfg

/-- `LE32(n)` of a length `n` (00_scope.md R12). For `n` of 2^32 or more, where the spec states no `LE32`, the four bytes are those
of a free value (assumption log 18, DESIGN CHOICE). -/
def le32Length (n : Nat) : List Byte := le32 (if n < 2 ^ 32 then BitVec.ofNat 32 n else Config.overlongLength n)

/-- `LE32(|x|) ‖ x`: a length-prefixed field; an absent field and an empty one are both `LE32(0)` (R224, 20_memory.md R72). The
prefix of a field of 2^32 bytes or more is the model's choice: a free value (assumption log 18). -/
def lengthPrefixed (x : List Byte) : List Byte := le32Length x.length ++ x

/-- The stream that H0 hashes (R224 step 2). T is a length like those of the fields (`le32Length`). -/
def seedStream (p m t : BitVec 32) (y : BitVec 2) (tagLen : Nat) (pwd salt secret assoc : List Byte) : List Byte :=
  le32 p ++ le32Length tagLen ++ le32 m ++ le32 t ++ le32 0x13#32 ++ le32 (y.setWidth 32)
    ++ lengthPrefixed pwd ++ lengthPrefixed salt ++ lengthPrefixed secret ++ lengthPrefixed assoc

/-- The seed block `k` of lane `l` (R224 step 3). -/
def seedBlock (polls q l k : Nat) : List Turn :=
  hostCommand polls (.hpinit 1024) ++ hostCommand polls .b2updd
    ++ [hostWrite (.msg 0) (BitVec.ofNat 64 (k + l * 2 ^ 32))] ++ hostCommand polls (.b2upd 8)
    ++ [hostWrite .opa (BitVec.ofNat 64 (l * q + k))] ++ hostCommand polls .hpfin

/-- One segment of the iteration (R224 step 4). -/
def fillSegment (polls r s l : Nat) : List Turn :=
  setOperands [BitVec.ofNat 64 r, BitVec.ofNat 64 s, BitVec.ofNat 64 l]
    ++ hostCommand polls .agseg ++ hostCommand polls .fillseg

/-- Step 1 of the procedure up to the outcome of CFG (R224): `CFGSET p, m, t, y`. -/
def argon2Configure (polls : Nat) (p m t : BitVec 32) (y : BitVec 2) : List Turn :=
  configSet polls (p.setWidth 64) (m.setWidth 64) (t.setWidth 64) (y.setWidth 64)

/-- `LANELEN` of the requested configuration (00_scope.md R9). -/
def laneBlocks (p m : BitVec 32) : Nat := configBlocks p.toNat m.toNat / p.toNat

/-- The rest of step 1 and step 2: WIPE, and H0 into DIGEST (R224). -/
def argon2Seed (polls : Nat) (p m t : BitVec 32) (y : BitVec 2) (tagLen : Nat)
    (pwd salt secret assoc : List Byte) : List Turn :=
  hostCommand polls .wipe ++ hostCommand polls (.b2init 64 0)
    ++ absorbBytes polls (seedStream p m t y tagLen pwd salt secret assoc) ++ hostCommand polls .b2fin

/-- Step 3: blocks 0 and 1 of every lane, and SCRUB (R224). -/
def argon2Lanes (polls : Nat) (p m : BitVec 32) : List Turn :=
  (List.range p.toNat).flatMap
      (fun l => seedBlock polls (laneBlocks p m) l 0 ++ seedBlock polls (laneBlocks p m) l 1)
    ++ hostCommand polls .scrub

/-- Step 4: every segment of every slice of every pass (R224). -/
def argon2Iterate (polls : Nat) (p t : BitVec 32) : List Turn :=
  (List.range t.toNat).flatMap fun r => (List.range 4).flatMap fun s =>
    (List.range p.toNat).flatMap fun l => fillSegment polls r s l

/-- Step 5 up to the tag: the lanes' last blocks folded into that of lane 0, and H′ of it into block 0 (R224). -/
def argon2Finalise (polls : Nat) (p m : BitVec 32) (tagLen : Nat) : List Turn :=
  let q := laneBlocks p m
  (List.range (p.toNat - 1)).flatMap (fun l =>
      setOperands [BitVec.ofNat 64 (q - 1), BitVec.ofNat 64 ((l + 1) * q + q - 1)] ++ hostCommand polls .bxor)
    ++ hostCommand polls (.hpinit tagLen) ++ [hostWrite .opa (BitVec.ofNat 64 (q - 1))]
    ++ hostCommand polls .b2updb ++ [hostWrite .opa 0] ++ hostCommand polls .hpfin

/-- How many words the tag takes: words 0 .. ceil(T/8) − 1 of block 0 (R224 step 5). -/
def tagWords (tagLen : Nat) : Nat := (tagLen + 7) / 8

/-- The reads of the tag's words (R224 step 5). -/
def argon2TagReads (tagLen : Nat) : List Turn := (List.range (tagWords tagLen)).map hostReadArena

/-- `tag <- first T bytes of Bytes(Arena[0])` (R224 step 5), from the words that the host has just read. -/
def tagBytes (tagLen : Nat) (s : State) : List Byte :=
  (wordsBytes (s.readLog.take (tagWords tagLen)).reverse).take tagLen

/-- What the last STATUS that the host read says of its command: whether it was rejected (R99: after the loop of `C` the program
may inspect STATUS.ERR). -/
def lastCommandFailed (s : State) : Bool :=
  match s.readLog with
  | w :: _ => wordField w 2 1 == 1
  | [] => false

/-- The host's next part of a program after one that ended in `r`: it goes on only from a next state. -/
def hostThen {α : Type} (r : Host.Outcome State Fault Refusal) (k : State → Host.Outcome α Fault Refusal) :
    Host.Outcome α Fault Refusal :=
  match r with
  | .next s => k s
  | .fault f => .fault f
  | .refused f => .refused f

/-- The host takes the given turns one after another, one step each (00_scope.md R16). They are the whole list of turns: those
that `s` holds are not taken. -/
def runTurns : List Turn → State → Host.Outcome State Fault Refusal
  | [], s => .next s
  | t :: ts, s => hostThen (step { s with turns := [t] }) (runTurns ts)

/-- The Argon2 procedure (R224), all six steps: where CFG raises CONFIG the program ends with no tag; else it wipes, seeds H0 and
the lanes, iterates, finalises, reads the tag, and releases the arena. The answer is the last state and the tag, for a T that
HPINIT accepts (assumption log 16). -/
def argon2Program (polls : Nat) (p m t : BitVec 32) (y : BitVec 2) (tagLen : Nat) (pwd salt secret assoc : List Byte)
    (s : State) : Host.Outcome (State × Option (List Byte)) Fault Refusal :=
  hostThen (runTurns (argon2Configure polls p m t y) s) fun u =>
    if lastCommandFailed u then .next (u, none)
    else
      hostThen (runTurns (argon2Seed polls p m t y tagLen pwd salt secret assoc ++ argon2Lanes polls p m
          ++ argon2Iterate polls p t ++ argon2Finalise polls p m tagLen ++ argon2TagReads tagLen) u) fun v =>
        hostThen (runTurns (hostCommand polls .wipe) v) fun w => .next (w, some (tagBytes tagLen v))

end Sys2Proof.Machine
end

