-- ==== Sys2Proof/Laws/HostProgram.lean ====
section
/-! SUPPORT. Laws of host programs: the length fields, programs in sequence, that a program's turns are all taken, and where the Argon2 procedure
ends. -/

namespace Sys2Proof.Machine

/-- A length that fits 32 bits is written as itself; no free value is in it (00_scope.md R12). -/
theorem le32Length_of_lt {n : Nat} (h : n < 2 ^ 32) : le32Length n = le32 (BitVec.ofNat 32 n) := by
  rw [le32Length, if_pos h]

/-- Every length takes four bytes, the overlong ones too. -/
@[simp] theorem le32Length_length (n : Nat) : (le32Length n).length = 4 := rfl

theorem lengthPrefixed_length (x : List Byte) : (lengthPrefixed x).length = 4 + x.length := by
  rw [lengthPrefixed, List.length_append, le32Length_length]

@[simp] theorem hostThen_next {α : Type} (s : State) (k : State → Host.Outcome α Fault Refusal) :
    hostThen (.next s) k = k s := rfl

theorem hostThen_assoc {α : Type} (r : Host.Outcome State Fault Refusal) (f : State → Host.Outcome State Fault Refusal)
    (g : State → Host.Outcome α Fault Refusal) : hostThen (hostThen r f) g = hostThen r fun s => hostThen (f s) g := by
  cases r <;> rfl

@[simp] theorem runTurns_nil (s : State) : runTurns [] s = .next s := rfl

@[simp] theorem runTurns_cons (t : Turn) (ts : List Turn) (s : State) :
    runTurns (t :: ts) s = hostThen (step { s with turns := [t] }) (runTurns ts) := rfl

/-- Running two programs in sequence is running their concatenation. -/
theorem runTurns_append (ts us : List Turn) (s : State) :
    runTurns (ts ++ us) s = hostThen (runTurns ts s) (runTurns us) := by
  induction ts generalizing s with
  | nil => rfl
  | cons t ts ih =>
    rw [List.cons_append, runTurns_cons, runTurns_cons, hostThen_assoc]
    exact congrArg _ (funext ih)

/-- A CONFIG error ends the procedure (46_control.md R224 step 1): nothing runs after CFGSET, and there is no tag. -/
theorem argon2Program_of_rejected {polls : Nat} {p m t : BitVec 32} {y : BitVec 2} {s u : State}
    (h : runTurns (argon2Configure polls p m t y) s = .next u) (hu : lastCommandFailed u = true)
    (tagLen : Nat) (pwd salt secret assoc : List Byte) :
    argon2Program polls p m t y tagLen pwd salt secret assoc s = .next (u, none) := by
  simp [argon2Program, h, hu]

/-- A tag has the length asked for, once its words are read (R224 step 5). -/
theorem tagBytes_length {tagLen : Nat} {s : State} (h : tagWords tagLen ≤ s.readLog.length) :
    (tagBytes tagLen s).length = tagLen := by
  simp only [tagBytes, List.length_take, wordsBytes_length, List.length_reverse]
  unfold tagWords at *
  omega

end Sys2Proof.Machine
end

