-- ==== Sys2Proof/Laws/PerInstr.lean ====
section
/-! SUPPORT. Statements about every command as syntax, one lemma per constructor. -/

namespace Sys2Proof.Laws.EncodeWord

/-- The encoder puts OP into the low byte of a well-formed command's word and leaves bits 63:32 and 15:9 zero
(30_encoding.md R90, R94). -/
def Statement (i : Instr) : Prop :=
  i.wellFormed = true →
    (encode i).toNat % 256 = opcode i ∧ (encode i).toNat < 2 ^ 32 ∧ (encode i).toNat / 2 ^ 9 % 2 ^ 7 = 0

theorem nop : Statement .nop := fun _ => by decide
theorem wipe : Statement .wipe := fun _ => by decide
theorem cfg : Statement .cfg := fun _ => by decide
theorem scrub : Statement .scrub := fun _ => by decide
theorem bzero : Statement .bzero := fun _ => by decide
theorem bxor : Statement .bxor := fun _ => by decide

theorem b2init (nn kk : Nat) : Statement (.b2init nn kk) := fun h => by
  rw [(encode_toNat h).1]
  simp only [Instr.wellFormed, Bool.and_eq_true, decide_eq_true_eq] at h
  simp only [opcode, operandBits]
  omega

theorem b2upd (len : Nat) : Statement (.b2upd len) := fun h => by
  rw [(encode_toNat h).1]
  simp only [Instr.wellFormed, decide_eq_true_eq] at h
  simp only [opcode, operandBits]
  omega

theorem b2updb : Statement .b2updb := fun _ => by decide
theorem b2updd : Statement .b2updd := fun _ => by decide
theorem b2fin : Statement .b2fin := fun _ => by decide

theorem hpinit (t : Nat) : Statement (.hpinit t) := fun h => by
  rw [(encode_toNat h).1]
  simp only [Instr.wellFormed, decide_eq_true_eq] at h
  simp only [opcode, operandBits]
  omega

theorem hpfin : Statement .hpfin := fun _ => by decide
theorem gcmp (w : Bool) : Statement (.gcmp w) := fun _ => by cases w <;> decide
theorem agseg : Statement .agseg := fun _ => by decide
theorem agnext : Statement .agnext := fun _ => by decide
theorem fillstep : Statement .fillstep := fun _ => by decide
theorem fillseg : Statement .fillseg := fun _ => by decide

end Sys2Proof.Laws.EncodeWord
end

