-- ==== Sys2Proof/Tests/Slice0.lean ====
section
/-! SUPPORT. Tests: the smoke test of WellFormed, words written out from the encoding tables, single steps with the values of the
spec's examples and vectors, and a witness for every obligation that has hypotheses. -/

open Sys2Proof Sys2Proof.Machine

namespace Sys2Proof.Tests

/- The tests are checked one after another: the larger kernel evaluations side by side take much memory. -/
set_option Elab.async false

/-! ## WellFormed: an ill-formed term for each check, and the largest value that each check accepts -/

theorem test_wellFormed_refuses_nn : (Instr.b2init 256 0).wellFormed = false := by decide
theorem test_wellFormed_refuses_kk : (Instr.b2init 0 256).wellFormed = false := by decide
theorem test_wellFormed_refuses_len : (Instr.b2upd 65536).wellFormed = false := by decide
theorem test_wellFormed_refuses_t : (Instr.hpinit 65536).wellFormed = false := by decide
theorem test_wellFormed_accepts : (Instr.b2init 255 255).wellFormed = true ∧ (Instr.b2upd 65535).wellFormed = true ∧
    (Instr.hpinit 65535).wellFormed = true := by decide

/-! ## Decode: every constructor's word, written out from 30_encoding.md R90, R92, R94: reserved ‖ IMM ‖ reserved, W ‖ OP -/

theorem test_decode_control :
    decode (0x00000000#32 ++ 0x0000#16 ++ 0b00000000#8 ++ 0x00#8) = .ok .nop ∧
    decode (0x00000000#32 ++ 0x0000#16 ++ 0b00000000#8 ++ 0x01#8) = .ok .wipe ∧
    decode (0x00000000#32 ++ 0x0000#16 ++ 0b00000000#8 ++ 0x02#8) = .ok .cfg ∧
    decode (0x00000000#32 ++ 0x0000#16 ++ 0b00000000#8 ++ 0x03#8) = .ok .scrub := by decide

theorem test_decode_block :
    decode (0x00000000#32 ++ 0x0000#16 ++ 0b00000000#8 ++ 0x08#8) = .ok .bzero ∧
    decode (0x00000000#32 ++ 0x0000#16 ++ 0b00000000#8 ++ 0x09#8) = .ok .bxor := by decide

theorem test_decode_blake2b :
    decode (0x00000000#32 ++ 0x10#8 ++ 0x40#8 ++ 0b00000000#8 ++ 0x10#8) = .ok (.b2init 64 16) ∧
    decode (0x00000000#32 ++ 0x0003#16 ++ 0b00000000#8 ++ 0x11#8) = .ok (.b2upd 3) ∧
    decode (0x00000000#32 ++ 0x0000#16 ++ 0b00000000#8 ++ 0x12#8) = .ok .b2updb ∧
    decode (0x00000000#32 ++ 0x0000#16 ++ 0b00000000#8 ++ 0x13#8) = .ok .b2updd ∧
    decode (0x00000000#32 ++ 0x0000#16 ++ 0b00000000#8 ++ 0x14#8) = .ok .b2fin := by decide

theorem test_decode_hprime :
    decode (0x00000000#32 ++ 0x0400#16 ++ 0b00000000#8 ++ 0x18#8) = .ok (.hpinit 1024) ∧
    decode (0x00000000#32 ++ 0x0000#16 ++ 0b00000000#8 ++ 0x19#8) = .ok .hpfin := by decide

theorem test_decode_compress :
    decode (0x00000000#32 ++ 0x0000#16 ++ 0b00000000#8 ++ 0x20#8) = .ok (.gcmp false) ∧
    decode (0x00000000#32 ++ 0x0000#16 ++ 0b00000001#8 ++ 0x20#8) = .ok (.gcmp true) := by decide

theorem test_decode_addrgen :
    decode (0x00000000#32 ++ 0x0000#16 ++ 0b00000000#8 ++ 0x28#8) = .ok .agseg ∧
    decode (0x00000000#32 ++ 0x0000#16 ++ 0b00000000#8 ++ 0x29#8) = .ok .agnext ∧
    decode (0x00000000#32 ++ 0x0000#16 ++ 0b00000000#8 ++ 0x2A#8) = .ok .fillstep ∧
    decode (0x00000000#32 ++ 0x0000#16 ++ 0b00000000#8 ++ 0x2B#8) = .ok .fillseg := by decide

/-- The four rejections of R95; 0x100 is R220's own example. -/
theorem test_decode_rejects :
    decode 0x0000000000000004#64 = .error .unassignedOpcode ∧ decode 0x00000000000000FF#64 = .error .unassignedOpcode ∧
    decode 0x0000000100000000#64 = .error .reservedBits ∧ decode 0x0000000000000200#64 = .error .reservedBits ∧
    decode 0x0000000000000100#64 = .error .strayW ∧ decode 0x0000000000010012#64 = .error .strayImm := by decide

theorem test_decodeTableWord : decodeTableWord 64 0x400010 = some (.b2init 64 0) ∧ decodeTableWord 64 0x04 = none := by
  decide

/-! ## Helpers -/

/-- An engine of 64 blocks just out of reset, its arena empty of listed bytes. -/
def fresh : State := State.afterReset 64 []

/-- The next state of a step, or the state itself. -/
def after (s : State) : State :=
  match step s with
  | .next t => t
  | _ => s

/-- One command word issued and executed. -/
def run (w : Nat) (s : State) : State := after (s.withFetchWord 64 w)

/-- The staged configuration of `CFGSET p, m, t, y` before its CFG. -/
def staged (p m t : BitVec 32) (y : BitVec 2) : State := { fresh with cfgP := p, cfgM := m, cfgT := t, cfgY := y }

/-- An active configuration, from the numbers that CFG computes. -/
def configured (p t q : BitVec 32) (y : BitVec 2) : State :=
  { fresh with
    actP := p, actT := t, actY := y, mprime := p * q, lanelen := q, seglen := q / 4
    status := { Status.zero with cfgv := true } }

/-- A segment that AGSEG has started in the data-dependent mode. -/
def segment (r l i : BitVec 32) (sl : BitVec 2) (s : State) : State :=
  { s with agPass := r, agSlice := sl, agLane := l, agIndex := i, status := { s.status with agact := true } }

/-- A segment that AGSEG has started in the data-independent mode. -/
def indSegment (r l i : BitVec 32) (sl : BitVec 2) (s : State) : State :=
  { segment r l i sl s with
    ag := { AddrGen.zero with ib := initInputBlock (r.setWidth 64) (l.setWidth 64) (sl.setWidth 64) s }
    status := { s.status with agact := true, agind := true } }

/-- The plain context of the example of R125: `B2INIT nn=64, kk=0`, with "abc" in MSG. -/
def plainAbc : State := { (run 0x400010 fresh) with msg := (Vector.replicate 16 0#64).set 0 0x636261#64 }

/-- The same for H′ (R144's example): `HPINIT t=65`. -/
def hprimeAbc : State := { (run 0x410018 fresh) with msg := (Vector.replicate 16 0#64).set 0 0x636261#64 }

/-- Words 0 and 127 of the block X of the vectors, `X[w] = w`, in block 1, the rest 0 (R161): byte 2040 is 127. -/
def countingBlock : State := { fresh with arena := [(2040, 127)] }

/-! ## Single steps -/

/-- R220: after NOP, STATUS reads DONE = 1 alone, at the first step after reset. -/
theorem test_nop_status : readOffset 0x02 (run 0x00 fresh) = 0x2#64 := by decide +kernel

/-- R221's example: STATUS reads 0x10002 after WIPE with an active configuration, and the arena reads 0. -/
theorem test_wipe : readOffset 0x02 (run 0x01 (configured 4 3 8 2)) = 0x10002#64 ∧
    arenaRead (run 0x01 countingBlock) 255 = 0#64 := by decide +kernel

/-- R222's examples: `CFGSET 3, 40, 1, 0` latches, `CFGSET 4, 15, 3, 2` is a CONFIG error. -/
theorem test_cfg_latches :
    let t := run 0x02 (staged 3 40 1 0)
    (t.mprime = 36 ∧ t.lanelen = 12 ∧ t.seglen = 3 ∧ t.actP = 3 ∧ t.actT = 1) ∧ readOffset 0x02 t = 0x10002#64 := by
  decide +kernel
theorem test_cfg_rejects : readOffset 0x02 (run 0x02 (staged 4 15 3 2)) = 0x404#64 := by decide +kernel

/-- R223: MSG and DLEN read 0, STATUS reads DONE. -/
theorem test_scrub : readOffset 0x20 (run 0x03 plainAbc) = 0#64 ∧ (run 0x03 { fresh with dlen := 64 }).dlen = 0 := by
  decide +kernel

/-- R160: block 1 reads 0 after BZERO; block 64 of a 64-block arena is a RANGE error. -/
theorem test_bzero : arenaRead (run 0x08 { countingBlock with opa := 1 }) 255 = 0#64 ∧
    readOffset 0x02 (run 0x08 { fresh with opa := 64 }) = 0x504#64 := by decide +kernel

/-- R161's example: `Arena[1][w] = w` XOR 0xFF in block 2, words 0 and 127 of each. -/
theorem test_bxor :
    let t := run 0x09 { countingBlock with arena := [(2040, 127), (2048, 255), (3064, 255)], opa := 1, opb := 2 }
    arenaRead t 128 = 0xFF#64 ∧ arenaRead t 255 = 0x80#64 := by decide +kernel

/-- R124's example. -/
theorem test_b2init : (run 0x400010 fresh).ctx.h.get 0 = 0x6A09E667F2BDC948#64 ∧ (run 0x410010 fresh).status.err = true := by
  decide +kernel

/-- R125's example: three bytes buffered, nothing compressed. -/
theorem test_b2upd :
    let c := (run 0x30011 plainAbc).ctx
    c.buflen = 3 ∧ c.t = 0#128 ∧ c.buf.get 0 = 0x61#8 ∧ c.buf.get 2 = 0x63#8 ∧ c.buf.get 3 = 0#8 := by decide +kernel

/-- R234's example: B2UPD len=200 with no open context is a SEQUENCE error. -/
theorem test_b2upd_sequence : readOffset 0x02 (run 0xC80011 fresh) = 0x304#64 := by decide +kernel

/-- R126's example: LE32(32) and 1024 zero bytes leave the counter at 1024 and four bytes buffered. -/
theorem test_b2updb :
    let c := (run 0x12 { run 0x200018 fresh with opa := 5 }).ctx
    c.buflen = 4 ∧ c.t = 1024#128 := by decide +kernel

/-- R128's example: 64 digest bytes after the length prefix. -/
theorem test_b2updd : (run 0x13 { run 0x4000018 fresh with dlen := 64 }).ctx.buflen = 68 := by decide +kernel

/-- R127's example, 95_test_vectors.md V-B2-1: the digest of "abc". -/
theorem test_b2fin :
    let t := run 0x14 (run 0x30011 plainAbc)
    t.digest.get 0 = 0x0D4D1C983FA580BA#64 ∧ t.dlen = 64 ∧ t.status.b2mode = .idle := by decide +kernel

/-- R143's example: the length prefix 00 04 00 00. -/
theorem test_hpinit :
    let c := (run 0x4000018 fresh).ctx
    c.buflen = 4 ∧ c.buf.get 0 = 0#8 ∧ c.buf.get 1 = 4#8 := by decide +kernel

/-- R144's example, V-HP-5: T = 65 takes one chained hash, whose last byte is byte 64. -/
theorem test_hpfin :
    arenaRead (run 0x19 (run 0x30011 hprimeAbc)) 8 = 0x91#64 := by decide +kernel

/-- V-G-4: G of the zero block 2 and the block 1 whose word 0 is 1, by the overwriting form of GCMP. -/
theorem test_gcmp_overwrite :
    arenaRead (run 0x120 { fresh with arena := [(1024, 1)], opa := 0, opb := 2, opc := 1 }) 0 = 0x13F722FF1CF4C6F4#64 := by
  decide +kernel

/-- V-G-3: G of the block `X[w] = w` and the zero block. -/
theorem test_compressG :
    (compressG (Vector.ofFn fun w => BitVec.ofNat 64 w.val) zeroBlock).get 1 = 0xEAF582377F3B0190#64 := by decide +kernel

/-- R192's example: `SETOP 0, 1, 2` in a four-lane Argon2id configuration. -/
theorem test_agseg :
    let t := run 0x28 { configured 4 3 8 2 with opa := 0, opb := 1, opc := 2 }
    t.agIndex = 0 ∧ t.agCtr = 0 ∧ t.status.agind = true ∧ t.status.agact = true ∧ t.ag.ib.get 1 = 2#64 := by
  decide +kernel

/-- R195's example, V-AG-5. -/
theorem test_agnext :
    let t := run 0x29 (arenaWrite (segment 1 1 0 0 (configured 2 2 16 0)) (31 * 128) 0x0000000300000007#64)
    t.curBlk = 16 ∧ t.prevBlk = 31 ∧ t.prand = 0x300000007#64 ∧ t.refLane = 1 ∧ t.refIndex = 14 ∧ t.refBlk = 30 ∧
      t.agIndex = 1 := by decide +kernel

/-- The same position by FILLSTEP (R201): the registers of AGNEXT. At the segment's end it is a SEQUENCE error. -/
theorem test_fillstep :
    let t := run 0x2A (arenaWrite (segment 1 1 0 0 (configured 2 2 16 0)) (31 * 128) 0x0000000300000007#64)
    t.curBlk = 16 ∧ t.refBlk = 30 ∧ t.prevBlk = 31 ∧ t.agIndex = 1 := by decide +kernel
theorem test_fillstep_end : (run 0x2A (segment 1 1 4 0 (configured 2 2 16 0))).status.errCode = some .sequence := by
  decide +kernel

/-- R202: FILLSEG ends at SEGLEN, and does nothing on a finished segment. -/
theorem test_fillseg : (run 0x2B (segment 0 0 2 0 (configured 1 1 16 0))).agIndex = 4 := by decide +kernel
theorem test_fillseg_finished : readOffset 0x02 (run 0x2B (segment 0 0 2 0 (configured 1 1 8 0))) = 0x290002#64 := by
  decide +kernel

/-- R95: an unassigned opcode as the first command after reset is ILLEGAL. -/
theorem test_illegal : readOffset 0x02 (run 0x04 fresh) = 0x104#64 := by decide +kernel

/-- R224 step 1: a CONFIG error (R222's example) ends the procedure with no tag; a valid configuration does not end it there. -/
theorem test_argon2_config_error :
    (match argon2Program 1 4#32 15#32 3#32 2#2 32 [] [] [] [] fresh with
     | .next (u, none) => u.status.errCode == some .config && u.status.cfgv == false
     | _ => false) = true ∧
    (match runTurns (argon2Configure 1 3#32 40#32 1#32 0#2) fresh with
     | .next u => !lastCommandFailed u && u.status.cfgv
     | _ => false) = true := by decide +kernel

/-- R224 step 5: the first T bytes of the words read, the first word first, a word's low byte first (R70). -/
theorem test_argon2_tag :
    tagBytes 10 { fresh with readLog := [0x0A09#64, 0x0807060504030201#64, 0xFF#64] } = [1, 2, 3, 4, 5, 6, 7, 8, 9, 10] ∧
    argon2TagReads 9 = [.host (.readArena 0), .host (.readArena 1)] ∧ argon2TagReads 8 = [.host (.readArena 0)] := by decide +kernel

/-- R72: an empty field is LE32(0) and no bytes; R12: the length of a short one, its low byte first. -/
theorem test_lengthPrefixed : lengthPrefixed [] = [0, 0, 0, 0] ∧ lengthPrefixed [0xAB, 0xCD] = [2, 0, 0, 0, 0xAB, 0xCD] ∧
    le32Length 0x01020304 = [4, 3, 2, 1] := by decide

/-! ## Witnesses: for every obligation with hypotheses, a state and operands that meet them -/

/-- A two-lane Argon2d configuration, block 31's first word drawn, and lane 1's first segment of pass 1: the reference goes to
lane 0. -/
def crossLane : State := segment 1 1 0 0 { configured 2 2 16 0 with arena := [(31744, 7), (31748, 2)] }

/-- One lane of four blocks and the segment (0, 1, 0): the empty reference area of R199. -/
def emptyArea : State := segment 0 0 0 1 (configured 1 1 4 0)

/-- Argon2i with 32 blocks in one lane, the segment (0, 0, 0) of V-AG-1, and the same with other arena contents. -/
def independent : State := indSegment 0 0 2 0 (configured 1 3 32 1)
def independentOther : State := indSegment 0 0 2 0 { configured 1 3 32 1 with arena := [(1024, 9)], opa := 5 }

/-- A state with an idle context, a zero digest and no address block: what is left to check of the invariant. -/
theorem inv_of_idle {s : State} (hp : ParamInv s) (ha : ArenaInv s) (hs : StatusInv s) (hc : ConfigInv s)
    (hx : s.status.b2mode = .idle ∧ s.ctx = Ctx.zero ∧ s.b2Outlen = 0 ∧ s.hpT = 0)
    (hd : s.digest = Vector.replicate 8 0#64 ∧ s.dlen = 0)
    (hg : s.ag.abv = false ∧ s.agCtr = 0 ∧
      (s.status.agact = true → s.status.cfgv = true ∧ s.agPass.toNat < s.actT.toNat ∧ s.agLane.toNat < s.actP.toNat ∧
        s.status.agind = addressMode s.actY s.agPass.toNat s.agSlice.toNat ∧
        firstIndex s.agPass.toNat s.agSlice.toNat ≤ s.agIndex.toNat ∧
        s.agIndex.toNat ≤ max s.seglen.toNat (firstIndex s.agPass.toNat s.agSlice.toNat)) ∧
      (s.status.agact = false → s.status.agind = false) ∧
      (s.status.agind = true →
        s.ag.ib = initInputBlock (s.agPass.setWidth 64) (s.agLane.setWidth 64) (s.agSlice.setWidth 64) s ∧
        s.agIndex.toNat = firstIndex s.agPass.toNat s.agSlice.toNat)) : Inv s := by
  obtain ⟨x1, x2, x3, x4⟩ := hx
  obtain ⟨g1, g2, g3, g4, g5⟩ := hg
  refine ⟨hp, ha, hs, hc, ⟨?_, ?_, ?_⟩, ⟨?_, ?_⟩, ⟨g3, g4, fun h => (g5 h).1, ?_, fun h _ => ⟨g2, (g5 h).2⟩, ?_⟩⟩
  · rw [x2]; exact ⟨by decide, by decide⟩
  · rw [x2]; exact fun _ => rfl
  · rw [x1]; exact ⟨x2, by rw [x3]; rfl, by rw [x4]; rfl⟩
  · rw [hd.2]; decide
  · rw [hd.1]; intro k hk h; clear h; revert hk; revert k; decide
  · rw [g1]; intro h; cases h
  · rw [g1]; intro _ h; cases h

theorem inv_fresh : Inv fresh :=
  inv_of_idle (by decide) rfl (by decide) (by decide) ⟨rfl, rfl, rfl, rfl⟩ ⟨rfl, rfl⟩ ⟨rfl, rfl, by decide, by decide, by decide⟩

theorem inv_configured : Inv (configured 2 2 16 0) :=
  inv_of_idle (by decide) rfl (by decide) (by decide) ⟨rfl, rfl, rfl, rfl⟩ ⟨rfl, rfl⟩ ⟨rfl, rfl, by decide, by decide, by decide⟩

theorem inv_crossLane : Inv crossLane :=
  inv_of_idle (by decide) (by decide) (by decide) (by decide) ⟨rfl, rfl, rfl, rfl⟩ ⟨rfl, rfl⟩
    ⟨rfl, rfl, by decide, by decide, by decide⟩

theorem inv_emptyArea : Inv emptyArea :=
  inv_of_idle (by decide) rfl (by decide) (by decide) ⟨rfl, rfl, rfl, rfl⟩ ⟨rfl, rfl⟩ ⟨rfl, rfl, by decide, by decide, by decide⟩

theorem inv_independent : Inv independent :=
  inv_of_idle (by decide) rfl (by decide) (by decide) ⟨rfl, rfl, rfl, rfl⟩ ⟨rfl, rfl⟩
    ⟨rfl, rfl, by decide, by decide, fun _ => ⟨rfl, rfl⟩⟩

theorem inv_independentOther : Inv independentOther :=
  inv_of_idle (by decide) (by decide) (by decide) (by decide) ⟨rfl, rfl, rfl, rfl⟩ ⟨rfl, rfl⟩
    ⟨rfl, rfl, by decide, by decide, fun _ => ⟨rfl, rfl⟩⟩

theorem witness_DecodeOfEncodeIsTheCommand : (Instr.b2init 255 255).wellFormed = true := by decide

theorem witness_EncodeOfDecodeIsTheWord : decode 0x00000000FFFF0011#64 = .ok (.b2upd 65535) := by decide

theorem witness_DecodeAcceptsExactlyTheOpcodeTable :
    ⟨"GCMP", 0x20#64, maskW⟩ ∈ opcodeTable ∧ 0x120#64 &&& maskW = 0x20#64 := by decide

/-- A state whose CMD is no legal word, by each of the four tests. -/
theorem witness_IllegalWordsOnlyRaiseIllegal :
    ∀ w ∈ [0x04#64, 0x100000000#64, 0x100#64, 0x10012#64], ∀ i, decode ({ fresh with cmd := w } : State).cmd ≠ .ok i := by
  intro w hw i
  simp only [List.mem_cons, List.not_mem_nil, or_false] at hw
  rcases hw with rfl | rfl | rfl | rfl <;> exact fun h => by cases h

/-- An engine's turn and no turn left, each with BUSY = 1 and BUSY = 0, on a legal word and on an illegal one. -/
theorem witness_StepRunsTheDecodedCommand :
    (∀ w ∈ [0x29#64, 0xFF#64], ∀ b,
      let s : State := { fresh with cmd := w, turns := [.engine], status := { Status.zero with busy := b } }
      let u : State := { s with turns := [] }
      s.turns = .engine :: [] ∧ u.turns = [] ∧ s.status.busy = b ∧ u.status.busy = b) ∧
    decode ({ fresh with cmd := 0x29#64 } : State).cmd = .ok .agnext ∧
    ∀ i, decode ({ fresh with cmd := 0xFF#64 } : State).cmd ≠ .ok i :=
  ⟨fun _ _ _ => ⟨rfl, rfl, rfl, rfl⟩, by decide, fun i h => by cases h⟩

theorem witness_FetchWordRunsInTheNextStep : (Instr.hpinit 65535).wellFormed = true := by decide

theorem witness_EveryCommandCompletesOrIsRejectedPrecisely :
    ∀ i, decode ({ fresh with cmd := 0xFF#64 } : State).cmd ≠ .ok i := fun i h => by cases h

/-- One state for each clause; for AGNEXT also the boundary AG_INDEX = SEGLEN. -/
theorem witness_SequenceErrorsComeFirst :
    fresh.status.b2mode = .idle ∧ hprimeAbc.status.b2mode ≠ .plain ∧ plainAbc.status.b2mode ≠ .hprime ∧
    fresh.status.cfgv = false ∧ fresh.status.agact = false ∧
    (segment 1 1 4 0 (configured 2 2 16 0)).seglen.toNat ≤ (segment 1 1 4 0 (configured 2 2 16 0)).agIndex.toNat := by
  decide +kernel

/-- NN and KK just outside their range, T just outside its range, and for CFG each of its five causes: the last with MPRIME one
step above the arena. -/
theorem witness_ConfigErrorsOfParameters :
    64 < 65 ∧ 1024 < 1025 ∧ (staged 0 8 1 0).cfgP.toNat = 0 ∧ (staged 1 8 0 0).cfgT.toNat = 0 ∧
    (staged 1 8 1 3).cfgY.toNat = 3 ∧ (staged 2 7 1 0).cfgM.toNat < 4 * (staged 2 7 1 0).cfgP.toNat ∧
    (staged 1 68 1 0).arenaBlocks < 4 * (staged 1 68 1 0).cfgP.toNat *
      ((staged 1 68 1 0).cfgM.toNat / (4 * (staged 1 68 1 0).cfgP.toNat)) := by decide

/-- Each operand at its bound: block ARENA_BLOCKS, LEN 129, pass ACT_T, slice 4, lane ACT_P. -/
theorem witness_RangeErrorsOfOperands :
    ({ fresh with opa := 64 } : State).arenaBlocks ≤ ({ fresh with opa := 64 } : State).opa.toNat ∧
    plainAbc.status.b2mode ≠ .idle ∧ 128 < 129 ∧ hprimeAbc.status.b2mode = .hprime ∧
    (let s := { configured 2 2 16 0 with opa := 2, opb := 4, opc := 2 }
     s.status.cfgv = true ∧ s.actT.toNat ≤ s.opa.toNat ∧ 4 ≤ s.opb.toNat ∧ s.actP.toNat ≤ s.opc.toNat) := by
  decide +kernel

theorem witness_CommandsKeepTheHostsRegisters : ∃ t, exec .cfg (staged 3 40 1 0) = .next t := ⟨_, rfl⟩

/-- "abc" about to be absorbed meets the invariant of the context. -/
theorem contextInv_plainAbc : ContextInv plainAbc :=
  ⟨⟨by decide +kernel, by decide +kernel⟩, by decide +kernel,
    (by decide +kernel : 1 ≤ plainAbc.b2Outlen.toNat ∧ plainAbc.b2Outlen.toNat ≤ 64 ∧ plainAbc.hpT.toNat = 0)⟩

/-- A command of the map, one that writes no register of it but STATUS, and B2FIN with the invariant of the context. -/
theorem witness_CommandsWriteOnlyTheirRegisters :
    (∃ t, exec .fillstep crossLane = .next t) ∧ (∃ t, exec .nop fresh = .next t) ∧
      ContextInv plainAbc ∧ ∃ t, exec .b2fin plainAbc = .next t :=
  ⟨⟨_, rfl⟩, ⟨_, rfl⟩, contextInv_plainAbc, _, rfl⟩

theorem witness_CmdWriteIssuesOrIsRefused :
    let s : State := { fresh with turns := [.host (.writeReg 0x01 0x14#64)] }
    s.turns = [.host (.writeReg 0x01 0x14#64)] ∧ s.status.busy = false ∧
      ({ s with status := { Status.zero with busy := true } } : State).status.busy = true := by decide

theorem witness_InterruptFollowsItsEnableAndCauses : fresh.status.busy = false := rfl

theorem witness_RegisterMapIsExact : regAt 0x3A = some .hpT ∧ regAt 0x2F = some (.msg 15) ∧ regAt 0x3B = none := by decide

/-- A write of OPA while BUSY = 0, one of CTRL while BUSY = 1, and registers of every access kind. -/
theorem witness_HostWritesReadBack :
    (let s : State := { fresh with turns := [.host (.writeReg 0x04 5#64)] }
     s.turns = [.host (.writeReg 0x04 5#64)] ∧ s.status.busy = false) ∧
    (let s : State := { fresh with turns := [.host (.writeReg 0x03 1#64)], status := { Status.zero with busy := true } }
     s.turns = [.host (.writeReg 0x03 1#64)] ∧ s.status.busy = true ∧ 0x03 ∈ [0x01, 0x02, 0x03]) ∧
    Reg.ctrl ≠ .cmd ∧ Reg.ctrl ≠ .status ∧ Reg.opa ≠ .ctrl ∧ Reg.dlen ≠ .cmd ∧ Reg.dlen ≠ .status := by decide

/-- The last word inside the arena and the first outside it, and a host write of each while BUSY = 0. -/
theorem witness_ArenaWordsAreStorage :
    8191 < 128 * fresh.arenaBlocks ∧ 128 * fresh.arenaBlocks ≤ 8192 ∧
    ∀ a ∈ [8191, 8192],
      let s : State := { fresh with turns := [.host (.writeArena a 7#64)] }
      s.turns = [.host (.writeArena a 7#64)] ∧ s.status.busy = false := by decide

theorem witness_HostReadsHaveNoSideEffect :
    let s : State := { fresh with turns := [.host (.readArena 8191)] }
    s.turns = [.host (.readArena 8191)] ∧ s.status.busy = false ∧ 0x03 ∈ [0x00, 0x02, 0x03] := by decide

/-- The fault of R270: an arena read while a command is pending. -/
theorem witness_OnlyUndefinedAccessesWhileBusyFault :
    step { fresh with turns := [.host (.readArena 0)], status := { Status.zero with busy := true } } =
      .fault (.accessWhileBusy (.readArena 0)) := rfl

theorem witness_ArenaSizeIsConstant : (∃ t, step fresh = .next t) ∧ ParamInv fresh := ⟨⟨_, rfl⟩, by decide⟩

theorem witness_ActiveConfigurationChangesOnlyByCfgOrReset :
    ∃ t, step ((staged 3 40 1 0).withFetchWord 64 0x02) = .next t := ⟨_, rfl⟩

theorem witness_ResetClearsEveryRegister :
    ({ plainAbc with turns := [.reset [(3, 7)]] } : State).turns = [.reset [(3, 7)]] := rfl

theorem witness_ResetCanDrawAnyArena : memWf (1024 * fresh.arenaBlocks) [(0, 1), (65535, 255)] = true := by decide

theorem witness_StepKeepsTheInvariant : Inv crossLane ∧ ∃ t, step (crossLane.withFetchWord 64 0x2A) = .next t :=
  ⟨inv_crossLane, ⟨_, rfl⟩⟩

theorem witness_StepKeepsTheArenaCanonical : ArenaInv crossLane ∧ ∃ t, step crossLane = .next t :=
  ⟨inv_crossLane.arena, ⟨_, rfl⟩⟩

theorem witness_WipeZeroesArenaAndHashingState : ArenaInv crossLane ∧ 8191 < 128 * crossLane.arenaBlocks :=
  ⟨inv_crossLane.arena, by decide⟩

/-- The boundary m = 4·p with MPRIME = ARENA_BLOCKS, and a value one below it. -/
theorem witness_CfgValidatesAndLatches :
    (let s := staged 16 64 1 2
     1 ≤ s.cfgP.toNat ∧ 1 ≤ s.cfgT.toNat ∧ s.cfgY.toNat ≤ 2 ∧ 4 * s.cfgP.toNat ≤ s.cfgM.toNat ∧
      4 * s.cfgP.toNat * (s.cfgM.toNat / (4 * s.cfgP.toNat)) ≤ s.arenaBlocks) ∧
    ¬ 4 * (staged 16 63 1 2).cfgP.toNat ≤ (staged 16 63 1 2).cfgM.toNat := by decide

/-- Block operands at the last block and one beyond it; for the block commands alike. -/
theorem witness_BzeroZeroesOneBlock :
    ({ fresh with opa := 63 } : State).opa.toNat < fresh.arenaBlocks ∧
    fresh.arenaBlocks ≤ ({ fresh with opa := 64 } : State).opa.toNat := by decide

theorem witness_BxorAccumulatesOneBlock :
    (let s : State := { fresh with opa := 63, opb := 63 }
     s.opa.toNat < s.arenaBlocks ∧ s.opb.toNat < s.arenaBlocks) ∧
    fresh.arenaBlocks ≤ ({ fresh with opb := 64 } : State).opb.toNat := by decide

theorem witness_GcmpCompressesIntoOneBlock :
    (let s : State := { fresh with opa := 63, opb := 63, opc := 0 }
     s.opa.toNat < s.arenaBlocks ∧ s.opb.toNat < s.arenaBlocks ∧ s.opc.toNat < s.arenaBlocks) ∧
    fresh.arenaBlocks ≤ ({ fresh with opc := 64 } : State).opc.toNat := by decide

theorem witness_OverwriteIsZeroThenAccumulate :
    let s : State := { fresh with opa := 63, opb := 0, opc := 0 }
    s.opa.toNat < s.arenaBlocks ∧ s.opb.toNat < s.arenaBlocks ∧ s.opc.toNat < s.arenaBlocks ∧ s.opa ≠ s.opb ∧
      s.opa ≠ s.opc := by decide

theorem witness_RoundOrderInsideAPassIsFree : (List.finRange 8).reverse.Perm (List.finRange 8) := List.reverse_perm _

theorem witness_B2initOpensAPlainContext : 1 ≤ 64 ∧ 64 ≤ 64 ∧ 1 ≤ 1 ∧ 0 ≤ 64 := by decide

theorem witness_AbsorbCommandsAppendTheirBytes :
    plainAbc.status.b2mode ≠ .idle ∧ hprimeAbc.status.b2mode ≠ .idle ∧ 128 ≤ 128 ∧ plainAbc.opa.toNat < plainAbc.arenaBlocks := by
  decide +kernel

/-- An empty buffer and a full one. -/
theorem witness_AbsorbKeepsTheBufferAndCounts : BufferInv Ctx.zero ∧ BufferInv { Ctx.zero with buflen := 128 } := by decide

/-- "ab" in one command against "a" and "b" in two. -/
theorem witness_AbsorbingInTwoCommandsIsAbsorbingAtOnce :
    let m' : Vector Word 16 := (Vector.replicate 16 0#64).set 0 0x62#64
    1 + 1 ≤ 128 ∧ plainAbc.status.b2mode ≠ .idle ∧
    (wordsBytes m'.toList).take 1 = ((wordsBytes plainAbc.msg.toList).drop 1).take 1 ∧
    ∃ u t t', exec (.b2upd 1) plainAbc = .next u ∧ exec (.b2upd 1) { u with msg := m' } = .next t ∧
      exec (.b2upd 2) plainAbc = .next t' :=
  ⟨by decide, by decide +kernel, by decide +kernel, _, _, _, rfl, rfl, rfl⟩

theorem witness_B2finWritesTheDigest : plainAbc.status.b2mode = .plain ∧ ContextInv plainAbc :=
  ⟨by decide +kernel, contextInv_plainAbc⟩

theorem witness_PlainHashOfOneMessage : 1 ≤ 1 ∧ 1 ≤ 64 ∧ 64 ≤ 64 ∧ 128 ≤ 128 := by decide

theorem witness_HpinitOpensAnHprimeContext : 1 ≤ 1024 ∧ 1024 ≤ 1024 := by decide

theorem witness_HpfinWritesTheOutputBlock :
    hprimeAbc.status.b2mode = .hprime ∧ ContextInv hprimeAbc ∧ hprimeAbc.opa.toNat < hprimeAbc.arenaBlocks :=
  ⟨by decide +kernel, ⟨⟨by decide +kernel, by decide +kernel⟩, by decide +kernel,
    (by decide +kernel : 1 ≤ hprimeAbc.hpT.toNat ∧ hprimeAbc.hpT.toNat ≤ 1024 ∧
      hprimeAbc.b2Outlen.toNat = min hprimeAbc.hpT.toNat 64)⟩, by decide +kernel⟩

theorem witness_HprimeOfOneMessage : 1 ≤ 1024 ∧ 1024 ≤ 1024 ∧ 128 ≤ 128 ∧ (63#64).toNat < fresh.arenaBlocks := by decide

theorem witness_HprimeLengthIsItsParameter : 1 ≤ 1 ∧ 1 ≤ 1024 ∧ 1024 ≤ 1024 := by decide

/-- The two sides of the boundary at 64. -/
theorem witness_HprimeShape : (1 ≤ 64 ∧ 64 ≤ 1024 ∧ 64 ≤ 64) ∧ (1 ≤ 65 ∧ 65 ≤ 1024 ∧ 64 < 65) := by decide

theorem witness_AgsegStartsASegment :
    let s := { configured 2 2 16 0 with opa := 1, opb := 3, opc := 1 }
    s.status.cfgv = true ∧ s.opa.toNat < s.actT.toNat ∧ s.opb.toNat < 4 ∧ s.opc.toNat < s.actP.toNat := by decide

/-- The data-dependent and the data-independent mode, and the empty reference area. -/
theorem witness_AgnextDerivesTheReference :
    (Inv crossLane ∧ crossLane.status.agact = true ∧ crossLane.agIndex.toNat < crossLane.seglen.toNat ∧
      crossLane.status.agind = false) ∧
    (Inv independent ∧ independent.status.agact = true ∧ independent.agIndex.toNat < independent.seglen.toNat ∧
      independent.status.agind = true) ∧
    (Inv emptyArea ∧ emptyArea.status.agact = true ∧ emptyArea.agIndex.toNat < emptyArea.seglen.toNat) :=
  ⟨⟨inv_crossLane, by decide⟩, ⟨inv_independent, by decide⟩, inv_emptyArea, by decide⟩

/-- Each row of R199 at its boundaries: the first position of pass 0, index 0 and the last index of a slice, in the current lane
and in another; two of them empty, for SEGLEN = 1. The areas are the rows' own formulas by hand. -/
theorem witness_IndexAlphaIsTheExactFormula :
    1 ≤ 32 ∧ 2 ^ 32 - 1 < 2 ^ 32 ∧
    referenceArea 0 0 2 32 8 true = 1 ∧ referenceArea 0 1 0 32 8 true = 7 ∧ referenceArea 0 3 7 32 8 true = 30 ∧
    referenceArea 0 1 0 32 8 false = 7 ∧ referenceArea 0 1 1 32 8 false = 8 ∧
    referenceArea 1 0 0 32 8 true = 23 ∧ referenceArea 1 3 7 32 8 true = 30 ∧
    referenceArea 1 0 0 32 8 false = 23 ∧ referenceArea 1 3 7 32 8 false = 24 ∧
    referenceArea 0 1 0 4 1 true = 0 ∧ referenceArea 0 1 0 4 1 false = 0 := by decide

theorem witness_StepBlocksStayInsideTheConfiguration :
    Inv crossLane ∧ crossLane.status.agact = true ∧ crossLane.agIndex.toNat < crossLane.seglen.toNat ∧
      ∃ t, exec .agnext crossLane = .next t := ⟨inv_crossLane, by decide, by decide, _, rfl⟩

theorem witness_ReferenceIsNeitherCurrentNorPrevious :
    Inv emptyArea ∧ emptyArea.status.agact = true ∧ emptyArea.agIndex.toNat < emptyArea.seglen.toNat ∧
      ∃ t, exec .agnext emptyArea = .next t := ⟨inv_emptyArea, by decide, by decide, _, rfl⟩

theorem witness_CrossLaneReferencesAvoidTheCurrentSlice :
    Inv crossLane ∧ crossLane.status.agact = true ∧ crossLane.agIndex.toNat < crossLane.seglen.toNat ∧
      ∃ t, exec .agnext crossLane = .next t ∧ t.refLane ≠ crossLane.agLane :=
  ⟨inv_crossLane, by decide, by decide, _, rfl, by decide +kernel⟩

theorem witness_DataIndependentAddressesIgnoreTheArena :
    Inv independent ∧ Inv independentOther ∧ independent.arena ≠ independentOther.arena ∧
    (independent.status.agind = true ∧ independentOther.status.agind = true ∧
      independent.agIndex.toNat < independent.seglen.toNat) ∧
    (independent.actP = independentOther.actP ∧ independent.actT = independentOther.actT ∧
      independent.actY = independentOther.actY ∧ independent.mprime = independentOther.mprime ∧
      independent.lanelen = independentOther.lanelen ∧ independent.seglen = independentOther.seglen ∧
      independent.agPass = independentOther.agPass ∧ independent.agSlice = independentOther.agSlice ∧
      independent.agLane = independentOther.agLane ∧ independent.agIndex = independentOther.agIndex) ∧
    ∃ t t', exec .agnext independent = .next t ∧ exec .agnext independentOther = .next t' :=
  ⟨inv_independent, inv_independentOther, by decide, by decide, by decide, _, _, rfl, rfl⟩

theorem witness_FillstepIsAgnextThenGcmp :
    Inv crossLane ∧ crossLane.status.agact = true ∧ crossLane.agIndex.toNat < crossLane.seglen.toNat :=
  ⟨inv_crossLane, by decide, by decide⟩

/-- A finished segment and an open one. -/
theorem witness_FillsegRepeatsFillstep :
    (let s := segment 1 1 4 0 (configured 2 2 16 0)
     s.status.agact = true ∧ s.seglen.toNat ≤ s.agIndex.toNat) ∧
    crossLane.status.agact = true ∧ crossLane.agIndex.toNat < crossLane.seglen.toNat := by decide

theorem witness_FillsegWritesOnlyItsSegment : Inv crossLane ∧ crossLane.status.agact = true := ⟨inv_crossLane, by decide⟩

theorem witness_LanesOfOneSliceCommute :
    let s := configured 2 2 16 0
    Inv s ∧ s.status.cfgv = true ∧ (1#64).toNat < s.actT.toNat ∧ (3#64).toNat < 4 ∧ (0#64).toNat < s.actP.toNat ∧
      (1#64).toNat < s.actP.toNat ∧ 0#64 ≠ 1#64 := ⟨inv_configured, by decide⟩

end Sys2Proof.Tests
end

/-! PROOFS. O27: every step keeps the invariant of the machine. One lemma per operation of the model says that the operation keeps
`Inv`; a command, a turn and a step are then put together from them by `commandResult`, `exec_next` and `step_next`. -/

namespace Sys2Proof.Machine

/-! ### What an accepted command's checks tell -/

/-- A computation behind a check succeeds when the check holds and the computation succeeds. -/
theorem ite_error_right_eq_ok {c : Prop} [Decidable c] {r : Except CmdError State} {e : CmdError} {t : State} :
    (if c then r else .error e) = .ok t ↔ c ∧ r = .ok t := by
  split <;> simp [*]

/-- A computation behind a rejecting check succeeds when the check fails and the computation succeeds. -/
theorem ite_error_left_eq_ok {c : Prop} [Decidable c] {r : Except CmdError State} {e : CmdError} {t : State} :
    (if c then .error e else r) = .ok t ↔ ¬c ∧ r = .ok t := by
  split <;> simp [*]

/-! ### Numbers that fit a register -/

theorem toNat_ofNat_of_lt {x n : Nat} (hx : x < 2 ^ n) : (BitVec.ofNat n x).toNat = x := by
  rw [BitVec.toNat_ofNat, Nat.mod_eq_of_lt hx]

theorem toNat_setWidth_of_lt {w : Word} {n : Nat} (hw : w.toNat < 2 ^ n) : (w.setWidth n).toNat = w.toNat := by
  rw [BitVec.toNat_setWidth, Nat.mod_eq_of_lt hw]

/-- A register that holds a word's low bits holds the whole word when the word fits. -/
theorem setWidth_setWidth_of_lt {w : Word} {n : Nat} (hw : w.toNat < 2 ^ n) : (w.setWidth n).setWidth 64 = w := by
  apply BitVec.eq_of_toNat_eq
  rw [BitVec.toNat_setWidth, toNat_setWidth_of_lt hw, Nat.mod_eq_of_lt w.isLt]

/-! ### Reports and host registers -/

section
variable {s : State} (h : Inv s)
include h

theorem Inv.popTurn : Inv (popTurn s) := { h with }

theorem Inv.logRead (v : Word) : Inv (logRead v s) := { h with }

theorem Inv.complete : Inv (complete s) := { h with status := ⟨h.status.1, fun hb => nomatch hb⟩ }

theorem Inv.raiseError (c : CmdError) : Inv (raiseError c s) := { h with status := ⟨rfl, fun hb => nomatch hb⟩ }

theorem Inv.issue (v : Word) : Inv (issue v s) := { h with status := ⟨rfl, fun _ => rfl⟩ }

theorem Inv.refuseIssue : Inv (refuseIssue s) := { h with status := ⟨rfl, h.status.2⟩ }

theorem Inv.writeStatus (v : Word) : Inv (writeStatus v s) := by
  obtain ⟨herr, hdone⟩ := h.status
  refine { h with status := ⟨?_, fun hb => ?_⟩ }
  · simp only [writeStatus_err, writeStatus_errCode]
    split
    · rfl
    · exact herr
  · simp only [writeStatus_done, hdone hb, ite_self]

theorem Inv.writeCmd (v : Word) : Inv (writeCmd v s) := by
  unfold Machine.writeCmd
  split
  · exact h.refuseIssue
  · exact h.issue v

/-- A host write to any register: CMD and STATUS change the report, and no other writable register is in the invariant. -/
theorem Inv.writeReg (r : Reg) (v : Word) : Inv (writeReg r v s) := by
  cases r with
  | cmd => exact h.writeCmd v
  | status => exact h.writeStatus v
  | _ => exact { h with }

theorem Inv.writeOffset (off : Nat) (v : Word) : Inv (writeOffset off v s) := by
  unfold Machine.writeOffset
  split
  · exact h.writeReg _ v
  · exact h

/-! ### The arena -/

theorem Inv.arenaWrite (a : Nat) (v : Word) : Inv (arenaWrite s a v) := by
  rw [arenaWrite_eq]
  exact { h with arena := memWf_arenaWrite s a v h.arena }

theorem Inv.blockWrite (b : Nat) (B : Block) : Inv (blockWrite s b B) := by
  rw [blockWrite_eq]
  exact { h with arena := memWf_blockWrite s b B h.arena }

theorem Inv.wipeArena : Inv (wipeArena s) := { h with arena := memWf_filter h.arena _ }

theorem Inv.busEffect (op : BusOp) : Inv (busEffect op s) := by
  cases op with
  | readReg off => exact h.logRead _
  | writeReg off v => exact h.writeOffset off v
  | readArena a => exact h.logRead _
  | writeArena a v => exact h.arenaWrite a v

end

/-! ### The BLAKE2b context -/

/-- Storing a byte at the fill level keeps the zeros behind the new fill level. -/
theorem bufferInv_push {c : Ctx} (h : BufferInv c) (hne : c.buflen ≠ 128) (x : Byte) :
    BufferInv { c with buf := c.buf.setIfInBounds c.buflen x, buflen := c.buflen + 1 } := by
  obtain ⟨hle, hzero⟩ := h
  refine ⟨by show c.buflen + 1 ≤ 128; omega, fun k hk => ?_⟩
  have hk : c.buflen + 1 ≤ k.val := hk
  show (c.buf.setIfInBounds c.buflen x)[k.val] = 0#8
  rw [Vector.getElem_setIfInBounds_ne _ (by omega)]
  exact hzero k (by omega)

/-- A flushed buffer is empty and zero. -/
theorem bufferInv_ctxFlush (c : Ctx) : BufferInv (ctxFlush c) :=
  ⟨Nat.zero_le _, fun k _ => by show (Vector.replicate 128 0#8)[k.val] = 0#8; simp⟩

theorem bufferInv_ctxAbsorbByte {c : Ctx} (h : BufferInv c) (x : Byte) : BufferInv (ctxAbsorbByte c x) := by
  by_cases hf : c.buflen = 128
  · rw [ctxAbsorbByte_of_full hf]
    exact bufferInv_push (bufferInv_ctxFlush c) (by decide : (0 : Nat) ≠ 128) x
  · rw [ctxAbsorbByte_of_ne hf]
    exact bufferInv_push h hf x

theorem bufferInv_ctxAbsorb {c : Ctx} (h : BufferInv c) (bs : List Byte) : BufferInv (ctxAbsorb c bs) := by
  induction bs generalizing c with
  | nil => exact h
  | cons x bs ih => exact ih (bufferInv_ctxAbsorbByte h x)

/-- A byte leaves the buffer non-empty (R116). -/
theorem ctxAbsorbByte_buflen_pos (c : Ctx) (x : Byte) : 0 < (ctxAbsorbByte c x).buflen := Nat.succ_pos _

/-- Absorbing keeps that a context with an empty buffer has counted nothing (R121). -/
theorem ctxAbsorb_counter_of_empty {c : Ctx} (h : c.buflen = 0 → c.t = 0#128) (bs : List Byte) :
    (ctxAbsorb c bs).buflen = 0 → (ctxAbsorb c bs).t = 0#128 := by
  induction bs generalizing c with
  | nil => exact h
  | cons x bs ih => exact ih fun he => absurd he (ctxAbsorbByte_buflen_pos c x).ne'

/-- A fresh context holds either a full key block or nothing (R115). -/
theorem bufferInv_ctxOpen (nn : Nat) (key : List Byte) : BufferInv (ctxOpen nn key) := by
  cases key with
  | nil => exact ⟨Nat.zero_le _, fun k _ => by show (bufferOf [])[k.val] = 0#8; simp [bufferOf]⟩
  | cons x key => exact ⟨le_rfl, fun k hk => absurd k.isLt (Nat.not_lt.2 hk)⟩

theorem contextInv_of_idle {s : State} (hm : s.status.b2mode = .idle) (hc : s.ctx = Ctx.zero) (ho : s.b2Outlen = 0)
    (ht : s.hpT = 0) : ContextInv s := by
  rw [ContextInv, hm, hc, ho, ht]
  exact ⟨by decide, fun _ => rfl, rfl, rfl, rfl⟩

theorem contextInv_of_plain {s : State} {nn : Nat} (hm : s.status.b2mode = .plain) (hb : BufferInv s.ctx)
    (hc : s.ctx.buflen = 0 → s.ctx.t = 0#128) (ho : s.b2Outlen.toNat = nn) (hlow : 1 ≤ nn) (hhigh : nn ≤ 64)
    (ht : s.hpT.toNat = 0) : ContextInv s := by
  rw [ContextInv, hm]
  exact ⟨hb, hc, ho ▸ hlow, ho ▸ hhigh, ht⟩

theorem contextInv_of_hprime {s : State} {n : Nat} (hm : s.status.b2mode = .hprime) (hb : BufferInv s.ctx)
    (hc : s.ctx.buflen = 0 → s.ctx.t = 0#128) (ht : s.hpT.toNat = n) (hlow : 1 ≤ n) (hhigh : n ≤ 1024)
    (ho : s.b2Outlen.toNat = min n 64) : ContextInv s := by
  rw [ContextInv, hm]
  exact ⟨hb, hc, ht ▸ hlow, ht ▸ hhigh, ht ▸ ho⟩

/-- An open context stays within its mode's bounds when it absorbs (R121). -/
theorem contextInv_absorbCtx {s : State} (h : ContextInv s) (ho : s.status.b2mode ≠ .idle) (bs : List Byte) :
    ContextInv (absorbCtx bs s) := by
  obtain ⟨hbuf, hctr, hmode⟩ := h
  refine ⟨bufferInv_ctxAbsorb hbuf bs, ctxAbsorb_counter_of_empty hctr bs, ?_⟩
  rw [absorbCtx_status, absorbCtx_b2Outlen, absorbCtx_hpT]
  cases hm : s.status.b2mode with
  | idle => exact absurd hm ho
  | plain => simpa only [hm] using hmode
  | hprime => simpa only [hm] using hmode

section
variable {s : State} (h : Inv s)
include h

theorem Inv.wipeCtx : Inv (wipeCtx s) := { h with context := contextInv_of_idle rfl rfl rfl rfl }

theorem Inv.absorbCtx (ho : contextOpen s = true) (bs : List Byte) : Inv (absorbCtx bs s) :=
  { h with context := contextInv_absorbCtx h.context (of_decide_eq_true ho) bs }

theorem Inv.cmdB2init {nn kk : Nat} {t : State} (hr : cmdB2init nn kk s = .ok t) : Inv t := by
  simp only [Machine.cmdB2init, ite_error_left_eq_ok, Except.ok.injEq] at hr
  obtain ⟨hc, rfl⟩ := hr
  exact { h with
    context := contextInv_of_plain rfl (bufferInv_ctxOpen _ _) (fun _ => rfl) (toNat_ofNat_of_lt (by omega)) (by omega)
      (by omega) rfl }

theorem Inv.cmdHpinit {n : Nat} {t : State} (hr : cmdHpinit n s = .ok t) : Inv t := by
  simp only [Machine.cmdHpinit, ite_error_left_eq_ok, Except.ok.injEq] at hr
  obtain ⟨hc, rfl⟩ := hr
  exact { h with
    context := contextInv_of_hprime rfl (bufferInv_ctxAbsorb (bufferInv_ctxOpen _ []) _)
      (ctxAbsorb_counter_of_empty (fun _ => rfl) _) (toNat_ofNat_of_lt (by omega)) (by omega) (by omega)
      (toNat_ofNat_of_lt (by omega)) }

end

/-! ### The digest registers -/

/-- Padding reads 0 everywhere, also behind its end. -/
theorem zeroBytes_getD (n k : Nat) : (zeroBytes n).getD k 0#8 = 0#8 := by
  rw [List.getD_eq_getElem?_getD]
  exact List.getElem?_getD_replicate_default_eq _ n k

/-- DIGEST and DLEN at 0, as after SCRUB, WIPE and reset. -/
theorem digestInv_of_zero {s : State} (hd : s.digest = Vector.replicate 8 0#64) (hl : s.dlen = 0) : DigestInv s := by
  have hz : wordsBytes (Vector.replicate 8 0#64).toList = zeroBytes 64 := by decide
  rw [DigestInv, hd, hl, hz]
  exact ⟨by decide, fun k _ _ => zeroBytes_getD 64 k⟩

/-- A digest of `nn` bytes, zero-padded to the register (R127). -/
theorem digestInv_writeDigest {nn : Nat} {d : List Byte} (hn : nn ≤ 64) (hd : d.length = nn) (s : State) :
    DigestInv (writeDigest nn d s) := by
  have hlen : (BitVec.ofNat 7 nn).toNat = nn := toNat_ofNat_of_lt (by omega)
  have hbytes : wordsBytes (bytesWords 8 (d ++ zeroBytes (64 - nn))).toList = d ++ zeroBytes (64 - nn) :=
    wordsBytes_bytesWords _ (by simp; omega)
  rw [DigestInv, writeDigest_dlen, writeDigest_digest, hlen, hbytes]
  refine ⟨hn, fun k hk hle => ?_⟩
  rw [List.getD_append_right _ _ _ _ (by omega)]
  exact zeroBytes_getD _ _

section
variable {s : State} (h : Inv s)
include h

theorem Inv.scrubRegs : Inv (scrubRegs s) := { h with digest := digestInv_of_zero rfl rfl }

theorem Inv.writeDigest {nn : Nat} {d : List Byte} (hn : nn ≤ 64) (hd : d.length = nn) : Inv (writeDigest nn d s) :=
  { h with digest := digestInv_writeDigest hn hd s }

/-- The digest length of an open plain context (R121). -/
theorem Inv.b2Outlen_le_of_plain (hm : s.status.b2mode = .plain) : s.b2Outlen.toNat ≤ 64 := by
  obtain ⟨-, -, hmode⟩ := h.context
  rw [hm] at hmode
  obtain ⟨-, hhigh, -⟩ := hmode
  exact hhigh

end

/-! ### No active segment -/

/-- No segment is active: there is nothing to say of its position. -/
theorem segmentInv_of_inactive {s : State} (hact : s.status.agact = false) (hind : s.status.agind = false)
    (hab : s.ag.abv = true → s.ag.ab = compressG zeroBlock (compressG zeroBlock s.ag.ib)) : SegmentInv s := by
  refine ⟨?_, fun _ => hind, ?_, hab, ?_, ?_⟩ <;> simp [hact, hind]

/-- The address block of a state that meets the invariant, active segment or not (R194). -/
theorem Inv.addressBlock {s : State} (h : Inv s) :
    s.ag.abv = true → s.ag.ab = compressG zeroBlock (compressG zeroBlock s.ag.ib) := by
  obtain ⟨-, -, -, hab, -, -⟩ := h.segment
  exact hab

theorem Inv.wipeAddrGen {s : State} (h : Inv s) : Inv (wipeAddrGen s) :=
  { h with segment := segmentInv_of_inactive rfl rfl (fun hv => nomatch hv) }

/-! ### The configuration -/

theorem configBlocks_le (p m : Nat) : configBlocks p m ≤ m := Nat.mul_div_le m (4 * p)

/-- LANELEN: a lane is four segments of `m / (4·p)` blocks (00_scope.md R9). -/
theorem configBlocks_div_lanes {p : Nat} (hp : 0 < p) (m : Nat) : configBlocks p m / p = 4 * (m / (4 * p)) := by
  rw [configBlocks, Nat.mul_comm 4 p, Nat.mul_assoc, Nat.mul_div_cancel_left _ hp]

/-- SEGLEN (00_scope.md R9). -/
theorem configBlocks_div_segments {p : Nat} (hp : 0 < p) (m : Nat) : configBlocks p m / (4 * p) = m / (4 * p) :=
  Nat.mul_div_cancel_left _ (by omega)

/-- The numbers that a successful CFG latches are those of R33. -/
theorem configInv_latchConfig {s : State} {p t : BitVec 32} {y : BitVec 2} {m : Nat} (hp : 1 ≤ p.toNat) (ht : 1 ≤ t.toNat)
    (hy : y.toNat ≤ 2) (hm : m < 2 ^ 32) (hlow : 4 * p.toNat ≤ m) (hfit : configBlocks p.toNat m ≤ s.arenaBlocks) :
    ConfigInv (latchConfig p t y (configBlocks p.toNat m) s) := by
  have hle := configBlocks_le p.toNat m
  have hseg : 1 ≤ m / (4 * p.toNat) := (Nat.one_le_div_iff (by omega)).2 hlow
  have hlane : 4 * (m / (4 * p.toNat)) ≤ m := by
    rw [← configBlocks_div_lanes hp]; exact (Nat.div_le_self _ _).trans hle
  have hblocks : configBlocks p.toNat m = p.toNat * (4 * (m / (4 * p.toNat))) := by
    rw [configBlocks]; ring
  intro _
  simp only [latchConfig_actP, latchConfig_actT, latchConfig_actY, latchConfig_seglen, latchConfig_lanelen,
    latchConfig_mprime, latchConfig_arenaBlocks, configBlocks_div_lanes hp, configBlocks_div_segments hp]
  rw [toNat_ofNat_of_lt (by omega), toNat_ofNat_of_lt (by omega), toNat_ofNat_of_lt (by omega)]
  exact ⟨hp, ht, hy, hseg, rfl, hblocks, hfit⟩

theorem Inv.cmdCfg {s t : State} (h : Inv s) (hr : cmdCfg s = .ok t) : Inv t := by
  simp only [Machine.cmdCfg, ite_error_left_eq_ok, Except.ok.injEq] at hr
  obtain ⟨hrange, hlow, hfit, rfl⟩ := hr
  exact { h with
    config := configInv_latchConfig (by omega) (by omega) (by omega) s.cfgM.isLt (by omega) (by omega)
    segment := segmentInv_of_inactive rfl rfl h.addressBlock }

/-! ### Starting a segment -/

theorem firstIndex_le (pass slice : Nat) : firstIndex pass slice ≤ 2 := by
  unfold firstIndex; split <;> omega

/-- AGSEG's effect in one equation: the position registers, the mode, and the hidden blocks (R192). -/
theorem startSegment_eq (pass slice lane : Word) (s : State) :
    startSegment pass slice lane s =
      { s with
        agPass := pass.setWidth 32, agSlice := slice.setWidth 2, agLane := lane.setWidth 32
        agIndex := BitVec.ofNat 32 (firstIndex pass.toNat slice.toNat), agCtr := 0
        status := { s.status with agind := addressMode s.actY pass.toNat slice.toNat, agact := true }
        ag := (startSegment pass slice lane s).ag } := by
  unfold startSegment; dsimp only; split <;> rfl

/-- A new segment has no address block yet (R192). -/
theorem startSegment_abv (pass slice lane : Word) (s : State) : (startSegment pass slice lane s).ag.abv = false := by
  unfold startSegment; dsimp only; split <;> rfl

/-- In the data-independent mode a new segment has its input block with counter 0 (R192, R193). -/
theorem startSegment_ib {pass slice lane : Word} {s : State} (hm : addressMode s.actY pass.toNat slice.toNat = true) :
    (startSegment pass slice lane s).ag.ib = initInputBlock pass lane slice { s with agCtr := 0 } := by
  unfold startSegment; dsimp only; rw [if_pos hm]; rfl

theorem segmentInv_startSegment {pass slice lane : Word} {s : State} (hcfg : s.status.cfgv = true)
    (hpass : pass.toNat < s.actT.toNat) (hslice : slice.toNat < 4) (hlane : lane.toNat < s.actP.toNat) :
    SegmentInv (startSegment pass slice lane s) := by
  have hpass' : pass.toNat < 2 ^ 32 := hpass.trans s.actT.isLt
  have hlane' : lane.toNat < 2 ^ 32 := hlane.trans s.actP.isLt
  have hfirst : (BitVec.ofNat 32 (firstIndex pass.toNat slice.toNat)).toNat = firstIndex pass.toNat slice.toNat :=
    toNat_ofNat_of_lt ((firstIndex_le _ _).trans_lt (by decide))
  have habv := startSegment_abv pass slice lane s
  have hib := startSegment_ib (pass := pass) (slice := slice) (lane := lane) (s := s)
  rw [startSegment_eq]
  simp only [SegmentInv, toNat_setWidth_of_lt hpass', toNat_setWidth_of_lt hlane', toNat_setWidth_of_lt (n := 2) hslice,
    setWidth_setWidth_of_lt hpass', setWidth_setWidth_of_lt hlane', setWidth_setWidth_of_lt (n := 2) hslice, hfirst, habv]
  exact ⟨fun _ => ⟨hcfg, hpass, hlane, trivial, le_rfl, le_max_right _ _⟩, fun h => (nomatch h), hib, fun h => (nomatch h),
    fun _ _ => ⟨rfl, trivial⟩, fun _ h => (nomatch h)⟩

theorem Inv.cmdAgseg {s t : State} (h : Inv s) (hr : cmdAgseg s = .ok t) : Inv t := by
  simp only [Machine.cmdAgseg, ite_error_right_eq_ok, ite_error_left_eq_ok, Except.ok.injEq] at hr
  obtain ⟨hcfg, hrange, rfl⟩ := hr
  have hseg : SegmentInv (startSegment s.opa s.opb s.opc s) :=
    segmentInv_startSegment hcfg (by omega) (by omega) (by omega)
  rw [startSegment_eq] at hseg ⊢
  exact { h with segment := hseg }

/-! ### A step of the address generator -/

/-- The counter is word 6 of the input block (R193). -/
theorem initInputBlock_set_counter (pass lane slice : Word) (s : State) (ctr : Word) :
    (initInputBlock pass lane slice s).set 6 ctr = initInputBlock pass lane slice { s with agCtr := ctr } := by
  refine Vector.ext fun k hk => ?_
  simp only [initInputBlock, inputBlock, Vector.getElem_set, Vector.getElem_ofFn]
  match k with
  | 0 | 1 | 2 | 3 | 4 | 5 | 6 => rfl
  | k + 7 => rw [if_neg (by omega)]; rfl

section
variable {s : State}

/-- A due refill keeps the input block that of R193, its counter included. -/
theorem refillIfDue_ib {pass lane slice : Word} (h : s.ag.ib = initInputBlock pass lane slice s) :
    (refillIfDue s).ag.ib = initInputBlock pass lane slice (refillIfDue s) := by
  unfold refillIfDue
  split
  · show s.ag.ib.set 6 (s.agCtr + 1) = _
    rw [h, initInputBlock_set_counter]
    rfl
  · exact h

/-- A refill computes the address block from the input block (R194). -/
theorem refillIfDue_ab (h : s.ag.abv = true → s.ag.ab = compressG zeroBlock (compressG zeroBlock s.ag.ib)) :
    (refillIfDue s).ag.abv = true →
      (refillIfDue s).ag.ab = compressG zeroBlock (compressG zeroBlock (refillIfDue s).ag.ib) := by
  unfold refillIfDue
  split
  · exact fun _ => rfl
  · exact h

/-- In the data-independent mode there is an address block once a due refill is made (R197). -/
theorem refillIfDue_abv (hind : s.status.agind = true) : (refillIfDue s).ag.abv = true := by
  unfold refillIfDue
  split
  · rfl
  · rename_i hdue
    simp only [needsRefill, hind, Bool.true_and, Bool.or_eq_true, Bool.not_eq_true', not_or, Bool.not_eq_false] at hdue
    exact hdue.1

/-- After a due refill the counter is the number of the group of 128 that the position `i` is in, counted from 1: the refill
comes exactly at a group's first position, or at the segment's (R197). -/
theorem refillIfDue_agCtr (h : SegmentInv s) (hind : s.status.agind = true) :
    (refillIfDue s).agCtr.toNat = s.agIndex.toNat / 128 + 1 := by
  obtain ⟨-, -, -, -, hnew, hold⟩ := h
  have hfirst := firstIndex_le s.agPass.toNat s.agSlice.toNat
  cases habv : s.ag.abv with
  | false =>
    obtain ⟨hctr, hidx⟩ := hnew hind habv
    have hdue : needsRefill s = true := by simp [needsRefill, hind, habv]
    rw [refillIfDue, if_pos hdue, refill_agCtr, hctr, hidx, Nat.div_eq_of_lt (by omega)]
    rfl
  | true =>
    obtain ⟨hpos, hctr⟩ := hold hind habv
    have hlt := s.agIndex.isLt
    by_cases hdue : s.agIndex.toNat % 128 = 0
    · rw [refillIfDue, if_pos (by simp [needsRefill, hind, hdue]), refill_agCtr, BitVec.toNat_add, hctr]
      show (_ + 1) % 2 ^ 64 = _
      omega
    · rw [refillIfDue, if_neg (by simp [needsRefill, hind, habv, hdue]), hctr]
      omega

@[simp] theorem agStep_ag (s : State) : (agStep s).ag = (refillIfDue s).ag := rfl
@[simp] theorem agStep_agCtr (s : State) : (agStep s).agCtr = (refillIfDue s).agCtr := rfl

/-- The next position of an open segment (R195). -/
theorem agStep_agIndex_toNat (hopen : s.agIndex.toNat < s.seglen.toNat) :
    (agStep s).agIndex.toNat = s.agIndex.toNat + 1 := by
  have := s.seglen.isLt
  rw [agStep_agIndex, BitVec.toNat_add]
  show (_ + 1) % 2 ^ 32 = _
  omega

/-- The input block names the registers that AGNEXT keeps, and the counter (R193). -/
theorem initInputBlock_agStep (pass lane slice : Word) :
    initInputBlock pass lane slice (agStep s) = initInputBlock pass lane slice (refillIfDue s) := rfl

/-- AGNEXT on an open segment keeps the invariant of the address generator (R195). -/
theorem segmentInv_agStep (h : SegmentInv s) (hact : s.status.agact = true)
    (hopen : s.agIndex.toNat < s.seglen.toNat) : SegmentInv (agStep s) := by
  have hctr := refillIfDue_agCtr h
  obtain ⟨hactive, hidle, hib, hab, -, -⟩ := h
  obtain ⟨hcfg, hpass, hlane, hmode, hlow, hhigh⟩ := hactive hact
  have hidx := agStep_agIndex_toNat hopen
  simp only [SegmentInv, hidx, agStep_status, agStep_actT, agStep_actP, agStep_actY, agStep_seglen, agStep_agPass,
    agStep_agSlice, agStep_agLane, agStep_ag, agStep_agCtr, initInputBlock_agStep]
  refine ⟨fun _ => ⟨hcfg, hpass, hlane, hmode, by omega, by omega⟩, hidle, fun hind => refillIfDue_ib (hib hind),
    refillIfDue_ab hab, fun hind habv => ?_, fun hind _ => ⟨by omega, hctr hind⟩⟩
  rw [refillIfDue_abv hind] at habv
  cases habv

end

/-- The invariant speaks of what AGNEXT writes in its last part alone. -/
theorem inv_of_dropStep_eq {s t : State} (h : Inv s) (hd : dropStep t = dropStep s) (hseg : SegmentInv t) : Inv t where
  param := (congrArg ParamInv hd).mpr h.param
  arena := (congrArg ArenaInv hd).mpr h.arena
  status := (congrArg StatusInv hd).mpr h.status
  config := (congrArg ConfigInv hd).mpr h.config
  context := (congrArg ContextInv hd).mpr h.context
  digest := (congrArg DigestInv hd).mpr h.digest
  segment := hseg

/-- A segment with a next position (R195). -/
theorem segmentOpen_iff {s : State} :
    segmentOpen s = true ↔ s.status.agact = true ∧ s.agIndex.toNat < s.seglen.toNat := by
  simp [segmentOpen]

section
variable {s : State} (h : Inv s)
include h

theorem Inv.agStep (ho : segmentOpen s = true) : Inv (agStep s) :=
  have ⟨hact, hopen⟩ := segmentOpen_iff.1 ho
  inv_of_dropStep_eq h (dropStep_agStep s) (segmentInv_agStep h.segment hact hopen)

theorem Inv.fillBody (ho : segmentOpen s = true) : Inv (fillBody s) := (h.agStep ho).blockWrite _ _

theorem Inv.fillLoop (hact : s.status.agact = true) (fuel : Nat) : Inv (fillLoop fuel s) := by
  induction fuel generalizing s with
  | zero => exact h
  | succ fuel ih =>
    rw [Machine.fillLoop]
    split
    · next hopen => exact ih (h.fillBody (segmentOpen_iff.2 ⟨hact, hopen⟩)) (by rw [fillBody_status, hact])
    · exact h

/-! ### Commands, turns and steps -/

/-- A command that completes does so on a state that meets the invariant. -/
theorem Inv.commandResult {i : Instr} {t : State} (hr : commandResult s i = .ok t) : Inv t := by
  cases i with
  | nop => cases hr; exact h
  | wipe => cases hr; exact h.wipeArena.scrubRegs.wipeCtx.wipeAddrGen
  | cfg => exact h.cmdCfg hr
  | scrub => cases hr; exact h.scrubRegs
  | bzero =>
    obtain ⟨-, ⟨⟩⟩ := ite_error_right_eq_ok.1 hr
    exact h.blockWrite _ _
  | bxor =>
    obtain ⟨-, ⟨⟩⟩ := ite_error_right_eq_ok.1 hr
    exact h.blockWrite _ _
  | b2init nn kk => exact h.cmdB2init hr
  | b2upd len =>
    obtain ⟨ho, hr⟩ := ite_error_right_eq_ok.1 hr
    obtain ⟨-, ⟨⟩⟩ := ite_error_left_eq_ok.1 hr
    exact h.absorbCtx ho _
  | b2updb =>
    obtain ⟨ho, hr⟩ := ite_error_right_eq_ok.1 hr
    obtain ⟨-, ⟨⟩⟩ := ite_error_right_eq_ok.1 hr
    exact h.absorbCtx ho _
  | b2updd =>
    obtain ⟨ho, ⟨⟩⟩ := ite_error_right_eq_ok.1 hr
    exact h.absorbCtx ho _
  | b2fin =>
    obtain ⟨hm, ⟨⟩⟩ := ite_error_right_eq_ok.1 hr
    have hn := h.b2Outlen_le_of_plain hm
    exact (h.writeDigest hn (by rw [ctxFinalize_length, min_eq_left hn])).wipeCtx
  | hpinit n => exact h.cmdHpinit hr
  | hpfin =>
    obtain ⟨-, hr⟩ := ite_error_right_eq_ok.1 hr
    obtain ⟨-, ⟨⟩⟩ := ite_error_right_eq_ok.1 hr
    exact (h.blockWrite _ _).wipeCtx
  | gcmp w =>
    obtain ⟨-, ⟨⟩⟩ := ite_error_right_eq_ok.1 hr
    exact h.blockWrite _ _
  | agseg => exact h.cmdAgseg hr
  | agnext =>
    obtain ⟨ho, ⟨⟩⟩ := ite_error_right_eq_ok.1 hr
    exact h.agStep ho
  | fillstep =>
    obtain ⟨ho, ⟨⟩⟩ := ite_error_right_eq_ok.1 hr
    exact h.fillBody ho
  | fillseg =>
    obtain ⟨hact, ⟨⟩⟩ := ite_error_right_eq_ok.1 hr
    exact h.fillLoop hact _

theorem Inv.exec {i : Instr} {t : State} (he : exec i s = .next t) : Inv t := by
  rcases exec_next he with ⟨u, hr, rfl⟩ | ⟨c, -, rfl⟩
  · exact (h.commandResult hr).complete
  · exact h.raiseError c

theorem Inv.engineTurn {t : State} (he : engineTurn s = .next t) : Inv t := by
  rcases engineTurn_next he with ⟨-, rfl⟩ | ⟨i, -, -, hx⟩ | ⟨-, rfl⟩
  · exact h
  · exact h.exec hx
  · exact h.raiseError .illegal

/-- The reset input asks nothing of the state before it but a legal size: everything else is zero or drawn. -/
theorem Inv.applyReset (draw : List Host.Cell) : Inv (applyReset draw s) where
  param := h.param
  arena := memWf_drawArena _ _
  status := ⟨rfl, fun hb => nomatch hb⟩
  config := fun hv => nomatch hv
  context := contextInv_of_idle rfl rfl rfl rfl
  digest := digestInv_of_zero rfl rfl
  segment := segmentInv_of_inactive rfl rfl (fun hv => nomatch hv)

end

/-- Settles O27: a step is a turn of the engine, of the host or of the reset input, and each keeps the invariant. -/
theorem stepKeepsTheInvariant : Obligations.StepKeepsTheInvariant := by
  intro s t h hstep
  rcases step_next hstep with ⟨u, hu, he⟩ | ⟨op, rest, -, rfl⟩ | ⟨draw, rest, -, rfl⟩
  · rcases hu with rfl | rfl
    · exact h.engineTurn he
    · exact h.popTurn.engineTurn he
  · exact h.popTurn.busEffect op
  · exact h.popTurn.applyReset draw

end Sys2Proof.Machine

/-! PROOFS. What a turn does, one equation per kind of turn: O6, O7, O14, O24 and O26. -/

namespace Sys2Proof

/-! ### The decoder reads back what the encoder writes -/

/-- A field of a well-formed command's word, from OP and the operand bits (30_encoding.md R90, R92). -/
theorem wordField_encode {i : Instr} (h : i.wellFormed = true) (lo len : Nat) :
    wordField (encode i) lo len = (opcode i + operandBits i) / 2 ^ lo % 2 ^ len := by
  rw [wordField, (encode_toNat h).1]

/-- The word of a well-formed command names that command (R94). -/
theorem opcodeInstr_encode {i : Instr} (h : i.wellFormed = true) : opcodeInstr (encode i) = some i := by
  have hfield := wordField_encode h
  cases i with
  | b2init nn kk =>
    simp only [Instr.wellFormed, Bool.and_eq_true, decide_eq_true_eq] at h
    obtain ⟨hn, hk⟩ := h
    simp only [opcode, operandBits] at hfield
    have hop : wordField (encode (.b2init nn kk)) 0 8 = 0x10 := by rw [hfield]; omega
    have hnn : wordField (encode (.b2init nn kk)) 16 8 = nn := by rw [hfield]; omega
    have hkk : wordField (encode (.b2init nn kk)) 24 8 = kk := by rw [hfield]; omega
    simp only [opcodeInstr, hop, hnn, hkk]
  | b2upd len =>
    simp only [Instr.wellFormed, decide_eq_true_eq] at h
    simp only [opcode, operandBits] at hfield
    have hop : wordField (encode (.b2upd len)) 0 8 = 0x11 := by rw [hfield]; omega
    have himm : wordField (encode (.b2upd len)) 16 16 = len := by rw [hfield]; omega
    simp only [opcodeInstr, hop, himm]
  | hpinit t =>
    simp only [Instr.wellFormed, decide_eq_true_eq] at h
    simp only [opcode, operandBits] at hfield
    have hop : wordField (encode (.hpinit t)) 0 8 = 0x18 := by rw [hfield]; omega
    have himm : wordField (encode (.hpinit t)) 16 16 = t := by rw [hfield]; omega
    simp only [opcodeInstr, hop, himm]
  | gcmp w => cases w <;> rfl
  | _ => rfl

/-- A well-formed command's word passes the tests of R95: reserved bits 0, and W and IMM only where the command uses them. -/
theorem encode_passes_tests {i : Instr} (h : i.wellFormed = true) :
    wordField (encode i) 32 32 = 0 ∧ wordField (encode i) 9 7 = 0 ∧
      (wordField (encode i) 8 1 = 1 → usesW i = true) ∧ (wordField (encode i) 16 16 ≠ 0 → usesImm i = true) := by
  have hfield := wordField_encode h
  obtain ⟨-, hlt⟩ := encode_toNat h
  refine ⟨by rw [hfield, Nat.div_eq_of_lt hlt, Nat.zero_mod], ?_⟩
  cases i with
  | b2init nn kk =>
    simp only [hfield, opcode, operandBits]
    exact ⟨by omega, fun hw => by omega, fun _ => rfl⟩
  | b2upd len =>
    simp only [hfield, opcode, operandBits]
    exact ⟨by omega, fun hw => by omega, fun _ => rfl⟩
  | hpinit t =>
    simp only [hfield, opcode, operandBits]
    exact ⟨by omega, fun hw => by omega, fun _ => rfl⟩
  | gcmp w => cases w <;> decide
  | _ => decide

/-- The decoder inverts the encoder on well-formed commands (R95). -/
theorem decode_encode {i : Instr} (h : i.wellFormed = true) : decode (encode i) = .ok i := by
  obtain ⟨hhigh, hlow, hw, himm⟩ := encode_passes_tests h
  exact decode_of_fields (opcodeInstr_encode h) hhigh hlow hw himm

@[simp] theorem tableWord_toNat (w : Word) : tableWord 64 w.toNat = w := by
  rw [tableWord, Nat.mod_eq_of_lt w.isLt, BitVec.ofNat_toNat, BitVec.setWidth_eq]

end Sys2Proof

namespace Sys2Proof.Machine

/-! ### One equation per kind of turn -/

section
variable {s : State}

theorem popTurn_of_turns {turn : Turn} {rest : List Turn} (h : s.turns = turn :: rest) :
    popTurn s = { s with turns := rest } := by
  rw [popTurn, h, List.tail_cons]

theorem step_of_no_turns (h : s.turns = []) : step s = engineTurn s := by
  rw [step, h]

theorem step_of_engine {rest : List Turn} (h : s.turns = .engine :: rest) :
    step s = engineTurn { s with turns := rest } := by
  rw [step, h, popTurn_of_turns h]

theorem step_of_host {op : BusOp} {rest : List Turn} (h : s.turns = .host op :: rest) :
    step s = hostAccess op { s with turns := rest } := by
  rw [step, h, popTurn_of_turns h]

theorem step_of_reset {draw : List Host.Cell} {rest : List Turn} (h : s.turns = .reset draw :: rest) :
    step s = .next (applyReset draw { s with turns := rest }) := by
  rw [step, h, popTurn_of_turns h]

theorem engineTurn_of_busy (h : s.status.busy = true) : engineTurn s = engineStep s := if_pos h

theorem engineTurn_of_idle (h : s.status.busy = false) : engineTurn s = .next s := by
  rw [engineTurn, h]; rfl

theorem engineStep_of_decode {i : Instr} (h : decode s.cmd = .ok i) : engineStep s = exec i s := by
  rw [engineStep, h]

theorem engineStep_of_illegal (h : ∀ i, decode s.cmd ≠ .ok i) : engineStep s = .next (raiseError .illegal s) := by
  rcases engineStep_eq s with ⟨i, hi, -⟩ | ⟨-, he⟩
  · exact absurd hi (h i)
  · exact he

theorem hostAccess_of_allowed {op : BusOp} (h : s.status.busy = false ∨ allowedWhileBusy op = true) :
    hostAccess op s = .next (busEffect op s) := by
  rw [hostAccess, if_neg]
  rcases h with h | h <;> simp [h]

theorem writeCmd_of_idle (h : s.status.busy = false) (v : Word) : writeCmd v s = issue v s := by
  rw [writeCmd, h]; rfl

theorem writeCmd_of_busy (h : s.status.busy = true) (v : Word) : writeCmd v s = refuseIssue s := if_pos h

end

/-- An engine's turn, whatever the word in CMD: the command, the ILLEGAL report, or nothing (R24, R96, R252). -/
theorem engineTurn_runs_decoded (s : State) :
    (s.status.busy = true → engineTurn s = engineStep s ∧
      (∀ i, decode s.cmd = .ok i → engineTurn s = exec i s) ∧
      ((∀ i, decode s.cmd ≠ .ok i) → engineTurn s = .next (raiseError .illegal s))) ∧
    (s.status.busy = false → engineTurn s = .next s) := by
  refine ⟨fun hb => ?_, engineTurn_of_idle⟩
  rw [engineTurn_of_busy hb]
  exact ⟨rfl, fun i hi => engineStep_of_decode hi, engineStep_of_illegal⟩

/-- Settles O6: with or without a turn left, the step is the engine's turn. -/
theorem stepRunsTheDecodedCommand : Obligations.StepRunsTheDecodedCommand := by
  refine fun s => ⟨fun rest hturns => ?_, fun hturns => ?_⟩
  · rw [step_of_engine hturns]
    exact engineTurn_runs_decoded { s with turns := rest }
  · rw [step_of_no_turns hturns]
    exact engineTurn_runs_decoded s

/-- Settles O7: the issued word is in CMD, BUSY is 1, and the engine's turn decodes the word to the command it encodes. -/
theorem fetchWordRunsInTheNextStep : Obligations.FetchWordRunsInTheNextStep := by
  intro s i hwf
  have hturns : (s.withFetchWord 64 (encode i).toNat).turns = .engine :: s.turns := rfl
  rw [step_of_engine hturns, State.withFetchWord, tableWord_toNat, engineTurn_of_busy rfl,
    engineStep_of_decode (decode_encode hwf)]
  rfl

/-- Settles O14: a write of CMD is defined at all times, and BUSY says whether it issues. -/
theorem cmdWriteIssuesOrIsRefused : Obligations.CmdWriteIssuesOrIsRefused := by
  intro s v rest hturns
  have hstep : step s = .next (writeCmd v { s with turns := rest }) :=
    (step_of_host hturns).trans (hostAccess_of_allowed (.inr rfl))
  refine ⟨fun hb => hstep.trans ?_, fun hb => hstep.trans ?_, rfl⟩
  · exact congrArg Host.Outcome.next (writeCmd_of_idle (s := { s with turns := rest }) hb v)
  · exact congrArg Host.Outcome.next (writeCmd_of_busy (s := { s with turns := rest }) hb v)

/-! ### Reset -/

theorem statusWord_applyReset (draw : List Host.Cell) (s : State) : statusWord (applyReset draw s) = 0#64 := by
  simp [statusWord, agEnd, irqLevel, applyReset, State.afterReset, Status.zero, errCodeField, b2modeField]

/-- What each register reads after a reset (R53). -/
theorem readReg_applyReset (r : Reg) (draw : List Host.Cell) (s : State) :
    readReg r (applyReset draw s) =
      (match r with | .id => 0x113#64 | .nblocks => BitVec.ofNat 64 s.arenaBlocks | _ => 0#64) := by
  cases r with
  | msg k => exact Vector.getElem_replicate k.isLt
  | digest k => exact Vector.getElem_replicate k.isLt
  | status => exact statusWord_applyReset draw s
  | _ => rfl

/-- Settles O24: a reset turn answers `applyReset`, whose registers `readReg_applyReset` reads. -/
theorem resetClearsEveryRegister : Obligations.ResetClearsEveryRegister := by
  intro s draw rest hturns
  exact ⟨_, step_of_reset hturns, rfl, fun r => readReg_applyReset r draw _, rfl, rfl, rfl, rfl, rfl, rfl⟩

/-- An engine of a legal size after reset, whatever its arena holds (R53, R262). -/
theorem inv_afterReset {blocks : Nat} {arena : List Host.Cell} (hsize : 1 ≤ blocks ∧ blocks ≤ 2 ^ 32)
    (harena : memWf (1024 * blocks) arena = true) : Inv (State.afterReset blocks arena) where
  param := hsize
  arena := harena
  status := ⟨rfl, fun hb => nomatch hb⟩
  config := fun hv => nomatch hv
  context := contextInv_of_idle rfl rfl rfl rfl
  digest := digestInv_of_zero rfl rfl
  segment := segmentInv_of_inactive rfl rfl (fun hv => nomatch hv)

/-- Settles O26: every size that `Config` allows is legal, and an arena that lists nothing is canonical. -/
theorem resetStateMeetsTheInvariant : Obligations.ResetStateMeetsTheInvariant :=
  inv_afterReset ⟨Nat.le_add_left 1 _, Config.arenaSizeLessOne.isLt⟩ (memWf_nil _)

end Sys2Proof.Machine

/-! PROOFS. What the commands write. `withWritten` is the column "written by commands" of the register map (10_state.md R52, R55) as
one function; `exec_written` says that a command changes nothing else but its report, and O12, O13, O22 and O23 are read off it. -/

namespace Sys2Proof.Machine

/-! ### The parts of the state that a command writes -/

/-- `s` with the parts that the command `i` may write taken from `t` (R52, R55, R40). The report of the command's end, BUSY, DONE,
ERR and ERRCODE, is not among them. -/
def withWritten (i : Instr) (t s : State) : State :=
  match i with
  | .nop => s
  | .wipe =>
    { s with
      arena := t.arena, msg := t.msg, digest := t.digest, dlen := t.dlen, ctx := t.ctx, b2Outlen := t.b2Outlen, hpT := t.hpT
      ag := t.ag, agPass := t.agPass, agSlice := t.agSlice, agLane := t.agLane, agIndex := t.agIndex, agCtr := t.agCtr
      prand := t.prand, refLane := t.refLane, refIndex := t.refIndex, refBlk := t.refBlk, curBlk := t.curBlk
      prevBlk := t.prevBlk
      status := { s.status with b2mode := t.status.b2mode, agact := t.status.agact, agind := t.status.agind } }
  | .cfg =>
    { s with
      actP := t.actP, actT := t.actT, actY := t.actY, mprime := t.mprime, lanelen := t.lanelen, seglen := t.seglen
      status := { s.status with cfgv := t.status.cfgv, agact := t.status.agact, agind := t.status.agind } }
  | .scrub => { s with msg := t.msg, digest := t.digest, dlen := t.dlen }
  | .bzero | .bxor | .gcmp _ => { s with arena := t.arena }
  | .b2init _ _ | .hpinit _ =>
    { s with
      ctx := t.ctx, b2Outlen := t.b2Outlen, hpT := t.hpT, status := { s.status with b2mode := t.status.b2mode } }
  | .b2upd _ | .b2updb | .b2updd => { s with ctx := t.ctx }
  | .b2fin =>
    { s with
      digest := t.digest, dlen := t.dlen, ctx := t.ctx, b2Outlen := t.b2Outlen, hpT := t.hpT
      status := { s.status with b2mode := t.status.b2mode } }
  | .hpfin =>
    { s with
      arena := t.arena, ctx := t.ctx, b2Outlen := t.b2Outlen, hpT := t.hpT
      status := { s.status with b2mode := t.status.b2mode } }
  | .agseg =>
    { s with
      agPass := t.agPass, agSlice := t.agSlice, agLane := t.agLane, agIndex := t.agIndex, agCtr := t.agCtr, ag := t.ag
      status := { s.status with agact := t.status.agact, agind := t.status.agind } }
  | .agnext =>
    { s with
      agIndex := t.agIndex, agCtr := t.agCtr, ag := t.ag, prand := t.prand, refLane := t.refLane, refIndex := t.refIndex
      refBlk := t.refBlk, curBlk := t.curBlk, prevBlk := t.prevBlk }
  | .fillstep | .fillseg =>
    { s with
      agIndex := t.agIndex, agCtr := t.agCtr, ag := t.ag, prand := t.prand, refLane := t.refLane, refIndex := t.refIndex
      refBlk := t.refBlk, curBlk := t.curBlk, prevBlk := t.prevBlk, arena := t.arena }

/-- `s` with the report of `r`: BUSY, DONE, ERR and ERRCODE, which the end of a command and a host's write to CMD set (R22, R24). -/
def withReportOf (r s : State) : State :=
  { s with
    status := { s.status with
      busy := r.status.busy, done := r.status.done, err := r.status.err, errCode := r.status.errCode } }

/-- The active configuration with CFGV is the same in both states (R31). -/
abbrev SameConfiguration (s t : State) : Prop :=
  t.actP = s.actP ∧ t.actT = s.actT ∧ t.actY = s.actY ∧ t.mprime = s.mprime ∧ t.lanelen = s.lanelen ∧
    t.seglen = s.seglen ∧ t.status.cfgv = s.status.cfgv

theorem SameConfiguration.refl (s : State) : SameConfiguration s s := ⟨rfl, rfl, rfl, rfl, rfl, rfl, rfl⟩

/-- A command that writes none of its parts leaves the state. -/
theorem withWritten_self (i : Instr) (s : State) : withWritten i s s = s := by cases i <;> rfl

/-- A state that differs in the parts of AGNEXT alone (R195). -/
theorem eq_withWritten_of_dropStep {s t : State} (h : dropStep t = dropStep s) : t = withWritten .agnext t s :=
  calc
    t = withWritten .agnext t (dropStep t) := rfl
    _ = withWritten .agnext t (dropStep s) := by rw [h]
    _ = withWritten .agnext t s := rfl

/-- A state that differs in the parts of AGNEXT and the arena alone (R201, R202). -/
theorem eq_withWritten_of_dropFill {s t : State} (h : dropFill t = dropFill s) : t = withWritten .fillseg t s :=
  calc
    t = withWritten .fillseg t (dropFill t) := rfl
    _ = withWritten .fillseg t (dropFill s) := by rw [h]
    _ = withWritten .fillseg t s := rfl

/-- A command that completes changes the parts of its row alone. -/
theorem commandResult_written {i : Instr} {s t : State} (hr : commandResult s i = .ok t) : t = withWritten i t s := by
  cases i with
  | nop | wipe | scrub => cases hr; rfl
  | cfg =>
    simp only [commandResult, cmdCfg, ite_error_left_eq_ok, Except.ok.injEq] at hr
    obtain ⟨-, -, -, rfl⟩ := hr
    rfl
  | bzero | bxor | gcmp =>
    obtain ⟨-, ⟨⟩⟩ := ite_error_right_eq_ok.1 hr
    exact blockWrite_eq _ _ _
  | b2init | hpinit =>
    obtain ⟨-, ⟨⟩⟩ := ite_error_left_eq_ok.1 hr
    rfl
  | b2upd =>
    obtain ⟨-, hr⟩ := ite_error_right_eq_ok.1 hr
    obtain ⟨-, ⟨⟩⟩ := ite_error_left_eq_ok.1 hr
    rfl
  | b2updb =>
    obtain ⟨-, hr⟩ := ite_error_right_eq_ok.1 hr
    obtain ⟨-, ⟨⟩⟩ := ite_error_right_eq_ok.1 hr
    rfl
  | b2updd | b2fin =>
    obtain ⟨-, ⟨⟩⟩ := ite_error_right_eq_ok.1 hr
    rfl
  | hpfin =>
    obtain ⟨-, hr⟩ := ite_error_right_eq_ok.1 hr
    obtain ⟨-, ⟨⟩⟩ := ite_error_right_eq_ok.1 hr
    rw [blockWrite_eq]
    rfl
  | agseg =>
    obtain ⟨-, hr⟩ := ite_error_right_eq_ok.1 hr
    obtain ⟨-, ⟨⟩⟩ := ite_error_left_eq_ok.1 hr
    rw [startSegment_eq]
    rfl
  | agnext =>
    obtain ⟨-, ⟨⟩⟩ := ite_error_right_eq_ok.1 hr
    exact eq_withWritten_of_dropStep (dropStep_agStep s)
  | fillstep =>
    obtain ⟨-, ⟨⟩⟩ := ite_error_right_eq_ok.1 hr
    exact eq_withWritten_of_dropFill (dropFill_fillBody s)
  | fillseg =>
    obtain ⟨-, ⟨⟩⟩ := ite_error_right_eq_ok.1 hr
    exact eq_withWritten_of_dropFill (dropFill_fillLoop _ s)

/-- A command changes the report and the parts of its row, nothing else; a rejected one the report alone. -/
theorem exec_written {i : Instr} {s t : State} (he : exec i s = .next t) :
    ∃ r u, t = withReportOf r (withWritten i u s) := by
  rcases exec_next he with ⟨u, hr, rfl⟩ | ⟨c, -, rfl⟩
  · refine ⟨complete u, u, ?_⟩
    rw [← commandResult_written hr]
    rfl
  · refine ⟨raiseError c s, s, ?_⟩
    rw [withWritten_self]
    rfl

/-! ### The rows of the map, read by register -/

section
variable {i : Instr} (t s : State)

/-- The registers that only the host writes, the parameter, and the model's own fields are in no command's row (R52). -/
theorem withWritten_host_registers (i : Instr) :
    let u := withWritten i t s
    u.cmd = s.cmd ∧ u.ie = s.ie ∧ u.opa = s.opa ∧ u.opb = s.opb ∧ u.opc = s.opc ∧
    u.cfgP = s.cfgP ∧ u.cfgM = s.cfgM ∧ u.cfgT = s.cfgT ∧ u.cfgY = s.cfgY ∧
    u.arenaBlocks = s.arenaBlocks ∧ u.turns = s.turns ∧ u.readLog = s.readLog := by
  cases i <;> exact ⟨rfl, rfl, rfl, rfl, rfl, rfl, rfl, rfl, rfl, rfl, rfl, rfl⟩

/-- The active configuration (R31). -/
theorem withWritten_configuration (hi : i ≠ .cfg) : SameConfiguration s (withWritten i t s) := by
  cases i with
  | cfg => exact absurd rfl hi
  | _ => exact ⟨rfl, rfl, rfl, rfl, rfl, rfl, rfl⟩

/-- The segment position (R34). -/
theorem withWritten_position (hi : i ∉ [.agseg, .wipe]) :
    let u := withWritten i t s
    u.agPass = s.agPass ∧ u.agSlice = s.agSlice ∧ u.agLane = s.agLane := by
  cases i with
  | agseg | wipe => simp at hi
  | _ => exact ⟨rfl, rfl, rfl⟩

/-- AG_INDEX, AG_CTR and the hidden blocks (R34, R48, R49). -/
theorem withWritten_index (hi : i ∉ [.agseg, .agnext, .fillstep, .fillseg, .wipe]) :
    let u := withWritten i t s
    u.agIndex = s.agIndex ∧ u.agCtr = s.agCtr ∧ u.ag = s.ag := by
  cases i with
  | agseg | agnext | fillstep | fillseg | wipe => simp at hi
  | _ => exact ⟨rfl, rfl, rfl⟩

/-- The results of the last step (R35). -/
theorem withWritten_step_results (hi : i ∉ [.agnext, .fillstep, .fillseg, .wipe]) :
    let u := withWritten i t s
    u.prand = s.prand ∧ u.refLane = s.refLane ∧ u.refIndex = s.refIndex ∧ u.refBlk = s.refBlk ∧ u.curBlk = s.curBlk ∧
      u.prevBlk = s.prevBlk := by
  cases i with
  | agnext | fillstep | fillseg | wipe => simp at hi
  | _ => exact ⟨rfl, rfl, rfl, rfl, rfl, rfl⟩

/-- AGACT and AGIND (R55). -/
theorem withWritten_segment_flags (hi : i ∉ [.agseg, .cfg, .wipe]) :
    let u := withWritten i t s
    u.status.agact = s.status.agact ∧ u.status.agind = s.status.agind := by
  cases i with
  | agseg | cfg | wipe => simp at hi
  | _ => exact ⟨rfl, rfl⟩

/-- MSG (R40). -/
theorem withWritten_msg (hi : i ∉ [.wipe, .scrub]) : (withWritten i t s).msg = s.msg := by
  cases i with
  | wipe | scrub => simp at hi
  | _ => rfl

/-- DIGEST and DLEN (R41, R42). -/
theorem withWritten_digest (hi : i ∉ [.b2fin, .wipe, .scrub]) :
    let u := withWritten i t s
    u.digest = s.digest ∧ u.dlen = s.dlen := by
  cases i with
  | b2fin | wipe | scrub => simp at hi
  | _ => exact ⟨rfl, rfl⟩

/-- The context (R45). -/
theorem withWritten_ctx (hi : i ∉ [.b2updb, .b2updd, .b2fin, .hpfin, .wipe]) (hinit : ∀ nn kk, i ≠ .b2init nn kk)
    (hupd : ∀ len, i ≠ .b2upd len) (hhp : ∀ n, i ≠ .hpinit n) : (withWritten i t s).ctx = s.ctx := by
  cases i with
  | b2updb | b2updd | b2fin | hpfin | wipe => simp at hi
  | b2init nn kk => exact absurd rfl (hinit nn kk)
  | b2upd len => exact absurd rfl (hupd len)
  | hpinit n => exact absurd rfl (hhp n)
  | _ => rfl

/-- B2_OUTLEN, B2MODE and HP_T (R43, R44, R55), which a context's first and last command write. -/
theorem withWritten_context_mode (hi : i ∉ [.b2fin, .hpfin, .wipe]) (hinit : ∀ nn kk, i ≠ .b2init nn kk)
    (hhp : ∀ n, i ≠ .hpinit n) :
    let u := withWritten i t s
    (u.b2Outlen = s.b2Outlen ∧ u.status.b2mode = s.status.b2mode) ∧ u.hpT = s.hpT := by
  cases i with
  | b2fin | hpfin | wipe => simp at hi
  | b2init nn kk => exact absurd rfl (hinit nn kk)
  | hpinit n => exact absurd rfl (hhp n)
  | _ => exact ⟨⟨rfl, rfl⟩, rfl⟩

/-- The arena (R60). -/
theorem withWritten_arena (hi : i ∉ [.bzero, .bxor, .hpfin, .gcmp true, .gcmp false, .fillstep, .fillseg, .wipe]) :
    (withWritten i t s).arena = s.arena := by
  cases i with
  | bzero | bxor | hpfin | fillstep | fillseg | wipe => simp at hi
  | gcmp w => cases w <;> simp at hi
  | _ => rfl

end

/-- The active configuration after a command other than CFG (R31). -/
theorem exec_configuration {i : Instr} {s t : State} (he : exec i s = .next t) (hi : i ≠ .cfg) :
    SameConfiguration s t := by
  obtain ⟨-, u, rfl⟩ := exec_written he
  exact withWritten_configuration u s hi

/-- A plain context has no H′ output length (R44, R121). -/
theorem hpT_of_plain {s : State} (h : ContextInv s) (hm : s.status.b2mode = .plain) : s.hpT = 0 := by
  obtain ⟨-, -, hmode⟩ := h
  rw [hm] at hmode
  obtain ⟨-, -, ht⟩ := hmode
  exact BitVec.eq_of_toNat_eq ht

/-- B2FIN writes 0 to HP_T (R122), where it completes only on a plain context, whose HP_T is 0 already (assumption log 17). -/
theorem b2fin_hpT_kept {s t : State} (he : exec .b2fin s = .next t) (h : ContextInv s) : t.hpT = s.hpT := by
  rcases exec_next he with ⟨u, hr, rfl⟩ | ⟨c, -, rfl⟩
  · obtain ⟨hm, ⟨⟩⟩ := ite_error_right_eq_ok.1 hr
    exact (hpT_of_plain h hm).symm
  · rfl

/-- Settles O12: what the host writes is in no command's row. -/
theorem commandsKeepTheHostsRegisters : Obligations.CommandsKeepTheHostsRegisters := by
  intro i s t he
  obtain ⟨-, u, rfl⟩ := exec_written he
  exact withWritten_host_registers u s i

/-- Settles O13: each group is kept by the commands whose row does not hold it; HP_T under B2FIN by the context invariant. -/
theorem commandsWriteOnlyTheirRegisters : Obligations.CommandsWriteOnlyTheirRegisters := by
  intro i s t he
  obtain ⟨r, u, rfl⟩ := exec_written he
  refine ⟨withWritten_configuration u s, withWritten_position u s, withWritten_index u s, withWritten_step_results u s,
    withWritten_segment_flags u s, withWritten_msg u s, withWritten_digest u s, withWritten_ctx u s,
    fun hi hinit hhp => (withWritten_context_mode u s hi hinit hhp).1, fun hi hinit hhp hctx => ?_,
    withWritten_arena u s⟩
  by_cases hfin : i = .b2fin
  · subst hfin
    exact b2fin_hpT_kept he (hctx rfl)
  · exact (withWritten_context_mode u s (by simpa [hfin] using hi) hinit hhp).2

/-! ### What a step keeps -/

/-- A turn of the engine keeps the active configuration, or it executes CFG (R31). -/
theorem engineTurn_configuration {s t : State} (he : engineTurn s = .next t) :
    SameConfiguration s t ∨ (s.status.busy = true ∧ decode s.cmd = .ok .cfg) := by
  rcases engineTurn_next he with ⟨-, rfl⟩ | ⟨i, hb, hi, hx⟩ | ⟨-, rfl⟩
  · exact .inl (.refl _)
  · by_cases hc : i = .cfg
    · exact .inr ⟨hb, hc ▸ hi⟩
    · exact .inl (exec_configuration hx hc)
  · exact .inl (.refl s)

theorem engineTurn_arenaBlocks {s t : State} (he : engineTurn s = .next t) : t.arenaBlocks = s.arenaBlocks := by
  rcases engineTurn_next he with ⟨-, rfl⟩ | ⟨i, -, -, hx⟩ | ⟨-, rfl⟩
  · rfl
  · obtain ⟨-, -, -, -, -, -, -, -, -, hblocks, -, -⟩ := commandsKeepTheHostsRegisters i s t hx
    exact hblocks
  · rfl

/-- `s` with the parts that a bus operation may change taken from `t`: the host's registers, MSG, the arena, what the host has
read, and the report (R52, R66). -/
def withHostWritten (t s : State) : State :=
  withReportOf t
    { s with
      cmd := t.cmd, ie := t.ie, opa := t.opa, opb := t.opb, opc := t.opc
      cfgP := t.cfgP, cfgM := t.cfgM, cfgT := t.cfgT, cfgY := t.cfgY, msg := t.msg, arena := t.arena, readLog := t.readLog }

theorem writeReg_written (r : Reg) (v : Word) (s : State) : writeReg r v s = withHostWritten (writeReg r v s) s := by
  cases r with
  | cmd =>
    show writeCmd v s = withHostWritten (writeCmd v s) s
    unfold writeCmd
    split <;> rfl
  | _ => rfl

/-- A bus operation changes no other part of the state. -/
theorem busEffect_written (op : BusOp) (s : State) : busEffect op s = withHostWritten (busEffect op s) s := by
  cases op with
  | readReg off => rfl
  | writeReg off v =>
    show writeOffset off v s = withHostWritten (writeOffset off v s) s
    unfold writeOffset
    split
    · exact writeReg_written _ v s
    · rfl
  | readArena a => rfl
  | writeArena a v =>
    show arenaWrite s a v = withHostWritten (arenaWrite s a v) s
    rw [arenaWrite_eq]
    rfl

/-- No step of any kind changes the parameter (R32). -/
theorem step_arenaBlocks {s t : State} (hstep : step s = .next t) : t.arenaBlocks = s.arenaBlocks := by
  rcases step_next hstep with ⟨u, hu, he⟩ | ⟨op, rest, -, rfl⟩ | ⟨draw, rest, -, rfl⟩
  · rw [engineTurn_arenaBlocks he]
    rcases hu with rfl | rfl <;> rfl
  · rw [busEffect_written]
    rfl
  · rfl

/-- Settles O22: the parameter is kept by every step, it fits the word that NBLOCKS reads, and a write there is ignored. -/
theorem arenaSizeIsConstant : Obligations.ArenaSizeIsConstant := by
  intro s t hstep
  have hkept := step_arenaBlocks hstep
  refine ⟨hkept, fun hp => ?_, fun v => rfl⟩
  obtain ⟨-, hhigh⟩ := hp
  show (BitVec.ofNat 64 t.arenaBlocks).toNat = s.arenaBlocks
  rw [hkept, toNat_ofNat_of_lt (by omega)]

/-- Settles O23: of the turns, a host access and a command other than CFG keep the active configuration. -/
theorem activeConfigurationChangesOnlyByCfgOrReset : Obligations.ActiveConfigurationChangesOnlyByCfgOrReset := by
  intro s t hstep
  cases hturns : s.turns with
  | nil =>
    rw [step_of_no_turns hturns] at hstep
    rcases engineTurn_configuration hstep with hkept | ⟨hb, hcfg⟩
    · exact .inl hkept
    · exact .inr (.inl ⟨hb, hcfg, fun _ _ h => nomatch h⟩)
  | cons turn rest =>
    cases turn with
    | host op =>
      rw [step_of_host hturns] at hstep
      rw [hostAccess_next hstep, busEffect_written]
      exact .inl (SameConfiguration.refl s)
    | engine =>
      rw [step_of_engine hturns] at hstep
      rcases engineTurn_configuration hstep with hkept | ⟨hb, hcfg⟩
      · exact .inl hkept
      · exact .inr (.inl ⟨hb, hcfg, fun _ _ h => (List.cons.inj h).1.symm⟩)
    | reset draw => exact .inr (.inr ⟨draw, rest, rfl⟩)

end Sys2Proof.Machine

/-! PROOFS. The register map: O15, O17 and O18. -/

namespace Sys2Proof.Machine

/-! ### STATUS -/

theorem errCodeField_le (c : Option CmdError) : errCodeField c ≤ 5 := by
  rcases c with _ | c
  · decide
  · cases c <;> decide

theorem b2modeField_le (m : B2Mode) : b2modeField m ≤ 2 := by cases m <;> decide

/-- Each field of STATUS at its bits, and the reserved bits 0 (R23): no field reaches into the next, and all of them end below
bit 23. -/
theorem statusWord_fields (s : State) :
    let w := statusWord s
    wordField w 0 1 = s.status.busy.toNat ∧ wordField w 1 1 = s.status.done.toNat ∧
    wordField w 2 1 = s.status.err.toNat ∧ wordField w 3 5 = 0 ∧ wordField w 8 8 = errCodeField s.status.errCode ∧
    wordField w 16 1 = s.status.cfgv.toNat ∧ wordField w 17 2 = b2modeField s.status.b2mode ∧
    wordField w 19 1 = s.status.agact.toNat ∧ wordField w 20 1 = s.status.agind.toNat ∧
    wordField w 21 1 = (agEnd s).toNat ∧ wordField w 22 1 = (irqLevel s).toNat ∧ wordField w 23 41 = 0 := by
  have hcode := errCodeField_le s.status.errCode
  have hmode := b2modeField_le s.status.b2mode
  have hbusy := s.status.busy.toNat_le
  have hdone := s.status.done.toNat_le
  have herr := s.status.err.toNat_le
  have hcfgv := s.status.cfgv.toNat_le
  have hact := s.status.agact.toNat_le
  have hind := s.status.agind.toNat_le
  have hend := (agEnd s).toNat_le
  have hirq := (irqLevel s).toNat_le
  have hsum := toNat_ofNat_of_lt (n := 64)
    (x := s.status.busy.toNat + s.status.done.toNat * 2 + s.status.err.toNat * 2 ^ 2
      + errCodeField s.status.errCode * 2 ^ 8 + s.status.cfgv.toNat * 2 ^ 16 + b2modeField s.status.b2mode * 2 ^ 17
      + s.status.agact.toNat * 2 ^ 19 + s.status.agind.toNat * 2 ^ 20
      + (agEnd s).toNat * 2 ^ 21 + (irqLevel s).toNat * 2 ^ 22) (by omega)
  simp only [wordField, statusWord, hsum]
  refine ⟨?_, ?_, ?_, ?_, ?_, ?_, ?_, ?_, ?_, ?_, ?_, ?_⟩ <;> omega

theorem agEnd_iff {s : State} : agEnd s = true ↔ s.status.agact = true ∧ s.seglen.toNat ≤ s.agIndex.toNat := by
  simp [agEnd]

theorem irqLevel_iff {s : State} : irqLevel s = true ↔ s.ie = true ∧ (s.status.done = true ∨ s.status.err = true) := by
  simp [irqLevel]

/-- A write of STATUS in the form of R23: a one in bit 1 or bit 2 clears, a zero keeps. -/
theorem writeStatus_eq (v : Word) (s : State) :
    writeStatus v s = { s with
      status := { s.status with
        done := s.status.done && !v.getLsbD 1
        err := s.status.err && !v.getLsbD 2
        errCode := if v.getLsbD 2 then none else s.status.errCode } } := by
  have hclear : ∀ one flag : Bool, (if one then false else flag) = (flag && !one) := by decide
  simp only [writeStatus, hclear]

/-- Settles O15: the fields by `statusWord_fields`, the write by `writeStatus_eq`. -/
theorem statusRegisterFieldsAndWriteOneToClear : Obligations.StatusRegisterFieldsAndWriteOneToClear := by
  refine fun s => ⟨?_, fun v => writeStatus_eq v s⟩
  obtain ⟨hbusy, hdone, herr, hlow, hcode, hcfgv, hmode, hact, hind, hend, hirq, hhigh⟩ := statusWord_fields s
  refine ⟨hbusy, hdone, herr, hlow, hcode.trans ?_, hcfgv, hmode.trans ?_, hact, hind, ?_, ?_, hhigh⟩
  · cases s.status.errCode with
    | none => rfl
    | some c => cases c <;> rfl
  · cases s.status.b2mode <;> rfl
  · show wordField (statusWord s) 21 1 = 1 ↔ _
    rw [hend, Bool.toNat_eq_one, agEnd_iff]
  · show wordField (statusWord s) 22 1 = 1 ↔ _
    rw [hirq, Bool.toNat_eq_one, irqLevel_iff]

/-! ### The map of offsets -/

/-- Each register is found at its own offset (R52). -/
@[simp] theorem regAt_regOffset (r : Reg) : regAt (regOffset r) = some r := by
  have hmsg : ∀ k : Fin 16, regAt (0x20 + k.val) = some (.msg k) := by decide
  have hdigest : ∀ k : Fin 8, regAt (0x30 + k.val) = some (.digest k) := by decide
  cases r with
  | msg k => exact hmsg k
  | digest k => exact hdigest k
  | _ => rfl

/-- Above HP_T there is no register (R52, R61). -/
theorem regAt_of_ge {off : Nat} (h : 0x3B ≤ off) : regAt off = none := by
  obtain ⟨n, rfl⟩ := Nat.exists_eq_add_of_le' h
  have hmsg : ¬n + 0x3B < 0x30 := by omega
  have hdigest : ¬n + 0x3B < 0x38 := by omega
  simp [regAt, hmsg, hdigest]

/-- The offsets without a register (R52, R54, R61). -/
theorem regAt_eq_none_iff (off : Nat) : regAt off = none ↔ off = 0x07 ∨ off = 0x13 ∨ off = 0x1F ∨ 0x3B ≤ off := by
  have hlow : ∀ n < 0x3B, regAt n = none ↔ n = 0x07 ∨ n = 0x13 ∨ n = 0x1F ∨ 0x3B ≤ n := by decide
  rcases Nat.lt_or_ge off 0x3B with h | h
  · exact hlow off h
  · simp [regAt_of_ge h, h]

/-- A register is found at no other offset (R52). -/
theorem eq_regOffset_of_regAt {off : Nat} {r : Reg} (h : regAt off = some r) : off = regOffset r := by
  have hlow : ∀ n < 0x3B, ∀ q ∈ regAt n, n = regOffset q := by decide
  rcases Nat.lt_or_ge off 0x3B with hlt | hge
  · exact hlow off hlt r h
  · rw [regAt_of_ge hge] at h
    cases h

section
variable {off : Nat} {r : Reg} (s : State) (v : Word)

theorem readOffset_of_regAt (h : regAt off = some r) : readOffset off s = readReg r s := by
  rw [readOffset, h]

theorem writeOffset_of_regAt (h : regAt off = some r) : writeOffset off v s = writeReg r v s := by
  rw [writeOffset, h]

theorem readOffset_of_none (h : regAt off = none) : readOffset off s = 0#64 := by
  rw [readOffset, h]

theorem writeOffset_of_none (h : regAt off = none) : writeOffset off v s = s := by
  rw [writeOffset, h]

end

/-- Settles O17: the map and its inverse, and the value at each offset: the register's number, its used bits zero-extended. -/
theorem registerMapIsExact : Obligations.RegisterMapIsExact := by
  refine ⟨by decide, fun _ => rfl, fun _ => rfl, regAt_regOffset, fun _ _ => eq_regOffset_of_regAt, regAt_eq_none_iff,
    fun r s v => ⟨readOffset_of_regAt s (regAt_regOffset r), writeOffset_of_regAt s v (regAt_regOffset r)⟩,
    fun off s v h => ⟨readOffset_of_none s h, writeOffset_of_none s v h⟩, fun s => ⟨?_, fun k => ?_, fun k => ?_⟩⟩
  · have hie : (BitVec.ofNat 64 s.ie.toNat).toNat = s.ie.toNat := toNat_ofNat_of_lt (by have := s.ie.toNat_le; omega)
    have h2 (x : BitVec 2) : (x.setWidth 64).toNat = x.toNat := BitVec.toNat_setWidth_of_le (by decide)
    have h7 (x : BitVec 7) : (x.setWidth 64).toNat = x.toNat := BitVec.toNat_setWidth_of_le (by decide)
    have h11 (x : BitVec 11) : (x.setWidth 64).toNat = x.toNat := BitVec.toNat_setWidth_of_le (by decide)
    have h32 (x : BitVec 32) : (x.setWidth 64).toNat = x.toNat := BitVec.toNat_setWidth_of_le (by decide)
    exact ⟨rfl, rfl, hie, rfl, rfl, rfl, h32 s.cfgP, h32 s.cfgM, h32 s.cfgT, h2 s.cfgY, h32 s.actP, h32 s.actT, h2 s.actY,
      h32 s.mprime, h32 s.lanelen, h32 s.seglen, h32 s.agPass, h2 s.agSlice, h32 s.agLane, h32 s.agIndex, rfl, rfl,
      h32 s.refLane, h32 s.refIndex, h32 s.refBlk, h32 s.curBlk, h32 s.prevBlk, h7 s.dlen, h7 s.b2Outlen, h11 s.hpT⟩
  · exact readOffset_of_regAt s (regAt_regOffset (.msg k))
  · exact readOffset_of_regAt s (regAt_regOffset (.digest k))

/-! ### Reading after a write -/

/-- Keeping the low `n` bits of a word is masking it (R14). -/
theorem setWidth_setWidth_eq_and (v : Word) {n : Nat} (hn : n ≤ 64) :
    (v.setWidth n).setWidth 64 = v &&& BitVec.ofNat 64 (2 ^ n - 1) := by
  have hmask : 2 ^ n - 1 < 2 ^ 64 := by have := Nat.pow_le_pow_right (n := 2) (by decide) hn; omega
  apply BitVec.eq_of_toNat_eq
  rw [BitVec.toNat_setWidth_of_le hn, BitVec.toNat_setWidth, BitVec.toNat_and, toNat_ofNat_of_lt hmask,
    Nat.and_two_pow_sub_one_eq_mod]

/-- A one-bit register reads as the mask of bit 0 (R25). -/
theorem ofNat_getLsbD_zero (v : Word) : BitVec.ofNat 64 (v.getLsbD 0).toNat = v &&& 1#64 := by
  apply BitVec.eq_of_toNat_eq
  rw [BitVec.toNat_ofNat, BitVec.getLsbD, Nat.toNat_testBit, BitVec.toNat_and]
  show _ = v.toNat &&& 1
  rw [Nat.and_one_is_mod]
  omega
/-- What a register reads after a host write of `v`: a read-write one the used bits of `v`, a read-only one what it read before. CMD
and STATUS, whose writes do more, are not meant (R21, R25–R32, R40). -/
def readBack (r : Reg) (v : Word) (s : State) : Word :=
  match r with
  | .opa | .opb | .opc | .msg _ => v
  | .ctrl => v &&& 1#64
  | .cfgP | .cfgM | .cfgT => v &&& 0xFFFFFFFF#64
  | .cfgY => v &&& 3#64
  | r => readReg r s

theorem readReg_writeReg_same {r : Reg} (v : Word) (s : State) (hcmd : r ≠ .cmd) (hstatus : r ≠ .status) :
    readReg r (writeReg r v s) = readBack r v s := by
  cases r with
  | cmd => exact absurd rfl hcmd
  | status => exact absurd rfl hstatus
  | ctrl => exact ofNat_getLsbD_zero v
  | cfgP | cfgM | cfgT => exact setWidth_setWidth_eq_and v (n := 32) (by decide)
  | cfgY => exact setWidth_setWidth_eq_and v (n := 2) (by decide)
  | msg k => exact Vector.getElem_set_self k.isLt
  | _ => rfl

/-- What every other register reads after a write (R52): no register is read through another, but STATUS has CTRL's IE in its IRQ
bit, and CMD's write sets the report. -/
theorem readReg_writeReg_other {r r' : Reg} (v : Word) (s : State) (hne : r' ≠ r) (hcmd : r ≠ .cmd)
    (hstatus : r ≠ .status) (hctrl : r = .ctrl → r' ≠ .status) : readReg r' (writeReg r v s) = readReg r' s := by
  cases r with
  | cmd => exact absurd rfl hcmd
  | status => exact absurd rfl hstatus
  | ctrl =>
    cases r' with
    | ctrl => exact absurd rfl hne
    | status => exact absurd rfl (hctrl rfl)
    | _ => rfl
  | opa | opb | opc | cfgP | cfgM | cfgT | cfgY =>
    cases r' <;> try rfl
    exact absurd rfl hne
  | msg k =>
    cases r' with
    | msg j =>
      exact Vector.getElem_set_ne k.isLt j.isLt fun h => hne (congrArg Reg.msg (Fin.ext h.symm))
    | _ => rfl
  | _ => rfl

/-- A host's register write touches no arena word and no hidden state (R40, R54). -/
theorem writeReg_hidden_state {r : Reg} (v : Word) (s : State) (hcmd : r ≠ .cmd) :
    (writeReg r v s).arena = s.arena ∧ (writeReg r v s).ctx = s.ctx ∧ (writeReg r v s).ag = s.ag := by
  cases r with
  | cmd => exact absurd rfl hcmd
  | _ => exact ⟨rfl, rfl, rfl⟩

/-- The register writes that R270 defines at all times: those of CMD, STATUS and CTRL. -/
theorem allowedWhileBusy_writeReg {off : Nat} (h : off ∈ [0x01, 0x02, 0x03]) (v : Word) :
    allowedWhileBusy (.writeReg off v) = true := by
  simp only [List.mem_cons, List.not_mem_nil, or_false] at h
  rcases h with rfl | rfl | rfl <;> rfl

/-- Settles O18: a defined write is no fault, and what it does is said register by register. -/
theorem hostWritesReadBack : Obligations.HostWritesReadBack := by
  refine ⟨fun s off v rest hturns hdef => ?_, fun r v s hcmd hstatus => ?_⟩
  · rw [step_of_host hturns]
    exact hostAccess_of_allowed (hdef.imp_right fun h => allowedWhileBusy_writeReg h v)
  · exact ⟨writeOffset_of_regAt s v (regAt_regOffset r), readReg_writeReg_same v s hcmd hstatus,
      fun _ hne hctrl => readReg_writeReg_other v s hne hcmd hstatus hctrl, writeReg_hidden_state v s hcmd⟩

end Sys2Proof.Machine


/-! PROOFS. The arena as the host sees it, and its canonical form: O19, O21 and O28. -/

namespace Sys2Proof.Machine

/-! ### Host accesses -/

/-- A defined host access has its effect, on the state whose turn list has moved on (R270). -/
theorem step_of_host_defined {s : State} {op : BusOp} {rest : List Turn} (hturns : s.turns = .host op :: rest)
    (hdef : s.status.busy = false ∨ allowedWhileBusy op = true) :
    step s = .next (busEffect op { s with turns := rest }) :=
  (step_of_host hturns).trans (hostAccess_of_allowed hdef)

/-- What a register reads does not depend on the turns still to be taken (assumption log 3). -/
theorem readReg_with_turns (r : Reg) (s : State) (rest : List Turn) : readReg r { s with turns := rest } = readReg r s := by
  cases r <;> rfl

theorem readOffset_with_turns (off : Nat) (s : State) (rest : List Turn) :
    readOffset off { s with turns := rest } = readOffset off s := by
  unfold readOffset
  split
  · exact readReg_with_turns _ s rest
  · rfl

/-- The register reads that R270 defines at all times: those of ID, STATUS and CTRL. -/
theorem allowedWhileBusy_readReg {off : Nat} (h : off ∈ [0x00, 0x02, 0x03]) : allowedWhileBusy (.readReg off) = true := by
  simp only [List.mem_cons, List.not_mem_nil, or_false] at h
  rcases h with rfl | rfl | rfl <;> rfl

/-- Settles O19: a defined read is no fault, and its one effect is the word on the read log. -/
theorem hostReadsHaveNoSideEffect : Obligations.HostReadsHaveNoSideEffect := by
  refine fun s rest => ⟨fun off hturns hdef => ?_, fun a hturns hidle => ?_⟩
  · rw [step_of_host_defined hturns (hdef.imp_right allowedWhileBusy_readReg), ← readOffset_with_turns off s rest]
    rfl
  · exact step_of_host_defined hturns (.inl hidle)

/-! ### Arena words -/

section
variable {s : State} {a : Nat}

/-- A word store inside the arena, in one equation. -/
theorem arenaWrite_of_lt (h : a < arenaWords s) (v : Word) :
    arenaWrite s a v = { s with arena := memWrite s.arena (8 * a) (le64 v) } := if_pos h

/-- A word store outside the arena is ignored (R62). -/
theorem arenaWrite_of_not_lt (h : ¬a < arenaWords s) (v : Word) : arenaWrite s a v = s := if_neg h

/-- A word address outside the arena reads 0 (R62). -/
theorem arenaRead_of_not_lt (h : ¬a < arenaWords s) : arenaRead s a = 0#64 := if_neg h

/-- A word store leaves every byte outside the word. -/
theorem memByte_arenaWrite_outside {c : Nat} (v : Word) (hc : ¬(8 * a ≤ c ∧ c < 8 * a + 8)) :
    memByte (arenaWrite s a v).arena c = memByte s.arena c := by
  by_cases h : a < arenaWords s
  · rw [arenaWrite_of_lt h, memByte_memWrite, le64_length, if_neg hc]
  · rw [arenaWrite_of_not_lt h]

end

/-- Settles O21: the laws of one word access, on the two sides of the arena's bound. -/
theorem arenaWordsAreStorage : Obligations.ArenaWordsAreStorage := by
  refine fun s a v => ⟨fun rest hturns hidle => step_of_host_defined hturns (.inl hidle), fun hin => ?_, fun hout => ?_⟩
  · exact ⟨arenaRead_arenaWrite_same s a v hin, fun c hc => arenaRead_arenaWrite_other s a c v hc,
      fun c hc => memByte_arenaWrite_outside v hc, arenaWrite_eq s a v⟩
  · have hout : ¬a < arenaWords s := Nat.not_lt.2 hout
    exact ⟨arenaRead_of_not_lt hout, arenaWrite_of_not_lt hout v⟩

/-! ### The canonical form -/

section
variable {s : State} (h : ArenaInv s)
include h

theorem arenaInv_arenaWrite (a : Nat) (v : Word) : ArenaInv (arenaWrite s a v) := by
  rw [arenaWrite_eq]
  exact memWf_arenaWrite s a v h

theorem arenaInv_blockWrite (b : Nat) (B : Block) : ArenaInv (blockWrite s b B) := by
  rw [blockWrite_eq]
  exact memWf_blockWrite s b B h

/-- A fill step stores one block, and AGNEXT before it none (R201). -/
theorem arenaInv_fillBody : ArenaInv (fillBody s) := by
  have hag : ArenaInv (agStep s) := by simpa only [ArenaInv, arenaBytes, agStep_arena, agStep_arenaBlocks] using h
  exact arenaInv_blockWrite hag _ _

theorem arenaInv_fillLoop (fuel : Nat) : ArenaInv (fillLoop fuel s) := by
  induction fuel generalizing s with
  | zero => exact h
  | succ fuel ih =>
    rw [fillLoop]
    split
    · exact ih (arenaInv_fillBody h)
    · exact h

/-- Of the commands, only those that store blocks and WIPE have the arena in their row (R52). -/
theorem arenaInv_commandResult {i : Instr} {t : State} (hr : commandResult s i = .ok t) : ArenaInv t := by
  cases i with
  | wipe => cases hr; exact memWf_filter h _
  | bzero | bxor | gcmp =>
    obtain ⟨-, ⟨⟩⟩ := ite_error_right_eq_ok.1 hr
    exact arenaInv_blockWrite h _ _
  | hpfin =>
    obtain ⟨-, hr⟩ := ite_error_right_eq_ok.1 hr
    obtain ⟨-, ⟨⟩⟩ := ite_error_right_eq_ok.1 hr
    exact arenaInv_blockWrite h _ _
  | fillstep =>
    obtain ⟨-, ⟨⟩⟩ := ite_error_right_eq_ok.1 hr
    exact arenaInv_fillBody h
  | fillseg =>
    obtain ⟨-, ⟨⟩⟩ := ite_error_right_eq_ok.1 hr
    exact arenaInv_fillLoop h _
  | _ =>
    rw [commandResult_written hr]
    exact h

theorem arenaInv_engineTurn {t : State} (he : engineTurn s = .next t) : ArenaInv t := by
  rcases engineTurn_next he with ⟨-, rfl⟩ | ⟨i, -, -, hx⟩ | ⟨-, rfl⟩
  · exact h
  · rcases exec_next hx with ⟨u, hr, rfl⟩ | ⟨c, -, rfl⟩
    · exact (arenaInv_commandResult h hr : ArenaInv u)
    · exact h
  · exact h

/-- Of the bus operations, only a write of an arena word changes the arena. -/
theorem arenaInv_busEffect (op : BusOp) : ArenaInv (busEffect op s) := by
  cases op with
  | readReg off | readArena a => exact h
  | writeReg off v =>
    show ArenaInv (writeOffset off v s)
    unfold writeOffset
    split
    · next r _ =>
      cases r with
      | cmd =>
        show ArenaInv (writeCmd v s)
        unfold writeCmd
        split <;> exact h
      | _ => exact h
    · exact h
  | writeArena a v => exact arenaInv_arenaWrite h a v

end

/-- Settles O28: a step is a turn of the engine, a bus operation, or a reset, whose draw is canonical. -/
theorem stepKeepsTheArenaCanonical : Obligations.StepKeepsTheArenaCanonical := by
  intro s t h hstep
  rcases step_next hstep with ⟨u, hu, he⟩ | ⟨op, rest, -, rfl⟩ | ⟨draw, rest, -, rfl⟩
  · rcases hu with rfl | rfl
    · exact arenaInv_engineTurn h he
    · exact arenaInv_engineTurn (s := popTurn s) h he
  · exact arenaInv_busEffect (s := popTurn s) h op
  · exact memWf_drawArena _ _

end Sys2Proof.Machine

/-! PROOFS. O60: the lanes of one slice commute. A fill step of a lane reads the blocks of its own lane and, in another lane, blocks
outside the current slice alone (20_memory.md R78, 45_addrgen.md R204). So filling a lane's segment gives the same blocks
whether or not another lane's segment of that slice has been filled before. -/

namespace Sys2Proof.Machine

/-! ### Blocks, lanes and segments -/

/-- The blocks of slice `slice` of lane `lane`, for lanes of `q` and segments of `sg` blocks (45_addrgen.md R190, R196). -/
def segmentBlocks (q sg lane slice : Nat) : Set Nat := Set.Ico (lane * q + slice * sg) (lane * q + (slice + 1) * sg)

/-- Block `x` of a lane is in a segment exactly when the lane is the segment's and `x` lies in its slice. -/
theorem mem_segmentBlocks_iff {q sg lane lane' slice x : Nat} (hsg : 1 ≤ sg) (hq : q = 4 * sg) (hslice : slice < 4)
    (hx : x < q) : lane * q + x ∈ segmentBlocks q sg lane' slice ↔ lane = lane' ∧ x / sg = slice := by
  have hend : (slice + 1) * sg ≤ q := by rw [hq]; exact Nat.mul_le_mul_right sg hslice
  rw [segmentBlocks, Set.mem_Ico, Nat.div_eq_iff (by omega)]
  constructor
  · rintro ⟨hlow, hhigh⟩
    have hle : lane < lane' + 1 := Nat.lt_of_mul_lt_mul_right (a := q) (by rw [Nat.succ_mul]; omega)
    have hge : lane' < lane + 1 := Nat.lt_of_mul_lt_mul_right (a := q) (by rw [Nat.succ_mul]; omega)
    obtain rfl : lane = lane' := by omega
    rw [Nat.succ_mul] at hhigh
    exact ⟨rfl, by omega, by omega⟩
  · rintro ⟨rfl, hlow, hhigh⟩
    rw [Nat.succ_mul]
    omega

/-- A block of lane `lane < lanes` lies below the end of the last lane. -/
theorem lane_block_lt {q lane lanes x : Nat} (hlane : lane < lanes) (hx : x < q) : lane * q + x < lanes * q :=
  calc
    lane * q + x < (lane + 1) * q := by rw [Nat.succ_mul]; omega
    _ ≤ lanes * q := Nat.mul_le_mul_right q hlane

/-- Segments of different lanes have no block in common. -/
theorem not_mem_segmentBlocks_of_ne {q sg lane lane' slice b : Nat} (hsg : 1 ≤ sg) (hq : q = 4 * sg) (hslice : slice < 4)
    (hne : lane ≠ lane') (hb : b ∈ segmentBlocks q sg lane slice) : b ∉ segmentBlocks q sg lane' slice := by
  have hsplit : b = b / q * q + b % q := by rw [Nat.mul_comm, Nat.div_add_mod]
  have hx : b % q < q := Nat.mod_lt _ (by omega)
  rw [hsplit, mem_segmentBlocks_iff hsg hq hslice hx] at hb ⊢
  rintro ⟨hlane, -⟩
  exact hne (hb.1.symm.trans hlane)

/-! ### The positions of a step -/

/-- The current position is in its slice (R196). -/
theorem lanePosition_lt {slice i q sg : Nat} (hq : q = 4 * sg) (hslice : slice < 4) (hi : i < sg) :
    lanePosition slice i sg < q := by
  have : (slice + 1) * sg ≤ q := by rw [hq]; exact Nat.mul_le_mul_right sg hslice
  rw [Nat.succ_mul] at this
  unfold lanePosition
  omega

theorem lanePosition_div {slice i sg : Nat} (hi : i < sg) : lanePosition slice i sg / sg = slice := by
  rw [lanePosition, Nat.mul_comm, Nat.mul_add_div (by omega), Nat.div_eq_of_lt hi, Nat.add_zero]

/-- The previous block is in the current lane (R196). -/
theorem previousBlock_mem_lane {lane slice i q sg : Nat} (hj : lanePosition slice i sg < q) :
    ∃ x < q, previousBlock lane slice i q sg = lane * q + x := by
  unfold previousBlock
  split
  · exact ⟨q - 1, by omega, by omega⟩
  · exact ⟨lanePosition slice i sg - 1, by omega, by unfold currentBlock; omega⟩

/-- The reference lane is a lane of the configuration (R198). -/
theorem referenceLane_lt {pass slice lane lanes : Nat} (hlane : lane < lanes) (pr : Word) :
    referenceLane pass slice lane lanes pr < lanes := by
  unfold referenceLane
  split
  · exact hlane
  · exact Nat.mod_lt _ (by omega)

theorem indexAlpha_lt {q : Nat} (hq : 0 < q) (pass slice i sg : Nat) (same : Bool) (x : Nat) :
    indexAlpha pass slice i q sg same x < q := Nat.mod_lt _ hq

/-- The relative position is one of the area, when the area is not empty (R200). -/
theorem relativePosition_lt {area x : Nat} (hx : x < 2 ^ 32) (ha : 1 ≤ area) (hb : area < 2 ^ 32) :
    (relativePosition area x).toNat < area := by
  rw [relativePosition_toNat hx ha hb]
  omega

/-- The area in another lane in pass 0: the slices before the current one, less one block at the slice's start (R199). -/
theorem referenceArea_other_first_pass {slice : Nat} (hslice : slice ≠ 0) (i q sg : Nat) :
    slice * sg - 1 ≤ referenceArea 0 slice i q sg false ∧ referenceArea 0 slice i q sg false ≤ slice * sg := by
  simp only [referenceArea, if_neg hslice, if_true, Bool.false_eq_true, if_false]
  split <;> omega

/-- The area in another lane after pass 0: the other three slices, less one block at the slice's start (R199). -/
theorem referenceArea_other_later_pass {pass : Nat} (hpass : pass ≠ 0) (slice i q sg : Nat) :
    q - sg - 1 ≤ referenceArea pass slice i q sg false ∧ referenceArea pass slice i q sg false ≤ q - sg := by
  simp only [referenceArea, if_neg hpass, Bool.false_eq_true, if_false]
  split <;> omega

/-- In pass 0 a reference into another lane lies in an earlier slice, or, from the empty area of a segment of one block, in the last
slice (R204, assumption log 12). -/
theorem indexAlpha_div_ne_slice_first_pass {slice i q sg x : Nat} (hx : x < 2 ^ 32) (hsg : 1 ≤ sg) (hq : q = 4 * sg)
    (hq32 : q < 2 ^ 32) (hslice : slice < 4) (hfirst : slice ≠ 0) : indexAlpha 0 slice i q sg false x / sg ≠ slice := by
  obtain ⟨hlow, hhigh⟩ := referenceArea_other_first_pass hfirst i q sg
  have hpos : sg ≤ slice * sg := Nat.le_mul_of_pos_left sg (by omega)
  have hend : slice * sg ≤ 3 * sg := Nat.mul_le_mul_right sg (by omega)
  rcases Nat.eq_zero_or_pos (referenceArea 0 slice i q sg false) with hempty | harea
  · obtain rfl : sg = 1 := by omega
    obtain rfl : slice = 1 := by omega
    rw [indexAlpha, hempty, relativePosition_zero, hq]
    decide
  · have hrel := relativePosition_lt hx harea (by omega)
    have hindex : indexAlpha 0 slice i q sg false x < slice * sg := by
      rw [indexAlpha, referenceStart, if_pos rfl, Nat.zero_add, Nat.mod_eq_of_lt (by omega)]
      omega
    exact ((Nat.div_lt_iff_lt_mul (by omega)).2 hindex).ne

/-- After pass 0 a reference into another lane lies in the three slices that follow the current one, going round (R204). -/
theorem indexAlpha_div_ne_slice_later_pass {pass slice i q sg x : Nat} (hx : x < 2 ^ 32) (hsg : 1 ≤ sg) (hq : q = 4 * sg)
    (hq32 : q < 2 ^ 32) (hslice : slice < 4) (hpass : pass ≠ 0) : indexAlpha pass slice i q sg false x / sg ≠ slice := by
  obtain ⟨hlow, hhigh⟩ := referenceArea_other_later_pass hpass slice i q sg
  have hrel := relativePosition_lt hx (by omega) (by omega : referenceArea pass slice i q sg false < 2 ^ 32)
  rw [indexAlpha, referenceStart, if_neg hpass]
  generalize (relativePosition (referenceArea pass slice i q sg false) x).toNat = rel at hrel
  by_cases hlast : slice = 3
  · rw [if_pos hlast, Nat.zero_add, Nat.mod_eq_of_lt (by omega)]
    have : rel / sg < 3 := (Nat.div_lt_iff_lt_mul (by omega)).2 (by omega)
    omega
  · rw [if_neg hlast]
    have hnext : (slice + 1) * sg = slice * sg + sg := Nat.succ_mul slice sg
    have hbefore : slice * sg ≤ 2 * sg := Nat.mul_le_mul_right sg (by omega)
    by_cases hwrap : (slice + 1) * sg + rel < q
    · rw [Nat.mod_eq_of_lt hwrap]
      have : slice + 1 ≤ ((slice + 1) * sg + rel) / sg := (Nat.le_div_iff_mul_le (by omega)).2 (by omega)
      omega
    · rw [Nat.mod_eq_sub_mod (by omega), Nat.mod_eq_of_lt (by omega)]
      exact ((Nat.div_lt_iff_lt_mul (by omega)).2 (by omega)).ne

/-- A reference into another lane lies outside the current slice (R204). -/
theorem indexAlpha_div_ne_slice {pass slice i q sg x : Nat} (hx : x < 2 ^ 32) (hsg : 1 ≤ sg) (hq : q = 4 * sg)
    (hq32 : q < 2 ^ 32) (hslice : slice < 4) (hfirst : ¬(pass = 0 ∧ slice = 0)) :
    indexAlpha pass slice i q sg false x / sg ≠ slice := by
  by_cases hpass : pass = 0
  · subst hpass
    exact indexAlpha_div_ne_slice_first_pass hx hsg hq hq32 hslice fun h => hfirst ⟨rfl, h⟩
  · exact indexAlpha_div_ne_slice_later_pass hx hsg hq hq32 hslice hpass

/-! ### The blocks that a fill step names -/

/-- The block before the current one (R196). -/
def stepPrevious (s : State) : Nat :=
  previousBlock s.agLane.toNat s.agSlice.toNat s.agIndex.toNat s.lanelen.toNat s.seglen.toNat

/-- The reference lane for the value `pr` of PRAND (R198). -/
def stepRefLane (s : State) (pr : Word) : Nat :=
  referenceLane s.agPass.toNat s.agSlice.toNat s.agLane.toNat s.actP.toNat pr

/-- The reference block's position within its lane for the value `pr` of PRAND (R199, R200). -/
def stepRefIndex (s : State) (pr : Word) : Nat :=
  indexAlpha s.agPass.toNat s.agSlice.toNat s.agIndex.toNat s.lanelen.toNat s.seglen.toNat
    (decide (stepRefLane s pr = s.agLane.toNat)) (lo32 pr)

theorem agStep_prand (s : State) : (agStep s).prand = pseudoRand (stepPrevious s) (refillIfDue s) := rfl

theorem agStep_prevBlk (s : State) : (agStep s).prevBlk = BitVec.ofNat 32 (stepPrevious s) := rfl

theorem agStep_curBlk (s : State) :
    (agStep s).curBlk =
      BitVec.ofNat 32 (s.agLane.toNat * s.lanelen.toNat + lanePosition s.agSlice.toNat s.agIndex.toNat s.seglen.toNat) :=
  rfl

theorem agStep_refBlk (s : State) :
    (agStep s).refBlk =
      BitVec.ofNat 32 (stepRefLane s (agStep s).prand * s.lanelen.toNat + stepRefIndex s (agStep s).prand) := by
  simp only [agStep, refillIfDue_actP]
  rfl

section
variable {s : State} (h : Inv s) (hact : s.status.agact = true)
include h hact

/-- The shape of the memory while a segment is active (R33, R192). -/
theorem lane_shape_of_active :
    1 ≤ s.seglen.toNat ∧ s.lanelen.toNat = 4 * s.seglen.toNat ∧ s.agLane.toNat < s.actP.toNat := by
  obtain ⟨hactive, -⟩ := h.segment
  obtain ⟨hcfg, -, hlane, -⟩ := hactive hact
  obtain ⟨-, -, -, hsg, hq, -⟩ := h.config hcfg
  exact ⟨hsg, hq, hlane⟩

/-- A block of a lane of the configuration is one of its MPRIME blocks (R33). -/
theorem lane_block_lt_mprime {lane x : Nat} (hlane : lane < s.actP.toNat) (hx : x < s.lanelen.toNat) :
    lane * s.lanelen.toNat + x < s.mprime.toNat := by
  obtain ⟨hactive, -⟩ := h.segment
  obtain ⟨hcfg, -⟩ := hactive hact
  obtain ⟨-, -, -, -, -, hblocks, -⟩ := h.config hcfg
  exact hblocks ▸ lane_block_lt hlane hx

end

section
variable {s : State} (h : Inv s) (ho : segmentOpen s = true)
include h ho

/-- The current block is a block of the current lane, in the current slice (R196). -/
theorem curBlk_position :
    ∃ x < s.lanelen.toNat, x / s.seglen.toNat = s.agSlice.toNat ∧
      (agStep s).curBlk.toNat = s.agLane.toNat * s.lanelen.toNat + x := by
  obtain ⟨hact, hopen⟩ := segmentOpen_iff.1 ho
  obtain ⟨-, hq, hlane⟩ := lane_shape_of_active h hact
  have hj := lanePosition_lt hq s.agSlice.isLt hopen
  refine ⟨_, hj, lanePosition_div hopen, ?_⟩
  rw [agStep_curBlk, toNat_ofNat_of_lt ((lane_block_lt_mprime h hact hlane hj).trans s.mprime.isLt)]

/-- The previous block is a block of the current lane (R196). -/
theorem prevBlk_position :
    (agStep s).prevBlk.toNat = stepPrevious s ∧
      ∃ x < s.lanelen.toNat, stepPrevious s = s.agLane.toNat * s.lanelen.toNat + x := by
  obtain ⟨hact, hopen⟩ := segmentOpen_iff.1 ho
  obtain ⟨-, hq, hlane⟩ := lane_shape_of_active h hact
  obtain ⟨x, hx, hprev⟩ : ∃ x < s.lanelen.toNat, stepPrevious s = s.agLane.toNat * s.lanelen.toNat + x :=
    previousBlock_mem_lane (lanePosition_lt hq s.agSlice.isLt hopen)
  refine ⟨?_, x, hx, hprev⟩
  rw [agStep_prevBlk, hprev, toNat_ofNat_of_lt ((lane_block_lt_mprime h hact hlane hx).trans s.mprime.isLt)]

/-- The reference block is a block of a lane of the configuration; in another lane it lies outside the current slice
(R198, R204). -/
theorem refBlk_position :
    ∃ lane < s.actP.toNat, ∃ x < s.lanelen.toNat, (agStep s).refBlk.toNat = lane * s.lanelen.toNat + x ∧
      (lane ≠ s.agLane.toNat → x / s.seglen.toNat ≠ s.agSlice.toNat) := by
  obtain ⟨hact, -⟩ := segmentOpen_iff.1 ho
  obtain ⟨hsg, hq, hlane⟩ := lane_shape_of_active h hact
  have href : stepRefLane s (agStep s).prand < s.actP.toNat := referenceLane_lt hlane _
  have hx : stepRefIndex s (agStep s).prand < s.lanelen.toNat := indexAlpha_lt (by omega) _ _ _ _ _ _
  refine ⟨_, href, _, hx, ?_, fun hne => ?_⟩
  · rw [agStep_refBlk, toNat_ofNat_of_lt ((lane_block_lt_mprime h hact href hx).trans s.mprime.isLt)]
  · have hfirst : ¬(s.agPass.toNat = 0 ∧ s.agSlice.toNat = 0) := fun hf => hne (if_pos hf)
    rw [stepRefIndex, decide_eq_false hne]
    exact indexAlpha_div_ne_slice (Nat.mod_lt _ (by decide)) hsg hq s.lanelen.isLt s.agSlice.isLt hfirst

/-- No block that a fill step names lies in another lane's segment of the same slice (R78, R204). -/
theorem step_avoids_other_segments {lane' : Nat} (hne : s.agLane.toNat ≠ lane') :
    (agStep s).curBlk.toNat ∉ segmentBlocks s.lanelen.toNat s.seglen.toNat lane' s.agSlice.toNat ∧
    (agStep s).refBlk.toNat ∉ segmentBlocks s.lanelen.toNat s.seglen.toNat lane' s.agSlice.toNat ∧
    (agStep s).prevBlk.toNat ∉ segmentBlocks s.lanelen.toNat s.seglen.toNat lane' s.agSlice.toNat := by
  obtain ⟨hsg, hq, -⟩ := lane_shape_of_active h (segmentOpen_iff.1 ho).1
  have hmem {lane x : Nat} (hx : x < s.lanelen.toNat) :=
    mem_segmentBlocks_iff (lane := lane) (lane' := lane') hsg hq s.agSlice.isLt hx
  obtain ⟨c, hc, -, hcur⟩ := curBlk_position h ho
  obtain ⟨lane, -, x, hx, href, hother⟩ := refBlk_position h ho
  obtain ⟨hprevEq, p, hp, hprev⟩ := prevBlk_position h ho
  rw [hcur, href, hprevEq, hprev, hmem hc, hmem hx, hmem hp]
  exact ⟨fun hin => hne hin.1, fun hin => hother (fun heq => hne (heq.symm.trans hin.1)) hin.2, fun hin => hne hin.1⟩

/-- The block that a fill step writes lies in the segment being filled (R202). -/
theorem curBlk_mem_segment :
    (agStep s).curBlk.toNat ∈ segmentBlocks s.lanelen.toNat s.seglen.toNat s.agLane.toNat s.agSlice.toNat := by
  obtain ⟨hsg, hq, -⟩ := lane_shape_of_active h (segmentOpen_iff.1 ho).1
  obtain ⟨c, hc, hslice, hcur⟩ := curBlk_position h ho
  rw [hcur, mem_segmentBlocks_iff hsg hq s.agSlice.isLt hc]
  exact ⟨rfl, hslice⟩

end

/-! ### What a block read depends on -/

@[simp] theorem blockRead_complete (s : State) (b : Nat) : blockRead (complete s) b = blockRead s b := rfl

theorem blockRead_congr {s t : State} (harena : t.arena = s.arena) (hsize : t.arenaBlocks = s.arenaBlocks) (b : Nat) :
    blockRead t b = blockRead s b := by
  rw [blockRead, blockRead, harena, hsize]

@[simp] theorem blockRead_agStep (s : State) (b : Nat) : blockRead (agStep s) b = blockRead s b :=
  blockRead_congr (agStep_arena s) (agStep_arenaBlocks s) b

@[simp] theorem blockRead_refillIfDue (s : State) (b : Nat) : blockRead (refillIfDue s) b = blockRead s b :=
  blockRead_congr (refillIfDue_arena s) (refillIfDue_arenaBlocks s) b

/-- Canonical arenas of one size with the same blocks are the same (R60). -/
theorem arena_eq_of_blockRead {s t : State} (hs : ArenaInv s) (ht : ArenaInv t) (hsize : t.arenaBlocks = s.arenaBlocks)
    (hblocks : ∀ b, blockRead s b = blockRead t b) : s.arena = t.arena := by
  refine mem_ext hs ht fun a => ?_
  by_cases ha : a < 1024 * s.arenaBlocks
  · have hb : a / 1024 < s.arenaBlocks := Nat.div_lt_of_lt_mul ha
    have hbytes := congrArg blockBytes (hblocks (a / 1024))
    rw [blockBytes_blockRead s _ hb, blockBytes_blockRead t _ (hsize ▸ hb), memBytes_eq, memBytes_eq] at hbytes
    have hbyte := List.map_inj_left.1 hbytes (a % 1024) (List.mem_range.2 (Nat.mod_lt _ (by decide)))
    rwa [Nat.div_add_mod] at hbyte
  · have hout {u : State} (hu : ArenaInv u) (hblocks : u.arenaBlocks = s.arenaBlocks) : memByte u.arena a = unlisted a := by
      refine memByte_of_not_listed fun c hc hca => ha ?_
      rw [← hca, ← hblocks]
      exact ((memWf_iff.1 hu).2 c hc).2
    rw [hout hs rfl, hout ht hsize]

/-! ### What the address generator depends on -/

/-- The parts of the state that the address generator computes with, the arena apart (R191–R200); every other part as after
reset. -/
def generatorOf (s : State) : State :=
  { State.afterReset s.arenaBlocks [] with
    actP := s.actP, actT := s.actT, actY := s.actY, mprime := s.mprime, lanelen := s.lanelen, seglen := s.seglen
    agPass := s.agPass, agSlice := s.agSlice, agLane := s.agLane, agIndex := s.agIndex, agCtr := s.agCtr, ag := s.ag
    status := { Status.zero with agind := s.status.agind } }

theorem generatorOf_refillIfDue (s : State) : generatorOf (refillIfDue s) = refillIfDue (generatorOf s) := by
  show generatorOf (if needsRefill s then refill s else s) =
    if needsRefill s then refill (generatorOf s) else generatorOf s
  split <;> rfl

@[simp] theorem generatorOf_blockWrite (s : State) (b : Nat) (B : Block) :
    generatorOf (blockWrite s b B) = generatorOf s := by
  unfold blockWrite
  split <;> rfl

/-- PRAND comes from the generator's own address block or from a block of the arena (R197). -/
theorem pseudoRand_eq (prev : Nat) (s : State) :
    pseudoRand prev s = if s.status.agind then pseudoRand prev (generatorOf s) else (blockRead s prev).get 0 := by
  unfold pseudoRand
  split
  · next hind => exact (if_pos hind).symm
  · rfl

/-- Two machines whose address generators agree, and whose blocks agree outside `W`. -/
structure AgreeOutside (W : Set Nat) (s s' : State) : Prop where
  generator : generatorOf s' = generatorOf s
  blocks : ∀ b ∉ W, blockRead s' b = blockRead s b

namespace AgreeOutside
variable {W : Set Nat} {s s' : State} (h : AgreeOutside W s s')
include h

/-- A quantity that the generator's parts determine is the same in both machines. -/
theorem congr {α : Type} (f : State → α) (hf : ∀ u, f (generatorOf u) = f u) : f s' = f s := by
  rw [← hf s', h.generator, hf]

theorem arenaBlocks_eq : s'.arenaBlocks = s.arenaBlocks := h.congr State.arenaBlocks fun _ => rfl

theorem refillIfDue : AgreeOutside W (refillIfDue s) (refillIfDue s') where
  generator := by rw [generatorOf_refillIfDue, generatorOf_refillIfDue, h.generator]
  blocks b hb := by rw [blockRead_refillIfDue, blockRead_refillIfDue, h.blocks b hb]

theorem pseudoRand_eq {prev : Nat} (hprev : prev ∉ W) : pseudoRand prev s' = pseudoRand prev s := by
  have hind : s'.status.agind = s.status.agind := h.congr (fun u => u.status.agind) fun _ => rfl
  rw [Machine.pseudoRand_eq, Machine.pseudoRand_eq prev s, hind, h.generator, h.blocks prev hprev]

/-- The next step of the generator names the same blocks in both machines (R195). -/
theorem agStep_blocks (hprev : stepPrevious s ∉ W) :
    (agStep s').curBlk = (agStep s).curBlk ∧ (agStep s').refBlk = (agStep s).refBlk ∧
      (agStep s').prevBlk = (agStep s).prevBlk := by
  have hprevEq : stepPrevious s' = stepPrevious s := h.congr stepPrevious fun _ => rfl
  have hprand : (agStep s').prand = (agStep s).prand := by
    rw [agStep_prand, agStep_prand, hprevEq, h.refillIfDue.pseudoRand_eq hprev]
  refine ⟨h.congr (fun u => (agStep u).curBlk) fun _ => rfl, ?_, h.congr (fun u => (agStep u).prevBlk) fun _ => rfl⟩
  rw [agStep_refBlk, agStep_refBlk, hprand]
  exact h.congr
    (fun u => BitVec.ofNat 32 (stepRefLane u (agStep s).prand * u.lanelen.toNat + stepRefIndex u (agStep s).prand))
    fun _ => rfl

theorem agStep : AgreeOutside W (agStep s) (agStep s') where
  generator := congrArg (fun u => { u with agIndex := u.agIndex + 1 }) h.refillIfDue.generator
  blocks b hb := by rw [blockRead_agStep, blockRead_agStep, h.blocks b hb]

/-- The same block stored in both machines. -/
theorem blockWrite (b : Nat) (B : Block) : AgreeOutside W (blockWrite s b B) (blockWrite s' b B) where
  generator := by rw [generatorOf_blockWrite, generatorOf_blockWrite, h.generator]
  blocks c hc := by
    by_cases hb : b < s.arenaBlocks
    · by_cases hcb : c = b
      · rw [hcb, blockRead_blockWrite_same s b B hb, blockRead_blockWrite_same s' b B (h.arenaBlocks_eq ▸ hb)]
      · rw [blockRead_blockWrite_other s b c B hcb, blockRead_blockWrite_other s' b c B hcb, h.blocks c hc]
    · rw [blockWrite_of_not_lt hb, blockWrite_of_not_lt (h.arenaBlocks_eq ▸ hb), h.blocks c hc]

/-- A fill step that names no block of `W` does the same in both machines (R201). -/
theorem fillBody (hcur : (Machine.agStep s).curBlk.toNat ∉ W) (href : (Machine.agStep s).refBlk.toNat ∉ W)
    (hprev : (Machine.agStep s).prevBlk.toNat ∉ W) (hprevEq : (Machine.agStep s).prevBlk.toNat = stepPrevious s) :
    AgreeOutside W (fillBody s) (fillBody s') := by
  obtain ⟨hcurEq, hrefEq, hprevBlkEq⟩ := h.agStep_blocks (hprevEq ▸ hprev)
  have hblocks := h.agStep.blocks
  unfold Machine.fillBody compressStep
  rw [hcurEq, hrefEq, hprevBlkEq, hblocks _ hcur, hblocks _ href, hblocks _ hprev]
  exact h.agStep.blockWrite _ _

/-- FILLSEG's loop does the same in two machines that agree outside another lane's segment of the slice (R202, R78). -/
theorem fillLoop {lane' : Nat} (hinv : Inv s) (hact : s.status.agact = true) (hne : s.agLane.toNat ≠ lane')
    (hW : W = segmentBlocks s.lanelen.toNat s.seglen.toNat lane' s.agSlice.toNat) (fuel : Nat) :
    AgreeOutside W (fillLoop fuel s) (fillLoop fuel s') := by
  induction fuel generalizing s s' with
  | zero => exact h
  | succ fuel ih =>
    have hidx : s'.agIndex = s.agIndex := h.congr State.agIndex fun _ => rfl
    have hsg : s'.seglen = s.seglen := h.congr State.seglen fun _ => rfl
    rw [Machine.fillLoop, Machine.fillLoop, hidx, hsg]
    split
    · next hopen =>
      have ho := segmentOpen_iff.2 ⟨hact, hopen⟩
      obtain ⟨hcur, href, hprev⟩ := step_avoids_other_segments hinv ho hne
      rw [← hW] at hcur href hprev
      have hbody := h.fillBody hcur href hprev (prevBlk_position hinv ho).1
      exact ih hbody (hinv.fillBody ho) (by rw [fillBody_status, hact]) (by rw [fillBody_agLane]; exact hne)
        (by rw [fillBody_lanelen, fillBody_seglen, fillBody_agSlice, hW])
    · exact h

end AgreeOutside

/-- FILLSEG's loop leaves every block outside its segment (R202). -/
theorem blockRead_fillLoop {s : State} (h : Inv s) (hact : s.status.agact = true) (fuel : Nat) {b : Nat}
    (hb : b ∉ segmentBlocks s.lanelen.toNat s.seglen.toNat s.agLane.toNat s.agSlice.toNat) :
    blockRead (fillLoop fuel s) b = blockRead s b := by
  induction fuel generalizing s with
  | zero => rfl
  | succ fuel ih =>
    rw [fillLoop]
    split
    · next hopen =>
      have ho := segmentOpen_iff.2 ⟨hact, hopen⟩
      have hne : b ≠ (agStep s).curBlk.toNat := fun heq => hb (heq ▸ curBlk_mem_segment h ho)
      rw [ih (h.fillBody ho) (by rw [fillBody_status, hact])
        (by rw [fillBody_lanelen, fillBody_seglen, fillBody_agLane, fillBody_agSlice]; exact hb)]
      rw [fillBody, compressStep, blockRead_blockWrite_other _ _ _ _ hne, blockRead_agStep]
    · rfl

/-! ### Filling one lane -/

/-- The state after AGSEG with the operands `pass`, `slice`, `lane` (R192). -/
def openLane (pass slice lane : Word) (s : State) : State :=
  complete (startSegment pass slice lane { s with opa := pass, opb := slice, opc := lane })

/-- The state after AGSEG with the operands `pass`, `slice`, `lane` and FILLSEG (R192, R202). -/
def fillLane (pass slice lane : Word) (s : State) : State :=
  complete (fillLoop ((openLane pass slice lane s).seglen.toNat - (openLane pass slice lane s).agIndex.toNat)
    (openLane pass slice lane s))

/-- The operands name a segment of the active configuration (R190, R192). -/
def LegalSegment (pass slice lane : Word) (s : State) : Prop :=
  s.status.cfgv = true ∧ pass.toNat < s.actT.toNat ∧ slice.toNat < 4 ∧ lane.toNat < s.actP.toNat

/-- The blocks of the segment that the operands `slice` and `lane` name (R190, R196). -/
def ownBlocks (slice lane : Word) (s : State) : Set Nat :=
  segmentBlocks s.lanelen.toNat s.seglen.toNat lane.toNat slice.toNat

/-- What AGSEG leaves: the position, the mode, the hidden blocks, and the completed report (R192). -/
theorem openLane_eq (pass slice lane : Word) (s : State) :
    openLane pass slice lane s =
      { s with
        opa := pass, opb := slice, opc := lane
        agPass := pass.setWidth 32, agSlice := slice.setWidth 2, agLane := lane.setWidth 32
        agIndex := BitVec.ofNat 32 (firstIndex pass.toNat slice.toNat), agCtr := 0
        status := { s.status with
          busy := false, done := true, agact := true, agind := addressMode s.actY pass.toNat slice.toNat }
        ag := (openLane pass slice lane s).ag } := by
  unfold openLane
  rw [startSegment_eq]
  rfl

theorem blockRead_openLane (pass slice lane : Word) (s : State) (b : Nat) :
    blockRead (openLane pass slice lane s) b = blockRead s b := by
  rw [openLane_eq]
  rfl

/-- AGSEG sets the generator from its operands and the configuration alone (R192, R193). -/
theorem generatorOf_openLane {s s' : State} (hc : SameConfiguration s s') (hsize : s'.arenaBlocks = s.arenaBlocks)
    (pass slice lane : Word) : generatorOf (openLane pass slice lane s') = generatorOf (openLane pass slice lane s) := by
  obtain ⟨hp, ht, hy, hm, hq, hsg, -⟩ := hc
  simp only [generatorOf, openLane, startSegment, initInputBlock, complete, hp, ht, hy, hm, hq, hsg, hsize]
  split <;> rfl

theorem exec_agseg {pass slice lane : Word} {s : State} (hl : LegalSegment pass slice lane s) :
    exec .agseg { s with opa := pass, opb := slice, opc := lane } = .next (openLane pass slice lane s) := by
  obtain ⟨hcfg, hpass, hslice, hlane⟩ := hl
  refine exec_of_ok ?_
  simp only [commandResult, cmdAgseg, hcfg, if_true]
  exact if_neg (by omega)

theorem openLane_agact (pass slice lane : Word) (s : State) : (openLane pass slice lane s).status.agact = true := by
  rw [openLane_eq]

theorem exec_fillseg_openLane (pass slice lane : Word) (s : State) :
    exec .fillseg (openLane pass slice lane s) = .next (fillLane pass slice lane s) :=
  exec_of_ok (if_pos (openLane_agact pass slice lane s))

/-- The segment that AGSEG opened is the one that its operands name (R192). -/
theorem openLane_segment {pass slice lane : Word} {s : State} (hl : LegalSegment pass slice lane s) :
    (openLane pass slice lane s).agLane.toNat = lane.toNat ∧ (openLane pass slice lane s).agSlice.toNat = slice.toNat ∧
      (openLane pass slice lane s).lanelen = s.lanelen ∧ (openLane pass slice lane s).seglen = s.seglen := by
  obtain ⟨-, -, hslice, hlane⟩ := hl
  rw [openLane_eq]
  exact ⟨toNat_setWidth_of_lt (hlane.trans s.actP.isLt), toNat_setWidth_of_lt hslice, rfl, rfl⟩

theorem exec_arenaBlocks {i : Instr} {s t : State} (he : exec i s = .next t) : t.arenaBlocks = s.arenaBlocks := by
  obtain ⟨-, -, -, -, -, -, -, -, -, hblocks, -⟩ := commandsKeepTheHostsRegisters i s t he
  exact hblocks

/-- Two machines with the same configuration and size, whose blocks agree outside `W`. -/
structure SameOutside (W : Set Nat) (s s' : State) : Prop where
  config : SameConfiguration s s'
  size : s'.arenaBlocks = s.arenaBlocks
  blocks : ∀ b ∉ W, blockRead s' b = blockRead s b

theorem SameOutside.ownBlocks_eq {W : Set Nat} {s s' : State} (h : SameOutside W s s') (slice lane : Word) :
    ownBlocks slice lane s' = ownBlocks slice lane s := by
  obtain ⟨-, -, -, -, hq, hsg, -⟩ := h.config
  rw [ownBlocks, ownBlocks, hq, hsg]

theorem SameOutside.legalSegment {W : Set Nat} {s s' : State} (h : SameOutside W s s') {pass slice lane : Word}
    (hl : LegalSegment pass slice lane s) : LegalSegment pass slice lane s' := by
  obtain ⟨hp, ht, -, -, -, -, hv⟩ := h.config
  rwa [LegalSegment, hp, ht, hv]

section
variable {pass slice lane : Word} {s : State} (h : Inv s) (hl : LegalSegment pass slice lane s)
include h hl

theorem inv_openLane : Inv (openLane pass slice lane s) :=
  Inv.exec (s := { s with opa := pass, opb := slice, opc := lane }) { h with } (exec_agseg hl)

theorem inv_fillLane : Inv (fillLane pass slice lane s) := (inv_openLane h hl).exec (exec_fillseg_openLane ..)

/-- Filling a lane's segment keeps the configuration and every block outside the segment (R202). -/
theorem fillLane_sameOutside : SameOutside (ownBlocks slice lane s) s (fillLane pass slice lane s) where
  config := by
    have hc := exec_configuration (exec_fillseg_openLane pass slice lane s) (by decide)
    rwa [openLane_eq] at hc
  size := by
    rw [exec_arenaBlocks (exec_fillseg_openLane pass slice lane s), openLane_eq]
  blocks b hb := by
    obtain ⟨hlane, hslice, hq, hsg⟩ := openLane_segment hl
    rw [fillLane, blockRead_complete, blockRead_fillLoop (inv_openLane h hl) (openLane_agact ..), blockRead_openLane]
    rwa [hlane, hslice, hq, hsg]

/-- Filling a lane's segment does not depend on the blocks of another lane's segment of the slice (R78, R204). -/
theorem blockRead_fillLane_congr {lane' : Word} {s' : State} (hne : lane ≠ lane')
    (hs : SameOutside (ownBlocks slice lane' s) s s') {b : Nat} (hb : b ∉ ownBlocks slice lane' s) :
    blockRead (fillLane pass slice lane s') b = blockRead (fillLane pass slice lane s) b := by
  obtain ⟨hlane, hslice, hq, hsg⟩ := openLane_segment hl
  have hopen : AgreeOutside (ownBlocks slice lane' s) (openLane pass slice lane s) (openLane pass slice lane s') :=
    { generator := generatorOf_openLane hs.config hs.size pass slice lane
      blocks := fun c hc => by rw [blockRead_openLane, blockRead_openLane, hs.blocks c hc] }
  have hidx : (openLane pass slice lane s').agIndex = (openLane pass slice lane s).agIndex :=
    hopen.congr State.agIndex fun _ => rfl
  have hseg : (openLane pass slice lane s').seglen = (openLane pass slice lane s).seglen :=
    hopen.congr State.seglen fun _ => rfl
  have hfill := hopen.fillLoop (inv_openLane h hl) (openLane_agact ..)
    (by rw [hlane]; exact fun heq => hne (BitVec.eq_of_toNat_eq heq)) (by rw [hq, hsg, hslice]; rfl)
  rw [fillLane, fillLane, blockRead_complete, blockRead_complete, hidx, hseg, (hfill _).blocks b hb]

end

section
variable {pass slice lane₁ lane₂ : Word} {s : State} (h : Inv s) (hl₁ : LegalSegment pass slice lane₁ s)
  (hl₂ : LegalSegment pass slice lane₂ s) (hne : lane₁ ≠ lane₂)
include h hl₁ hl₂ hne

/-- Outside the first lane's segment, both orders leave what filling the second lane alone leaves. -/
theorem blockRead_fillLane_comm_outside {b : Nat} (hb : b ∉ ownBlocks slice lane₁ s) :
    blockRead (fillLane pass slice lane₂ (fillLane pass slice lane₁ s)) b =
      blockRead (fillLane pass slice lane₁ (fillLane pass slice lane₂ s)) b := by
  have h₁ := fillLane_sameOutside h hl₁
  have h₂ := fillLane_sameOutside h hl₂
  calc
    blockRead (fillLane pass slice lane₂ (fillLane pass slice lane₁ s)) b = blockRead (fillLane pass slice lane₂ s) b :=
      blockRead_fillLane_congr h hl₂ hne.symm h₁ hb
    _ = blockRead (fillLane pass slice lane₁ (fillLane pass slice lane₂ s)) b :=
      ((fillLane_sameOutside (inv_fillLane h hl₂) (h₂.legalSegment hl₁)).blocks b
        (by rwa [h₂.ownBlocks_eq])).symm

/-- The segments of two lanes have no block in common, so every block lies outside one of them. -/
theorem blockRead_fillLane_comm (b : Nat) :
    blockRead (fillLane pass slice lane₂ (fillLane pass slice lane₁ s)) b =
      blockRead (fillLane pass slice lane₁ (fillLane pass slice lane₂ s)) b := by
  by_cases hb : b ∈ ownBlocks slice lane₁ s
  · have ⟨hcfg, _, hslice, _⟩ := hl₁
    obtain ⟨-, -, -, hsg, hq, -⟩ := h.config hcfg
    have hlanes : lane₁.toNat ≠ lane₂.toNat := fun heq => hne (BitVec.eq_of_toNat_eq heq)
    exact (blockRead_fillLane_comm_outside h hl₂ hl₁ hne.symm (not_mem_segmentBlocks_of_ne hsg hq hslice hlanes hb)).symm
  · exact blockRead_fillLane_comm_outside h hl₁ hl₂ hne hb

theorem fillLane_comm_arena :
    (fillLane pass slice lane₂ (fillLane pass slice lane₁ s)).arena =
      (fillLane pass slice lane₁ (fillLane pass slice lane₂ s)).arena := by
  have h₁ := fillLane_sameOutside h hl₁
  have h₂ := fillLane_sameOutside h hl₂
  have h₁₂ := fillLane_sameOutside (inv_fillLane h hl₁) (h₁.legalSegment hl₂)
  have h₂₁ := fillLane_sameOutside (inv_fillLane h hl₂) (h₂.legalSegment hl₁)
  exact arena_eq_of_blockRead (inv_fillLane (inv_fillLane h hl₁) (h₁.legalSegment hl₂)).arena
    (inv_fillLane (inv_fillLane h hl₂) (h₂.legalSegment hl₁)).arena
    (by rw [h₂₁.size, h₂.size, h₁₂.size, h₁.size]) (blockRead_fillLane_comm h hl₁ hl₂ hne)

end

/-- Settles O60: each lane's segment is filled from blocks that the other lane's filling does not write. -/
theorem lanesOfOneSliceCommute : Obligations.LanesOfOneSliceCommute := by
  intro s r sl l₁ l₂ h hcfg hr hsl h₁ h₂ hne
  have hl₁ : LegalSegment r sl l₁ s := ⟨hcfg, hr, hsl, h₁⟩
  have hl₂ : LegalSegment r sl l₂ s := ⟨hcfg, hr, hsl, h₂⟩
  have hl₂' := (fillLane_sameOutside h hl₁).legalSegment hl₂
  have hl₁' := (fillLane_sameOutside h hl₂).legalSegment hl₁
  exact ⟨_, _, _, _, _, _, _, _, exec_agseg hl₁, exec_fillseg_openLane .., exec_agseg hl₂', exec_fillseg_openLane ..,
    exec_agseg hl₂, exec_fillseg_openLane .., exec_agseg hl₁', exec_fillseg_openLane ..,
    fillLane_comm_arena h hl₁ hl₂ hne⟩

end Sys2Proof.Machine

/-! PROOFS. The command encoding: the decoder and the encoder are inverse, and the decoder accepts the words of the opcode table:
O1, O2, O3, O4 and O5. Both the decoder and the rows of the table are held against one test of a word's fields. -/

namespace Sys2Proof

/-! ### The word of a decoded command -/

theorem wField_ne_zero_iff (w : Word) : wordField w 8 1 ≠ 0 ↔ wordField w 8 1 = 1 := by
  have hlt : wordField w 8 1 < 2 := wordField_lt w 8 1
  omega

section
variable {w : Word}

theorem operands_of_opcodeInstr_b2init {nn kk : Nat} (h : opcodeInstr w = some (.b2init nn kk)) :
    nn = wordField w 16 8 ∧ kk = wordField w 24 8 := by
  unfold opcodeInstr at h
  split at h <;> cases h
  exact ⟨rfl, rfl⟩

theorem operand_of_opcodeInstr_b2upd {len : Nat} (h : opcodeInstr w = some (.b2upd len)) : len = wordField w 16 16 := by
  unfold opcodeInstr at h
  split at h <;> cases h
  rfl

theorem operand_of_opcodeInstr_hpinit {t : Nat} (h : opcodeInstr w = some (.hpinit t)) : t = wordField w 16 16 := by
  unfold opcodeInstr at h
  split at h <;> cases h
  rfl

theorem operand_of_opcodeInstr_gcmp {b : Bool} (h : opcodeInstr w = some (.gcmp b)) : b.toNat = wordField w 8 1 := by
  have hb : b = (wordField w 8 1 == 1) := by
    unfold opcodeInstr at h
    split at h <;> cases h
    rfl
  by_cases hw : wordField w 8 1 = 0
  · rw [hb, hw]
    rfl
  · rw [hb, (wField_ne_zero_iff w).1 hw]
    rfl

/-- The fields of a word give operands that fit their fields (R92). -/
theorem wellFormed_of_opcodeInstr {i : Instr} (h : opcodeInstr w = some i) : i.wellFormed = true := by
  cases i with
  | b2init nn kk =>
    obtain ⟨rfl, rfl⟩ := operands_of_opcodeInstr_b2init h
    exact Bool.and_eq_true_iff.2 ⟨decide_eq_true (wordField_lt w 16 8), decide_eq_true (wordField_lt w 24 8)⟩
  | b2upd len =>
    obtain rfl := operand_of_opcodeInstr_b2upd h
    exact decide_eq_true (wordField_lt w 16 16)
  | hpinit t =>
    obtain rfl := operand_of_opcodeInstr_hpinit h
    exact decide_eq_true (wordField_lt w 16 16)
  | _ => rfl

/-- A field W that is set only where the command uses it is zero for every other command (R95). -/
theorem wField_eq_zero {i : Instr} (hw : wordField w 8 1 = 1 → usesW i = true) (hi : usesW i = false) :
    wordField w 8 1 = 0 :=
  by_contra fun h => by simp [hw ((wField_ne_zero_iff w).1 h)] at hi

/-- A field IMM that is set only where the command uses it is zero for every other command (R95). -/
theorem immField_eq_zero {i : Instr} (himm : wordField w 16 16 ≠ 0 → usesImm i = true) (hi : usesImm i = false) :
    wordField w 16 16 = 0 :=
  by_contra fun h => by simp [himm h] at hi

/-- The operand bits of the command that a word names are the word's own fields W and IMM, when the command uses every one of
the two that is not zero (R90, R92). -/
theorem operandBits_of_opcodeInstr {i : Instr} (h : opcodeInstr w = some i)
    (hw : wordField w 8 1 = 1 → usesW i = true) (himm : wordField w 16 16 ≠ 0 → usesImm i = true) :
    operandBits i = 2 ^ 8 * wordField w 8 1 + 2 ^ 16 * wordField w 16 16 := by
  cases i with
  | b2init nn kk =>
    obtain ⟨rfl, rfl⟩ := operands_of_opcodeInstr_b2init h
    rw [wField_eq_zero hw rfl, immField_eq_bytes, operandBits]
    omega
  | b2upd len =>
    obtain rfl := operand_of_opcodeInstr_b2upd h
    rw [wField_eq_zero hw rfl, operandBits]
    omega
  | hpinit t =>
    obtain rfl := operand_of_opcodeInstr_hpinit h
    rw [wField_eq_zero hw rfl, operandBits]
    omega
  | gcmp b =>
    rw [immField_eq_zero himm rfl, operandBits, operand_of_opcodeInstr_gcmp h]
    omega
  | _ =>
    rw [wField_eq_zero hw rfl, immField_eq_zero himm rfl]
    rfl

end

/-- The encoder writes back every word that decodes (R95, R96). -/
theorem encode_of_decode {w : Word} {i : Instr} (h : decode w = .ok i) : encode i = w := by
  obtain ⟨hi, hhigh, hlow, hw, himm⟩ := decode_ok h
  apply BitVec.eq_of_toNat_eq
  rw [(encode_toNat (wellFormed_of_opcodeInstr hi)).1, operandBits_of_opcodeInstr hi hw himm,
    ← opcode_of_opcodeInstr hi, toNat_eq_fields w, hhigh, hlow]
  omega

/-! ### The test of a word's fields -/

/-- A word is a legal command as far as the fields above OP go (R95): the reserved bits are 0, W is set for GCMP alone, and IMM is
not zero for B2INIT, B2UPD and HPINIT alone. -/
def PassesFieldTests (w : Word) : Prop :=
  wordField w 32 32 = 0 ∧ wordField w 9 7 = 0 ∧ (wordField w 8 1 = 1 → wordField w 0 8 = 0x20) ∧
    (wordField w 16 16 ≠ 0 → wordField w 0 8 ∈ [0x10, 0x11, 0x18])

theorem usesW_iff_opcode (i : Instr) : usesW i = true ↔ opcode i = 0x20 := by
  cases i <;> simp [usesW, opcode]

theorem usesImm_iff_opcode (i : Instr) : usesImm i = true ↔ opcode i ∈ [0x10, 0x11, 0x18] := by
  cases i <;> simp [usesImm, opcode]

/-- The decoder accepts a word exactly when its OP is in the opcode map and its other fields pass (R95). -/
theorem exists_decode_iff (w : Word) :
    (∃ i, decode w = .ok i) ↔
      wordField w 0 8 ∈ [0x00, 0x01, 0x02, 0x03, 0x08, 0x09, 0x10, 0x11, 0x12, 0x13, 0x14, 0x18, 0x19, 0x20, 0x28, 0x29,
        0x2A, 0x2B] ∧ PassesFieldTests w := by
  rw [← opcodeInstr_isSome]
  constructor
  · rintro ⟨i, h⟩
    obtain ⟨hi, hhigh, hlow, hw, himm⟩ := decode_ok h
    rw [usesW_iff_opcode, ← opcode_of_opcodeInstr hi] at hw
    rw [usesImm_iff_opcode, ← opcode_of_opcodeInstr hi] at himm
    exact ⟨⟨i, hi⟩, hhigh, hlow, hw, himm⟩
  · rintro ⟨⟨i, hi⟩, hhigh, hlow, hw, himm⟩
    rw [opcode_of_opcodeInstr hi, ← usesW_iff_opcode] at hw
    rw [opcode_of_opcodeInstr hi, ← usesImm_iff_opcode] at himm
    exact ⟨i, decode_of_fields hi hhigh hlow hw himm⟩

/-! ### Masks, field by field -/

theorem wordField_eq_extractLsb' (w : Word) (lo len : Nat) : wordField w lo len = (w.extractLsb' lo len).toNat := by
  rw [BitVec.extractLsb'_toNat, Nat.shiftRight_eq_div_pow, wordField]

/-- A mask keeps a field in which all its bits are set. -/
theorem wordField_and_of_kept {m : Word} {lo len : Nat} (hm : m.extractLsb' lo len = BitVec.allOnes len) (w : Word) :
    wordField (w &&& m) lo len = wordField w lo len := by
  rw [wordField_eq_extractLsb', BitVec.extractLsb'_and, hm, BitVec.and_allOnes, wordField_eq_extractLsb']

/-- When a mask clears a field if it is free and keeps it otherwise, the masked field is zero exactly if a field of the word that
is not zero is free. -/
theorem wordField_and_eq_zero_iff {m : Word} {lo len : Nat} {free : Prop} [Decidable free]
    (hm : m.extractLsb' lo len = if free then 0#len else BitVec.allOnes len) (w : Word) :
    wordField (w &&& m) lo len = 0 ↔ (wordField w lo len ≠ 0 → free) := by
  by_cases hf : free
  · rw [if_pos hf] at hm
    rw [wordField_eq_extractLsb', BitVec.extractLsb'_and, hm, BitVec.and_zero, BitVec.toNat_zero]
    simp [hf]
  · rw [if_neg hf] at hm
    rw [wordField_and_of_kept hm]
    simp [hf]

/-- The masks of the opcode table (R94) keep OP and the reserved bits; maskW alone frees W, and maskImm alone frees IMM. -/
theorem opcodeTable_mask_fields :
    ∀ m ∈ [maskFixed, maskImm, maskW],
      m.extractLsb' 0 8 = BitVec.allOnes 8 ∧ m.extractLsb' 9 7 = BitVec.allOnes 7 ∧
      m.extractLsb' 32 32 = BitVec.allOnes 32 ∧
      m.extractLsb' 8 1 = (if m = maskW then 0#1 else BitVec.allOnes 1) ∧
      m.extractLsb' 16 16 = (if m = maskImm then 0#16 else BitVec.allOnes 16) := by
  intro m hm
  fin_cases hm <;> decide

/-- A word is the number of an OP byte exactly when OP is that byte and the other four fields are zero (R90). -/
theorem eq_op_iff_fields {v p : Word} (hp : p.toNat < 2 ^ 8) :
    v = p ↔ wordField v 0 8 = p.toNat ∧ wordField v 32 32 = 0 ∧ wordField v 9 7 = 0 ∧ wordField v 8 1 = 0 ∧
      wordField v 16 16 = 0 := by
  constructor
  · rintro rfl
    simp only [wordField]
    omega
  · rintro ⟨hop, hhigh, hlow, hw, himm⟩
    apply BitVec.eq_of_toNat_eq
    rw [toNat_eq_fields v, hop, hhigh, hlow, hw, himm]
    rfl

/-- What each mask of the opcode table (R94) asks of a word whose match is an OP byte. -/
theorem and_mask_eq_iff {m p : Word} (hm : m ∈ [maskFixed, maskImm, maskW]) (hp : p.toNat < 2 ^ 8) (w : Word) :
    w &&& m = p ↔ wordField w 0 8 = p.toNat ∧ wordField w 32 32 = 0 ∧ wordField w 9 7 = 0 ∧
      (wordField w 8 1 = 1 → m = maskW) ∧ (wordField w 16 16 ≠ 0 → m = maskImm) := by
  obtain ⟨hop, hlow, hhigh, hfreeW, hfreeImm⟩ := opcodeTable_mask_fields m hm
  rw [eq_op_iff_fields hp, wordField_and_of_kept hop, wordField_and_of_kept hhigh, wordField_and_of_kept hlow,
    wordField_and_eq_zero_iff hfreeW, wordField_and_eq_zero_iff hfreeImm, wField_ne_zero_iff]

/-! ### The rows of the opcode table -/

/-- Each row of the table has an OP byte for its match, and frees W for GCMP alone and IMM for B2INIT, B2UPD and HPINIT alone. -/
theorem opcodeTable_masks :
    ∀ r ∈ opcodeTable, r.mask ∈ [maskFixed, maskImm, maskW] ∧ r.pattern.toNat < 2 ^ 8 ∧
      (r.mask = maskW ↔ r.pattern.toNat = 0x20) ∧ (r.mask = maskImm ↔ r.pattern.toNat ∈ [0x10, 0x11, 0x18]) := by
  decide

theorem opcodeTable_pattern_injective :
    ∀ r ∈ opcodeTable, ∀ r' ∈ opcodeTable, r.pattern = r'.pattern → r = r' := by
  decide

/-- A row of the opcode table matches a word exactly when the word's OP is the row's and its other fields pass (R94, R95). -/
theorem row_matches_iff {r : OpcodeRow} (hr : r ∈ opcodeTable) (w : Word) :
    w &&& r.mask = r.pattern ↔ wordField w 0 8 = r.pattern.toNat ∧ PassesFieldTests w := by
  obtain ⟨hmask, hop, hW, hImm⟩ := opcodeTable_masks r hr
  rw [and_mask_eq_iff hmask hop, hW, hImm, PassesFieldTests]
  refine and_congr_right fun h => ?_
  rw [h]

/-- The rows of the opcode table carry the assigned opcodes (R94). -/
theorem exists_row_iff (op : Nat) :
    (∃ r ∈ opcodeTable, op = r.pattern.toNat) ↔
      op ∈ [0x00, 0x01, 0x02, 0x03, 0x08, 0x09, 0x10, 0x11, 0x12, 0x13, 0x14, 0x18, 0x19, 0x20, 0x28, 0x29, 0x2A, 0x2B] := by
  simp [opcodeTable]

/-- Some row of the opcode table matches a word exactly when the decoder accepts it. -/
theorem exists_row_matches_iff (w : Word) :
    (∃ r ∈ opcodeTable, w &&& r.mask = r.pattern) ↔ ∃ i, decode w = .ok i := by
  rw [exists_decode_iff, ← exists_row_iff]
  constructor
  · rintro ⟨r, hr, hmatch⟩
    obtain ⟨hop, hpass⟩ := (row_matches_iff hr w).1 hmatch
    exact ⟨⟨r, hr, hop⟩, hpass⟩
  · rintro ⟨⟨r, hr, hop⟩, hpass⟩
    exact ⟨r, hr, (row_matches_iff hr w).2 ⟨hop, hpass⟩⟩

/-- Two rows of the opcode table that match one word carry its OP and are one row. -/
theorem row_unique {r r' : OpcodeRow} (hr : r ∈ opcodeTable) (hr' : r' ∈ opcodeTable) {w : Word}
    (h : w &&& r.mask = r.pattern) (h' : w &&& r'.mask = r'.pattern) : r = r' := by
  obtain ⟨hop, -⟩ := (row_matches_iff hr w).1 h
  obtain ⟨hop', -⟩ := (row_matches_iff hr' w).1 h'
  exact opcodeTable_pattern_injective r hr r' hr' (BitVec.eq_of_toNat_eq (hop.symm.trans hop'))

end Sys2Proof

namespace Sys2Proof.Machine

/-- Settles O1: each of the ten words is closed, and the decoder runs on it. -/
theorem specWordsDecodeToTheirCommands : Obligations.SpecWordsDecodeToTheirCommands := by
  unfold Obligations.SpecWordsDecodeToTheirCommands
  decide

/-- Settles O2, by the fields of a well-formed command's word. -/
theorem decodeOfEncodeIsTheCommand : Obligations.DecodeOfEncodeIsTheCommand := fun _ h => decode_encode h

/-- Settles O3: the fields that decode are the operands, so they fit, and the word is nothing but its fields. -/
theorem encodeOfDecodeIsTheWord : Obligations.EncodeOfDecodeIsTheWord := by
  intro w i h
  obtain ⟨hi, -⟩ := decode_ok h
  exact ⟨wellFormed_of_opcodeInstr hi, encode_of_decode h⟩

/-- Settles O4: the decoder and the table make the same test of a word's fields, and the rows differ in OP. -/
theorem decodeAcceptsExactlyTheOpcodeTable : Obligations.DecodeAcceptsExactlyTheOpcodeTable :=
  fun w => ⟨(exists_row_matches_iff w).symm, fun _ hr _ hr' h h' => row_unique hr hr' h h'⟩

/-- Settles O5: the four cases are the negation of the decoder's test, and the engine's transition then raises ILLEGAL. -/
theorem illegalWordsOnlyRaiseIllegal : Obligations.IllegalWordsOnlyRaiseIllegal := by
  refine fun s => ⟨?_, engineStep_of_illegal⟩
  have hreject : (∀ i, decode s.cmd ≠ .ok i) ↔ ¬∃ i, decode s.cmd = .ok i := not_exists.symm
  rw [hreject, exists_decode_iff, PassesFieldTests]
  tauto

end Sys2Proof.Machine


/-! PROOFS. The BLAKE2b commands: O39, O40, O41, O42, O43 and O44. One lemma per command says what its
`exec` leaves, in terms of the operations on the context; the statements are read off these and the laws of the context. -/

namespace Sys2Proof.Machine

/-! ### Absorbing (41_blake2b.md R116, R117) -/

/-- Any byte leaves the buffer non-empty: a full buffer waits for the byte behind it (R117). -/
theorem ctxAbsorb_buflen_pos (c : Ctx) {bs : List Byte} (h : bs ≠ []) : 1 ≤ (ctxAbsorb c bs).buflen := by
  rw [← List.dropLast_append_getLast h, ctxAbsorb_append]
  exact ctxAbsorbByte_buflen_pos _ _

/-- One byte adds one to counter and fill level together: a flush moves 128 from the fill level to the counter. -/
theorem ctxAbsorbByte_count (c : Ctx) (x : Byte) :
    (ctxAbsorbByte c x).t.toNat + (ctxAbsorbByte c x).buflen ≡ c.t.toNat + c.buflen + 1 [MOD 2 ^ 128] := by
  by_cases hf : c.buflen = 128
  · rw [ctxAbsorbByte_of_full hf, hf]
    show (c.t + 128#128).toNat + 1 ≡ _ [MOD _]
    rw [BitVec.toNat_add]
    exact (Nat.mod_modEq _ _).add_right 1
  · rw [ctxAbsorbByte_of_ne hf]
    rfl

theorem ctxAbsorb_count (c : Ctx) (bs : List Byte) :
    (ctxAbsorb c bs).t.toNat + (ctxAbsorb c bs).buflen ≡ c.t.toNat + c.buflen + bs.length [MOD 2 ^ 128] := by
  induction bs generalizing c with
  | nil => rfl
  | cons x bs ih =>
    calc
      _ ≡ (ctxAbsorbByte c x).t.toNat + (ctxAbsorbByte c x).buflen + bs.length [MOD 2 ^ 128] := ih _
      _ ≡ c.t.toNat + c.buflen + 1 + bs.length [MOD 2 ^ 128] := (ctxAbsorbByte_count c x).add_right _
      _ = c.t.toNat + c.buflen + (x :: bs).length := by rw [List.length_cons]; omega

/-- Settles O41, from the laws of one absorbed byte. -/
theorem absorbKeepsTheBufferAndCounts : Obligations.AbsorbKeepsTheBufferAndCounts :=
  fun c bs h => ⟨bufferInv_ctxAbsorb h bs, ctxAbsorb_buflen_pos c, ctxAbsorb_count c bs⟩

/-! ### Opening (R115) -/

/-- The XOR of a multiple of `2 ^ i` with a number below `2 ^ i` is their sum. -/
theorem two_pow_mul_xor_of_lt {b i : Nat} (h : b < 2 ^ i) (a : Nat) : (2 ^ i * a) ^^^ b = 2 ^ i * a + b := by
  have hdiv : ((2 ^ i * a) ^^^ b) / 2 ^ i = a := by
    rw [Nat.xor_div_two_pow, Nat.mul_div_cancel_left _ (Nat.two_pow_pos i), Nat.div_eq_of_lt h, Nat.xor_zero]
  have hmod : ((2 ^ i * a) ^^^ b) % 2 ^ i = b := by
    rw [Nat.xor_mod_two_pow, Nat.mul_mod_right, Nat.mod_eq_of_lt h, Nat.zero_xor]
  rw [← Nat.div_add_mod ((2 ^ i * a) ^^^ b) (2 ^ i), hdiv, hmod]

/-- The parameter word's fields NN, KK and 0x0101 do not overlap (R115). -/
theorem paramWord_xor_eq_add {nn kk : Nat} (hn : nn < 2 ^ 8) (hk : kk < 2 ^ 8) :
    0x01010000 ^^^ kk <<< 8 ^^^ nn = 0x01010000 + kk * 256 + nn := by
  have hsum : 2 ^ 16 * 0x0101 + kk <<< 8 = 2 ^ 8 * (2 ^ 8 * 0x0101 + kk) := by rw [Nat.shiftLeft_eq]; omega
  show (2 ^ 16 * 0x0101) ^^^ kk <<< 8 ^^^ nn = _
  rw [two_pow_mul_xor_of_lt (by omega), hsum, two_pow_mul_xor_of_lt hn]
  omega

theorem blakeIV_zero : blakeIV.get 0 = 0x6A09E667F3BCC908#64 := rfl

theorem ctxOpen_h_zero {nn : Nat} {key : List Byte} (hn : nn < 2 ^ 8) (hk : key.length < 2 ^ 8) :
    (ctxOpen nn key).h.get 0 = blakeIV.get 0 ^^^ BitVec.ofNat 64 (0x01010000 + key.length * 256 + nn) := by
  rw [← paramWord_xor_eq_add hn hk, BitVec.ofNat_xor, BitVec.ofNat_xor, ← BitVec.xor_assoc, ← BitVec.xor_assoc]
  exact Vector.getElem_set_self _

theorem ctxOpen_h_ne {i : Fin 8} (h : i ≠ 0) (nn : Nat) (key : List Byte) : (ctxOpen nn key).h.get i = blakeIV.get i :=
  Vector.getElem_set_ne (by decide) i.isLt (Ne.symm (Fin.val_ne_of_ne h))

theorem ctxOpen_buflen (nn : Nat) (key : List Byte) : (ctxOpen nn key).buflen = if key.length = 0 then 0 else 128 := by
  cases key <;> rfl

/-- The buffer of a fresh context that takes its key from the front of `bs`. -/
theorem ctxOpen_buf_take (nn kk : Nat) (bs : List Byte) (k : Fin 128) :
    (ctxOpen nn (bs.take kk)).buf.get k = if k.val < kk then bs.getD k.val 0#8 else 0#8 := by
  show (bufferOf (bs.take kk))[k.val] = _
  simp only [bufferOf, Vector.getElem_ofFn, List.getD_eq_getElem?_getD, List.getElem?_take]
  split <;> rfl

/-! ### What each command leaves (R123–R128) -/

/-- What B2INIT makes of any state (R124). -/
theorem b2init_context {nn kk : Nat} (hlow : 1 ≤ nn) (hhigh : nn ≤ 64) (hk : kk ≤ 64) (s : State) :
    ∃ t, exec (.b2init nn kk) s = .next t ∧ t.ctx = ctxOpen nn (msgBytes kk s) ∧ t.b2Outlen.toNat = nn ∧
      t = { s with ctx := t.ctx, b2Outlen := t.b2Outlen, hpT := 0,
                   status := { s.status with busy := false, done := true, b2mode := .plain } } :=
  ⟨_, exec_of_ok (if_neg (by omega)), rfl, toNat_ofNat_of_lt (by omega), rfl⟩

section
variable {s : State}

theorem contextOpen_of_ne_idle (h : s.status.b2mode ≠ .idle) : contextOpen s = true := decide_eq_true h

/-- An absorb command that completes changes the context and the report (R125). -/
theorem complete_absorbCtx (bs : List Byte) (s : State) :
    complete (absorbCtx bs s) =
      { s with ctx := ctxAbsorb s.ctx bs, status := { s.status with busy := false, done := true } } := rfl

theorem exec_b2upd (h : s.status.b2mode ≠ .idle) {len : Nat} (hlen : len ≤ 128) :
    exec (.b2upd len) s = .next (complete (absorbCtx (msgBytes len s) s)) :=
  exec_of_ok ((if_pos (contextOpen_of_ne_idle h)).trans (if_neg (Nat.not_lt.2 hlen)))

/-- What a B2UPD leaves of the context (R125). -/
theorem b2upd_context {t : State} (h : s.status.b2mode ≠ .idle) {len : Nat} (hlen : len ≤ 128)
    (he : exec (.b2upd len) s = .next t) :
    t.ctx = ctxAbsorb s.ctx (msgBytes len s) ∧ t.status.b2mode = s.status.b2mode ∧ t.b2Outlen = s.b2Outlen := by
  cases (exec_b2upd h hlen).symm.trans he
  exact ⟨rfl, rfl, rfl⟩

theorem exec_b2updb (h : s.status.b2mode ≠ .idle) (hopa : s.opa.toNat < s.arenaBlocks) :
    exec .b2updb s = .next (complete (absorbCtx (memBytes s.arena (1024 * s.opa.toNat) 1024) s)) := by
  rw [← blockBytes_blockRead s _ hopa]
  exact exec_of_ok ((if_pos (contextOpen_of_ne_idle h)).trans (if_pos (decide_eq_true hopa)))

theorem exec_b2updd (h : s.status.b2mode ≠ .idle) :
    exec .b2updd s = .next (complete (absorbCtx (digBytes s.dlen.toNat s) s)) :=
  exec_of_ok (if_pos (contextOpen_of_ne_idle h))

theorem exec_b2fin (h : s.status.b2mode = .plain) :
    exec .b2fin s = .next (complete
      (wipeCtx (writeDigest s.b2Outlen.toNat (ctxFinalize s.b2Outlen.toNat s.ctx) s))) :=
  exec_of_ok (if_pos h)

end

/-- Settles O40: the equations of the three absorb commands. -/
theorem absorbCommandsAppendTheirBytes : Obligations.AbsorbCommandsAppendTheirBytes := by
  refine fun s hopen => ⟨fun len hlen => ?_, fun hopa => ?_, ?_⟩
  · rw [exec_b2upd hopen hlen, complete_absorbCtx, msgBytes]
  · rw [exec_b2updb hopen hopa, complete_absorbCtx]
  · rw [exec_b2updd hopen, complete_absorbCtx, digBytes]

/-- Settles O39, by the chaining words and the buffer of a fresh context. -/
theorem b2initOpensAPlainContext : Obligations.B2initOpensAPlainContext := by
  intro s nn kk hlow hhigh hk
  have hlen : (msgBytes kk s).length = kk := by rw [msgBytes_length]; omega
  obtain ⟨t, ht, hctx, hout, hframe⟩ := b2init_context hlow hhigh hk s
  refine ⟨t, ht, ?_, fun i hi => ?_, ?_, fun k => ?_, ?_, hout, hframe⟩ <;> rw [hctx]
  · rw [ctxOpen_h_zero (by omega) (by omega), hlen, blakeIV_zero]
  · exact ctxOpen_h_ne hi _ _
  · rfl
  · exact ctxOpen_buf_take _ _ _ k
  · rw [ctxOpen_buflen, hlen]

/-- Settles O42: the bytes of the two commands are together those of the one, and absorbing goes by parts (R129). -/
theorem absorbingInTwoCommandsIsAbsorbingAtOnce : Obligations.AbsorbingInTwoCommandsIsAbsorbingAtOnce := by
  intro s u t t' m' n1 n2 hlen hopen hmsg hu ht ht'
  obtain ⟨huctx, hmode, -⟩ := b2upd_context hopen (by omega) hu
  obtain ⟨htctx, -⟩ := b2upd_context (s := { u with msg := m' }) (hmode ▸ hopen) (by omega) ht
  obtain ⟨htctx', -⟩ := b2upd_context hopen hlen ht'
  have hbytes : msgBytes (n1 + n2) s = msgBytes n1 s ++ msgBytes n2 { u with msg := m' } :=
    List.take_add.trans (congrArg (msgBytes n1 s ++ ·) hmsg.symm)
  rw [htctx, htctx', hbytes, ctxAbsorb_append, ← huctx]

/-! ### The digest (R127) -/

/-- The digest register holds the digest in its first bytes. -/
theorem digBytes_writeDigest {nn : Nat} {d : List Byte} (hn : nn ≤ 64) (hd : d.length = nn) (s : State) :
    digBytes nn (writeDigest nn d s) = d := by
  rw [digBytes, writeDigest_digest, wordsBytes_bytesWords _ (by simp; omega), ← hd, List.take_left]

/-- What B2FIN leaves of an open plain context, whose digest length is in range (R121). -/
theorem b2fin_digest {s : State} (hm : s.status.b2mode = .plain) (hn : s.b2Outlen.toNat ≤ 64) :
    ∃ t, exec .b2fin s = .next t ∧ t.dlen = s.b2Outlen ∧
      digBytes s.b2Outlen.toNat t = ctxFinalize s.b2Outlen.toNat s.ctx ∧ DigestInv t ∧
      t = { s with digest := t.digest, dlen := s.b2Outlen, ctx := Ctx.zero, b2Outlen := 0, hpT := 0,
                   status := { s.status with busy := false, done := true, b2mode := .idle } } := by
  have hd : (ctxFinalize s.b2Outlen.toNat s.ctx).length = s.b2Outlen.toNat := by rw [ctxFinalize_length]; omega
  have hdlen : BitVec.ofNat 7 s.b2Outlen.toNat = s.b2Outlen := BitVec.ofNat_toNat 7 _ ▸ BitVec.setWidth_eq _
  refine ⟨_, exec_b2fin hm, hdlen, digBytes_writeDigest hn hd s, digestInv_writeDigest hn hd s, ?_⟩
  simp [complete, wipeCtx, writeDigest]

/-- Settles O43: a plain context has its digest length in range, and the digest register is zero-padded. -/
theorem b2finWritesTheDigest : Obligations.B2finWritesTheDigest := by
  intro s hm hctx
  obtain ⟨-, -, hmode⟩ := hctx
  rw [hm] at hmode
  obtain ⟨-, hn, -⟩ := hmode
  obtain ⟨t, ht, hdlen, hdig, ⟨-, hzero⟩, hframe⟩ := b2fin_digest hm hn
  exact ⟨t, ht, hdig, hdlen ▸ hzero, hframe⟩

/-- Settles O44: the three commands in turn, and the definition of BLAKE2b (R119). -/
theorem plainHashOfOneMessage : Obligations.PlainHashOfOneMessage := by
  intro s m nn kk len hlow hhigh hk hlen
  obtain ⟨u, hu, huctx, hulen, huframe⟩ := b2init_context hlow hhigh hk s
  have humode : u.status.b2mode = .plain := by rw [huframe]
  have huopen : u.status.b2mode ≠ .idle := fun h => nomatch humode.symm.trans h
  have hv := exec_b2upd (s := { u with msg := m }) huopen hlen
  obtain ⟨hvctx, hvmode, hvlen⟩ := b2upd_context (s := { u with msg := m }) huopen hlen hv
  have hnn := (congrArg BitVec.toNat hvlen).trans hulen
  obtain ⟨t, ht, hdlen, hdig, -, hframe⟩ := b2fin_digest (hvmode.trans humode) (hnn.le.trans hhigh)
  refine ⟨u, _, t, hu, hv, ht, hdlen ▸ hnn, by rw [hframe], ?_⟩
  rw [hdlen, hdig, hnn, hvctx, huctx, blake2b, msgBytes, msgBytes]

end Sys2Proof.Machine

/-! PROOFS. H′ and its commands: O45, O46, O47, O48 and O49. The output of H′ above 64 bytes is a number of half digests and
a tail. HPINIT and HPFIN have one lemma each for what they leave; HPINIT's buffer follows from the bytes an unkeyed context
takes before it compresses. -/

namespace Sys2Proof.Machine

/-! ### The output of H′ (42_hprime.md R140, R141) -/

/-- The first 32 bytes of each of `k` digests, each after the first the 64-byte hash of the one before it (R140). -/
def halfDigests (k : Nat) (v : List Byte) : List Byte :=
  (List.range k).flatMap fun j => ((blake2b 64 [])^[j] v).take 32

theorem halfDigests_succ (k : Nat) (v : List Byte) :
    halfDigests (k + 1) v = v.take 32 ++ halfDigests k (blake2b 64 [] v) := by
  rw [halfDigests, List.range_succ_eq_map, List.flatMap_cons, List.flatMap_map]
  rfl

theorem hpChain_succ_of_lt {rem : Nat} (h : 64 < rem) (fuel : Nat) (v : List Byte) :
    hpChain (fuel + 1) v rem = (blake2b 64 [] v).take 32 ++ hpChain fuel (blake2b 64 [] v) (rem - 32) := if_pos h

theorem hpChain_succ_of_le {rem : Nat} (h : rem ≤ 64) (fuel : Nat) (v : List Byte) :
    hpChain (fuel + 1) v rem = blake2b rem [] v := if_neg h.not_gt

/-- The chain in closed form: `k` half digests, and a tail that is hashed to its own length. -/
theorem hpChain_eq {k m fuel : Nat} (hlow : 33 ≤ m) (hhigh : m ≤ 64) (hfuel : k < fuel) (v : List Byte) :
    hpChain fuel v (32 * k + m) = halfDigests k (blake2b 64 [] v) ++ blake2b m [] ((blake2b 64 [])^[k] v) := by
  induction fuel generalizing k v with
  | zero => exact absurd hfuel (Nat.not_lt_zero k)
  | succ fuel ih =>
    cases k with
    | zero => rw [Nat.mul_zero, Nat.zero_add, hpChain_succ_of_le hhigh]; rfl
    | succ k =>
      have hrem : 32 * (k + 1) + m - 32 = 32 * k + m := by omega
      rw [hpChain_succ_of_lt (by omega), hrem, ih (by omega), halfDigests_succ, List.append_assoc]
      rfl

/-- The output above 64 bytes, for a length of `k + 1` halves and a tail of 33 to 64 bytes (R141). -/
theorem hpOutput_eq {k m : Nat} (hlow : 33 ≤ m) (hhigh : m ≤ 64) (v : List Byte) :
    hpOutput (32 * (k + 1) + m) v = halfDigests (k + 1) v ++ blake2b m [] ((blake2b 64 [])^[k] v) := by
  have hrem : 32 * (k + 1) + m - 32 = 32 * k + m := by omega
  rw [hpOutput, if_neg (by omega), hrem, hpChain_eq hlow hhigh (by omega), halfDigests_succ, List.append_assoc]

theorem hpOutput_length {t : Nat} {v : List Byte} (hv : v.length = min t 64) : (hpOutput t v).length = t := by
  rw [hpOutput]
  split
  · omega
  · rw [List.length_append, List.length_take, hpChain_length _ _ _ (by omega) (by omega)]
    omega

/-- Settles O48: the first digest has the length min(T, 64), and the chain makes up the rest. -/
theorem hprimeLengthIsItsParameter : Obligations.HprimeLengthIsItsParameter := by
  intro x n _ _
  exact hpOutput_length (by rw [blake2b_length]; omega)

/-- Settles O49: T is 32·r and a tail, and the output has the closed form of the chain. -/
theorem hprimeShape : Obligations.HprimeShape := by
  refine fun x n _ _ => ⟨fun hshort => ?_, fun hlong => ?_⟩
  · rw [hPrime, hpOutput, if_pos hshort, Nat.min_eq_left hshort]
  · obtain ⟨k, hr⟩ : ∃ k, (n + 31) / 32 - 2 = k + 1 := ⟨(n + 31) / 32 - 3, by omega⟩
    obtain ⟨m, rfl⟩ : ∃ m, n = 32 * (k + 1) + m := ⟨n - 32 * (k + 1), by omega⟩
    have htail : 32 * (k + 1) + m - 32 * (k + 1) = m := by omega
    intro r v
    rw [show r = k + 1 from hr, htail]
    refine ⟨by omega, by omega, ?_⟩
    rw [hPrime, hpOutput_eq (by omega) (by omega), Nat.min_eq_right (by omega)]
    rfl

/-! ### The first bytes of a context (41_blake2b.md R115, R116) -/

theorem bufferOf_getElem (bs : List Byte) {i : Nat} (hi : i < 128) : (bufferOf bs)[i] = bs.getD i 0#8 :=
  Vector.getElem_ofFn hi

/-- A byte stored behind the bytes of a buffer extends them. -/
theorem bufferOf_setIfInBounds_length (bs : List Byte) (x : Byte) :
    (bufferOf bs).setIfInBounds bs.length x = bufferOf (bs ++ [x]) := by
  refine Vector.ext fun i hi => ?_
  rw [Vector.getElem_setIfInBounds hi, bufferOf_getElem, bufferOf_getElem]
  obtain hlt | rfl | hgt := lt_trichotomy i bs.length
  · rw [if_neg hlt.ne', List.getD_append _ _ _ _ hlt]
  · rw [if_pos rfl, List.getD_append_right _ _ _ _ le_rfl, Nat.sub_self, List.getD_cons_zero]
  · rw [if_neg hgt.ne, List.getD_eq_default _ _ hgt.le, List.getD_eq_default _ _ (by simpa using hgt)]

/-- An unkeyed context buffers its first 128 bytes and compresses nothing (R116). -/
theorem ctxAbsorb_ctxOpen_nil (nn : Nat) {bs : List Byte} (h : bs.length ≤ 128) :
    ctxAbsorb (ctxOpen nn []) bs = { ctxOpen nn [] with buf := bufferOf bs, buflen := bs.length } := by
  induction bs using List.reverseRecOn with
  | nil => rfl
  | append_singleton bs x ih =>
    rw [List.length_append, List.length_singleton] at h
    have hroom : bs.length ≠ 128 := by omega
    rw [ctxAbsorb_append, ih (by omega), ctxAbsorb_cons, ctxAbsorb_nil, ctxAbsorbByte_of_ne hroom,
      bufferOf_setIfInBounds_length, List.length_append, List.length_singleton]

/-- The four bytes of LE32 of a number of 16 bits. -/
theorem le32_of_lt {n : Nat} (h : n < 2 ^ 16) :
    le32 (BitVec.ofNat 32 n) = [BitVec.ofNat 8 n, BitVec.ofNat 8 (n / 256), 0#8, 0#8] := by
  have hhigh : n / 256 / 256 = 0 := by omega
  rw [le32, toNat_ofNat_of_lt (by omega)]
  simp only [leBytes, hhigh, Nat.zero_div]

/-! ### HPINIT (42_hprime.md R143) -/

/-- What HPINIT makes of any state (R143). -/
theorem hpinit_context {n : Nat} (hlow : 1 ≤ n) (hhigh : n ≤ 1024) (s : State) :
    ∃ t, exec (.hpinit n) s = .next t ∧ t.ctx = ctxAbsorb (ctxOpen (min n 64) []) (le32 (BitVec.ofNat 32 n)) ∧
      t.hpT.toNat = n ∧ t.b2Outlen.toNat = min n 64 ∧
      t = { s with ctx := t.ctx, b2Outlen := t.b2Outlen, hpT := t.hpT,
                   status := { s.status with busy := false, done := true, b2mode := .hprime } } :=
  ⟨_, exec_of_ok (if_neg (by omega)), rfl, toNat_ofNat_of_lt (by omega), toNat_ofNat_of_lt (by omega), rfl⟩

/-- Settles O45: the context buffers the four bytes of LE32(T), of which the upper two are 0. -/
theorem hpinitOpensAnHprimeContext : Obligations.HpinitOpensAnHprimeContext := by
  intro s n hlow hhigh
  obtain ⟨t, ht, hctx, hhpT, hout, hframe⟩ := hpinit_context hlow hhigh s
  rw [ctxAbsorb_ctxOpen_nil _ (by simp), le32_of_lt (by omega)] at hctx
  have hbuf (k : Fin 128) : t.ctx.buf.get k = [BitVec.ofNat 8 n, BitVec.ofNat 8 (n / 256), 0#8, 0#8].getD k.val 0#8 := by
    rw [hctx]
    exact bufferOf_getElem _ k.isLt
  refine ⟨t, ht, by rw [hctx], by rw [hctx]; rfl, by rw [hctx]; rfl, hbuf 0, hbuf 1, fun k hk => ?_, hhpT, hout, hframe⟩
  obtain ⟨j, hj⟩ : ∃ j, k.val = j + 2 := ⟨k.val - 2, by omega⟩
  rw [hbuf, hj, List.getD_cons_succ, List.getD_cons_succ]
  exact zeroBytes_getD 2 j

/-! ### HPFIN (42_hprime.md R144) -/

/-- The bytes of the block just stored. -/
theorem memBytes_blockWrite_same {s : State} {b : Nat} (h : b < s.arenaBlocks) (B : Block) :
    memBytes (blockWrite s b B).arena (1024 * b) 1024 = blockBytes B := by
  rw [← blockBytes_blockRead _ _ (by rwa [blockWrite_arenaBlocks]), blockRead_blockWrite_same _ _ _ h]

section
variable {s : State}

theorem blockBytes_hpBlock (hhigh : s.hpT.toNat ≤ 1024) (hout : s.b2Outlen.toNat = min s.hpT.toNat 64) :
    blockBytes (hpBlock s) =
      hpOutput s.hpT.toNat (ctxFinalize s.b2Outlen.toNat s.ctx) ++ zeroBytes (1024 - s.hpT.toNat) := by
  have hlen := hpOutput_length (t := s.hpT.toNat) (v := ctxFinalize s.b2Outlen.toNat s.ctx)
    (by rw [ctxFinalize_length]; omega)
  exact blockBytes_blockOfBytes _ (by rw [List.length_append, hlen, zeroBytes_length]; omega)

theorem exec_hpfin (hm : s.status.b2mode = .hprime) (hopa : s.opa.toNat < s.arenaBlocks) :
    exec .hpfin s = .next (complete (wipeCtx (blockWrite s s.opa.toNat (hpBlock s)))) :=
  exec_of_ok ((if_pos hm).trans (if_pos (decide_eq_true hopa)))

/-- What HPFIN leaves of an H′ context whose lengths are in range (R121). -/
theorem hpfin_block (hm : s.status.b2mode = .hprime) (hopa : s.opa.toNat < s.arenaBlocks)
    (hhigh : s.hpT.toNat ≤ 1024) (hout : s.b2Outlen.toNat = min s.hpT.toNat 64) :
    ∃ t, exec .hpfin s = .next t ∧
      memBytes t.arena (1024 * s.opa.toNat) 1024 =
        hpOutput s.hpT.toNat (ctxFinalize s.b2Outlen.toNat s.ctx) ++ zeroBytes (1024 - s.hpT.toNat) ∧
      (∀ a, ¬(1024 * s.opa.toNat ≤ a ∧ a < 1024 * s.opa.toNat + 1024) → memByte t.arena a = memByte s.arena a) ∧
      t = { s with arena := t.arena, ctx := Ctx.zero, b2Outlen := 0, hpT := 0,
                   status := { s.status with busy := false, done := true, b2mode := .idle } } := by
  refine ⟨_, exec_hpfin hm hopa, ?_, fun a ha => ?_, ?_⟩
  · exact (memBytes_blockWrite_same hopa _).trans (blockBytes_hpBlock hhigh hout)
  · exact (memByte_blockWrite s _ a _ hopa).trans (if_neg ha)
  · rw [blockWrite_of_lt hopa]
    rfl

end

/-- Settles O46: an H′ context has its lengths in range. -/
theorem hpfinWritesTheOutputBlock : Obligations.HpfinWritesTheOutputBlock := by
  intro s hm hctx hopa
  obtain ⟨-, -, hmode⟩ := hctx
  rw [hm] at hmode
  obtain ⟨-, hhigh, hout⟩ := hmode
  exact hpfin_block hm hopa hhigh hout

/-- What a B2UPD leaves of an H′ context beside `b2upd_context` (R125). -/
theorem b2upd_hpT_arenaBlocks {s t : State} (h : s.status.b2mode ≠ .idle) {len : Nat} (hlen : len ≤ 128)
    (he : exec (.b2upd len) s = .next t) : t.hpT = s.hpT ∧ t.arenaBlocks = s.arenaBlocks := by
  cases (exec_b2upd h hlen).symm.trans he
  exact ⟨rfl, rfl⟩

/-- Settles O47: the three commands in turn, and the definition of H′ (R140). -/
theorem hprimeOfOneMessage : Obligations.HprimeOfOneMessage := by
  intro s m d n len hlow hhigh hlen hd
  obtain ⟨u, hu, huctx, huT, hulen, huframe⟩ := hpinit_context hlow hhigh s
  have humode : u.status.b2mode = .hprime := by rw [huframe]
  have hublocks : u.arenaBlocks = s.arenaBlocks := by rw [huframe]
  have huopen : u.status.b2mode ≠ .idle := fun h => nomatch humode.symm.trans h
  have hv := exec_b2upd (s := { u with msg := m }) huopen hlen
  generalize complete _ = v at hv
  obtain ⟨hvctx, hvmode, hvlen⟩ := b2upd_context (s := { u with msg := m }) huopen hlen hv
  obtain ⟨hvT, hvblocks⟩ := b2upd_hpT_arenaBlocks (s := { u with msg := m }) huopen hlen hv
  rw [← hvT] at huT
  rw [← hvlen] at hulen
  obtain ⟨t, ht, hblock, -⟩ := hpfin_block (s := { v with opa := d }) (hvmode.trans humode)
    (hd.trans_eq (hvblocks.trans hublocks).symm) (huT.le.trans hhigh) (huT ▸ hulen)
  refine ⟨u, v, t, hu, hv, ht, hblock.trans ?_⟩
  rw [huT, hulen, hvctx, huctx, ← ctxAbsorb_append, hPrime, blake2b, msgBytes]

end Sys2Proof.Machine

/-! PROOFS. The block memory commands: O33 and O34. A command that stores one block leaves the other bytes and the other state
to the laws of a block store; what is left for each command is what the stored block holds. -/

namespace Sys2Proof.Machine

/-! ### Block operands and block stores -/

theorem blockInRange_iff {s : State} {operand : Word} : blockInRange s operand = true ↔ operand.toNat < s.arenaBlocks :=
  decide_eq_true_iff

/-- A command that stores one block changes the arena and the report (R24). -/
theorem complete_blockWrite (s : State) (b : Nat) (B : Block) :
    complete (blockWrite s b B) =
      { s with arena := (blockWrite s b B).arena, status := { s.status with busy := false, done := true } } :=
  congrArg complete (blockWrite_eq s b B)

/-- The words of a stored block are the arena words of that block (R162). -/
theorem arenaRead_blockWrite_same {s : State} {b : Nat} (hb : b < s.arenaBlocks) (B : Block) (w : Fin 128) :
    arenaRead (blockWrite s b B) (128 * b + w.val) = B.get w := by
  rw [← blockRead_get _ _ _ (by rwa [blockWrite_arenaBlocks]), blockRead_blockWrite_same _ _ _ hb]

/-- A block store leaves every byte outside the block. -/
theorem memByte_blockWrite_outside {s : State} {b a : Nat} (hb : b < s.arenaBlocks)
    (ha : ¬(1024 * b ≤ a ∧ a < 1024 * b + 1024)) (B : Block) : memByte (blockWrite s b B).arena a = memByte s.arena a :=
  (memByte_blockWrite s b a B hb).trans (if_neg ha)

/-! ### BZERO (43_block.md R160) -/

theorem wordsBytes_replicate_zero (n : Nat) : wordsBytes (List.replicate n 0#64) = zeroBytes (8 * n) := by
  induction n with
  | zero => rfl
  | succ n ih =>
    have hword : le64 0#64 = zeroBytes 8 := rfl
    rw [List.replicate_succ, wordsBytes_cons, ih, hword, Nat.mul_succ, Nat.add_comm]
    exact List.replicate_append_replicate

theorem blockBytes_zeroBlock : blockBytes zeroBlock = zeroBytes 1024 := by
  rw [blockBytes, zeroBlock, Vector.toList_replicate, wordsBytes_replicate_zero]

theorem exec_bzero {s : State} (hopa : s.opa.toNat < s.arenaBlocks) :
    exec .bzero s = .next (complete (blockWrite s s.opa.toNat zeroBlock)) :=
  exec_of_ok (if_pos (blockInRange_iff.2 hopa))

theorem exec_bzero_range {s : State} (hopa : s.arenaBlocks ≤ s.opa.toNat) : exec .bzero s = .next (raiseError .range s) :=
  exec_of_error (if_neg fun h => (blockInRange_iff.1 h).not_ge hopa)

/-- Settles O33: a block store lays down the bytes of the zero block, all of them 0. -/
theorem bzeroZeroesOneBlock : Obligations.BzeroZeroesOneBlock := by
  refine fun s => ⟨fun hopa => ⟨_, exec_bzero hopa, fun a => ?_, complete_blockWrite _ _ _⟩, exec_bzero_range⟩
  rw [complete_arena, memByte_blockWrite _ _ _ _ hopa, blockBytes_zeroBlock, zeroBytes_getD]

/-! ### BXOR (43_block.md R161) -/

theorem exec_bxor {s : State} (hopa : s.opa.toNat < s.arenaBlocks) (hopb : s.opb.toNat < s.arenaBlocks) :
    exec .bxor s = .next (complete
      (blockWrite s s.opa.toNat (blockXor (blockRead s s.opa.toNat) (blockRead s s.opb.toNat)))) :=
  exec_of_ok (if_pos (Bool.and_eq_true_iff.2 ⟨blockInRange_iff.2 hopa, blockInRange_iff.2 hopb⟩))

theorem exec_bxor_range {s : State} (h : s.arenaBlocks ≤ s.opa.toNat ∨ s.arenaBlocks ≤ s.opb.toNat) :
    exec .bxor s = .next (raiseError .range s) := by
  refine exec_of_error (if_neg fun hin => ?_)
  obtain ⟨hopa, hopb⟩ := Bool.and_eq_true_iff.1 hin
  exact h.elim (blockInRange_iff.1 hopa).not_ge (blockInRange_iff.1 hopb).not_ge

/-- Settles O34: the stored block is the XOR of the two blocks read before the store, and its words are arena words. -/
theorem bxorAccumulatesOneBlock : Obligations.BxorAccumulatesOneBlock := by
  refine fun s => ⟨fun hopa hopb => ⟨_, exec_bxor hopa hopb, fun w hw => ?_,
    fun a ha => memByte_blockWrite_outside hopa ha _, complete_blockWrite _ _ _⟩, exec_bxor_range⟩
  refine (arenaRead_blockWrite_same hopa _ ⟨w, hw⟩).trans ?_
  rw [blockXor_get, blockRead_get _ _ _ hopa, blockRead_get _ _ _ hopb]

end Sys2Proof.Machine

/-! PROOFS. The compression function and GCMP: O35 to O38. A round gathers sixteen words, mixes them by steps that each replace
one word by an injective function of it, and writes them back, so it is injective and touches its own sixteen words alone. -/

namespace Sys2Proof.Machine

open Function (Injective Injective2)

/-! ### The two word operations of the mixing primitive (44_compress.md R170) -/

/-- On the low halves, `fBlaMka` at a fixed second argument is multiplication by an odd number, and an addition. -/
theorem lo32_fBlaMka (x y : Word) : lo32 (fBlaMka x y) = (lo32 x * (2 * lo32 y + 1) + lo32 y) % 2 ^ 32 := by
  have hlow : lo32 (fBlaMka x y) = (lo32 x + lo32 y + 2 * (lo32 x * lo32 y)) % 2 ^ 32 := by
    simp only [fBlaMka, lo32, BitVec.toNat_add, BitVec.toNat_mul, BitVec.toNat_ofNat]
    omega
  rw [hlow]
  congr 1
  ring

theorem lo32_eq_of_fBlaMka_eq {x x' y : Word} (h : fBlaMka x y = fBlaMka x' y) : lo32 x = lo32 x' := by
  have hodd : Nat.gcd (2 ^ 32) (2 * lo32 y + 1) = 1 :=
    Nat.Coprime.pow_left 32 (Nat.coprime_two_left.2 (odd_two_mul_add_one _))
  have hlow : lo32 x * (2 * lo32 y + 1) + lo32 y ≡ lo32 x' * (2 * lo32 y + 1) + lo32 y [MOD 2 ^ 32] := by
    rw [Nat.ModEq, ← lo32_fBlaMka, ← lo32_fBlaMka, h]
  exact ((hlow.add_right_cancel' _).cancel_right_of_coprime hodd).eq_of_lt_of_lt (Nat.mod_lt _ (by decide))
    (Nat.mod_lt _ (by decide))

/-- Equal values have equal low halves, so equal products, and what is left is an addition. -/
theorem fBlaMka_injective (y : Word) : Injective fun x => fBlaMka x y := by
  intro x x' h
  have hlo : lo32 x = lo32 x' := lo32_eq_of_fBlaMka_eq h
  simp only [fBlaMka, hlo] at h
  exact add_right_cancel (add_right_cancel h)

theorem rotr64_eq_rotateRight {n : Nat} (h : n < 64) (x : Word) : rotr64 x n = x.rotateRight n := by
  rw [BitVec.rotateRight_def, Nat.mod_eq_of_lt h, rotr64]

/-- Rotating by `n` and then by `64 - n` gives the word back. -/
theorem rotr64_rotr64 {n : Nat} (hlow : 1 ≤ n) (hhigh : n ≤ 63) (x : Word) : rotr64 (rotr64 x n) (64 - n) = x := by
  rw [rotr64_eq_rotateRight (by omega), rotr64_eq_rotateRight (by omega)]
  refine BitVec.eq_of_getLsbD_eq fun k hk => ?_
  rw [BitVec.getLsbD_rotateRight_of_lt (by omega), BitVec.getLsbD_rotateRight_of_lt (by omega),
    BitVec.getLsbD_rotateRight_of_lt (by omega)]
  by_cases hn : k < n
  · simp [show k < 64 - (64 - n) by omega, show ¬ 64 - n + k < 64 - n by omega, show 64 - n + k < 64 by omega]
  · simp [show ¬ k < 64 - (64 - n) by omega, show k - (64 - (64 - n)) < 64 - n by omega, hk,
      show n + (k - (64 - (64 - n))) = k by omega]

/-- The exclusive-or step of the mixing primitive, as a function of the word it replaces and of the other word. -/
def xorRotr (n : Nat) (x y : Word) : Word := rotr64 (x ^^^ y) n

theorem xorRotr_injective {n : Nat} (hlow : 1 ≤ n) (hhigh : n ≤ 63) (y : Word) : Injective fun x => xorRotr n x y := by
  intro x x' (h : rotr64 (x ^^^ y) n = rotr64 (x' ^^^ y) n)
  have hx : x ^^^ y = x' ^^^ y := by rw [← rotr64_rotr64 hlow hhigh (x ^^^ y), h, rotr64_rotr64 hlow hhigh]
  exact (BitVec.xor_left_inj y).1 hx

/-! ### The mixing primitive and a round's eight calls (44_compress.md R170, R171) -/

theorem vector_get_set {α : Type} {n : Nat} (v : Vector α n) (i j : Fin n) (x : α) :
    (v.set i.val x).get j = if i = j then x else v.get j := by
  simp [Vector.get_eq_getElem, Vector.getElem_set, Fin.ext_iff]

/-- Two vectors with the same words are equal. -/
theorem vector_ext_get {α : Type} {n : Nat} {v v' : Vector α n} (h : ∀ k, v.get k = v'.get k) : v = v' :=
  Vector.ext fun k hk => h ⟨k, hk⟩

/-- One step of the mixing primitive: word `i` becomes a function of itself and of word `j`. -/
def mixStep (g : Word → Word → Word) (i j : Fin 16) (v : Vector Word 16) : Vector Word 16 :=
  v.set i.val (g (v.get i) (v.get j))

theorem mixStep_injective {g : Word → Word → Word} (hg : ∀ y, Injective fun x => g x y) {i j : Fin 16} (hij : i ≠ j) :
    Injective (mixStep g i j) := by
  intro v v' h
  have hget (k : Fin 16) : (mixStep g i j v).get k = (mixStep g i j v').get k := by rw [h]
  simp only [mixStep, vector_get_set] at hget
  have hother {k : Fin 16} (hk : i ≠ k) : v.get k = v'.get k := by simpa [hk] using hget k
  have hself : v.get i = v'.get i := hg (v.get j) (by simpa [hother hij] using hget i)
  refine vector_ext_get fun k => ?_
  by_cases hik : i = k
  · rwa [← hik]
  · exact hother hik

/-- Half a call of the mixing primitive: two additions and two rotations. -/
def mixHalf (m n : Nat) (a b c d : Fin 16) : Vector Word 16 → Vector Word 16 :=
  mixStep (xorRotr n) b c ∘ mixStep fBlaMka c d ∘ mixStep (xorRotr m) d a ∘ mixStep fBlaMka a b

theorem blaMkaMix_eq (v : Vector Word 16) (a b c d : Fin 16) :
    blaMkaMix v a b c d = mixHalf 16 63 a b c d (mixHalf 32 24 a b c d v) := rfl

/-- The words that the eight calls of a round mix: four columns, then four diagonals. -/
def roundCalls : List (Fin 16 × Fin 16 × Fin 16 × Fin 16) :=
  [(0, 4, 8, 12), (1, 5, 9, 13), (2, 6, 10, 14), (3, 7, 11, 15), (0, 5, 10, 15), (1, 6, 11, 12), (2, 7, 8, 13), (3, 4, 9, 14)]

theorem blaMkaRound_eq (v : Vector Word 16) :
    blaMkaRound v = roundCalls.foldl (fun v x => blaMkaMix v x.1 x.2.1 x.2.2.1 x.2.2.2) v := rfl

theorem foldl_injective {α β : Type} {f : β → α → β} {l : List α} (h : ∀ a ∈ l, Injective fun b => f b a) :
    Injective (l.foldl f) := by
  induction l with
  | nil => exact fun _ _ hb => hb
  | cons a l ih =>
    obtain ⟨ha, hl⟩ := List.forall_mem_cons.1 h
    exact (ih hl).comp ha

section
variable {a b c d : Fin 16} (hab : a ≠ b) (hbc : b ≠ c) (hcd : c ≠ d) (hda : d ≠ a)
include hab hbc hcd hda

theorem mixHalf_injective {m n : Nat} (hm : 1 ≤ m ∧ m ≤ 63) (hn : 1 ≤ n ∧ n ≤ 63) : Injective (mixHalf m n a b c d) :=
  (mixStep_injective (xorRotr_injective hn.1 hn.2) hbc).comp <| (mixStep_injective fBlaMka_injective hcd).comp <|
    (mixStep_injective (xorRotr_injective hm.1 hm.2) hda).comp (mixStep_injective fBlaMka_injective hab)

theorem blaMkaMix_injective : Injective fun v => blaMkaMix v a b c d :=
  (mixHalf_injective hab hbc hcd hda (by decide) (by decide)).comp
    (mixHalf_injective hab hbc hcd hda (by decide) (by decide))

end

theorem blaMkaRound_injective : Injective blaMkaRound := by
  have hcalls : ∀ x ∈ roundCalls, x.1 ≠ x.2.1 ∧ x.2.1 ≠ x.2.2.1 ∧ x.2.2.1 ≠ x.2.2.2 ∧ x.2.2.2 ≠ x.1 := by simp [roundCalls]
  rw [funext blaMkaRound_eq]
  refine foldl_injective fun x hx => ?_
  obtain ⟨hab, hbc, hcd, hda⟩ := hcalls x hx
  exact blaMkaMix_injective hab hbc hcd hda

/-! ### One round of a block (44_compress.md R171) -/

/-- The words of a block at the positions `pos`. -/
def gather (pos : Fin 16 → Fin 128) (B : Block) : Vector Word 16 := Vector.ofFn fun j => B.get (pos j)

@[simp] theorem gather_get (pos : Fin 16 → Fin 128) (B : Block) (j : Fin 16) : (gather pos B).get j = B.get (pos j) :=
  Vector.get_ofFn _ j

/-- The words `v` written back one by one to their positions, for the indices in `l`. -/
def scatter (pos : Fin 16 → Fin 128) (v : Vector Word 16) (l : List (Fin 16)) (B : Block) : Block :=
  l.foldl (fun B j => B.set (pos j).val (v.get j)) B

theorem roundAt_eq (pos : Fin 16 → Fin 128) (B : Block) :
    roundAt pos B = scatter pos (blaMkaRound (gather pos B)) (List.finRange 16) B := rfl

section
variable {pos pos' : Fin 16 → Fin 128}

theorem scatter_get_of_ne {k : Fin 128} (hk : ∀ j, pos j ≠ k) (v : Vector Word 16) (l : List (Fin 16)) (B : Block) :
    (scatter pos v l B).get k = B.get k := by
  induction l generalizing B with
  | nil => rfl
  | cons i l ih => exact (ih _).trans ((vector_get_set ..).trans (if_neg (hk i)))

theorem scatter_get_pos (hpos : Injective pos) (v : Vector Word 16) (j : Fin 16) (l : List (Fin 16)) (B : Block) :
    (scatter pos v l B).get (pos j) = if j ∈ l then v.get j else B.get (pos j) := by
  induction l generalizing B with
  | nil => rfl
  | cons i l ih =>
    refine (ih _).trans ?_
    rw [vector_get_set]
    by_cases hij : i = j
    · simp [hij]
    · simp [Ne.symm hij, hpos.ne hij]

/-- A word after the words are written back depends on them and on that word alone. -/
theorem scatter_get_congr {k : Fin 128} (v : Vector Word 16) (l : List (Fin 16)) {B B' : Block} (h : B.get k = B'.get k) :
    (scatter pos v l B).get k = (scatter pos v l B').get k := by
  induction l generalizing B B' with
  | nil => exact h
  | cons i l ih => exact ih (by rw [vector_get_set, vector_get_set, h])

/-- A round leaves every word outside its positions. -/
theorem roundAt_get_of_ne {k : Fin 128} (hk : ∀ j, pos j ≠ k) (B : Block) : (roundAt pos B).get k = B.get k :=
  scatter_get_of_ne hk _ _ B

/-- A round leaves the mixed words at its positions. -/
theorem roundAt_get_pos (hpos : Injective pos) (B : Block) (j : Fin 16) :
    (roundAt pos B).get (pos j) = (blaMkaRound (gather pos B)).get j :=
  (scatter_get_pos hpos _ j _ B).trans (if_pos (List.mem_finRange j))

theorem roundAt_get_congr {k : Fin 128} {B B' : Block} (hgather : gather pos B = gather pos B') (h : B.get k = B'.get k) :
    (roundAt pos B).get k = (roundAt pos B').get k := by
  rw [roundAt_eq, roundAt_eq, hgather]
  exact scatter_get_congr _ _ h

/-- Two blocks are equal when they agree at the positions of a round and outside them. -/
theorem block_ext_positions {B B' : Block} (hin : ∀ j, B.get (pos j) = B'.get (pos j))
    (hout : ∀ k, (∀ j, pos j ≠ k) → B.get k = B'.get k) : B = B' := by
  refine block_ext fun k => ?_
  by_cases hk : ∃ j, pos j = k
  · obtain ⟨j, rfl⟩ := hk
    exact hin j
  · exact hout k (not_exists.1 hk)

theorem roundAt_injective (hpos : Injective pos) : Injective (roundAt pos) := by
  intro B B' h
  have hround : blaMkaRound (gather pos B) = blaMkaRound (gather pos B') :=
    vector_ext_get fun j => by rw [← roundAt_get_pos hpos, h, roundAt_get_pos hpos]
  have hgather : gather pos B = gather pos B' := blaMkaRound_injective hround
  refine block_ext_positions (pos := pos) (fun j => ?_) fun k hk => ?_
  · rw [← gather_get, hgather, gather_get]
  · rw [← roundAt_get_of_ne hk, h, roundAt_get_of_ne hk]

theorem gather_roundAt_of_disjoint (hdisj : ∀ j j', pos j ≠ pos' j') (B : Block) :
    gather pos' (roundAt pos B) = gather pos' B :=
  vector_ext_get fun j' => by rw [gather_get, gather_get, roundAt_get_of_ne fun j => hdisj j j']

/-- Two rounds at disjoint positions run in either order: neither changes what the other reads or writes. -/
theorem roundAt_comm (hdisj : ∀ j j', pos j ≠ pos' j') (B : Block) :
    roundAt pos (roundAt pos' B) = roundAt pos' (roundAt pos B) := by
  have hdisj' (j' j : Fin 16) : pos' j' ≠ pos j := (hdisj j j').symm
  refine block_ext_positions (pos := pos) (fun j => ?_) fun k hk => ?_
  · rw [roundAt_get_of_ne fun j' => hdisj' j' j]
    exact roundAt_get_congr (gather_roundAt_of_disjoint hdisj' B) (roundAt_get_of_ne (fun j' => hdisj' j' j) B)
  · rw [roundAt_get_of_ne hk]
    exact roundAt_get_congr (gather_roundAt_of_disjoint hdisj B).symm (roundAt_get_of_ne hk B).symm

end

/-! ### The two passes of eight rounds (44_compress.md R172, R173) -/

/-- No two words of the column-wise rounds are at one position. -/
theorem columnPos_injective2 : Injective2 columnPos := by
  intro i i' j j' h
  simp only [columnPos, Fin.ext_iff] at h ⊢
  omega

/-- No two words of the row-wise rounds are at one position. -/
theorem rowPos_injective2 : Injective2 rowPos := by
  intro i i' j j' h
  simp only [rowPos, Fin.ext_iff] at h ⊢
  omega

section
variable {pos : Fin 8 → Fin 16 → Fin 128} (hpos : Injective2 pos)
include hpos

theorem roundsAt_injective (order : List (Fin 8)) : Injective (roundsAt pos order) :=
  foldl_injective fun i _ => roundAt_injective (hpos.right i)

theorem roundsAt_perm {order order' : List (Fin 8)} (h : order.Perm order') (B : Block) :
    roundsAt pos order B = roundsAt pos order' B := by
  refine h.foldl_eq' (fun i _ i' _ B => ?_) B
  by_cases hi : i = i'
  · rw [hi]
  · exact roundAt_comm (fun j j' hj => hi (hpos hj).1.symm) B

end

/-- Settles O38: two rounds of one pass share no position, so they commute. -/
theorem roundOrderInsideAPassIsFree : Obligations.RoundOrderInsideAPassIsFree :=
  fun _ B h => ⟨roundsAt_perm columnPos_injective2 h B, roundsAt_perm rowPos_injective2 h B⟩

/-! ### The permutation (44_compress.md R174) -/

theorem permP_injective : Injective permP := by
  intro B B' h
  rw [permP, permP] at h
  exact roundsAt_injective columnPos_injective2 _ (roundsAt_injective rowPos_injective2 _ h)

theorem finite_block : Finite Block := Finite.of_injective Vector.get fun _ _ h => block_ext (congrFun h)

theorem mixStep_zero {g : Word → Word → Word} (hg : g 0#64 0#64 = 0#64) (i j : Fin 16) :
    mixStep g i j (Vector.replicate 16 0#64) = Vector.replicate 16 0#64 := by
  simp [mixStep, hg]

theorem mixHalf_zero (m n : Nat) (a b c d : Fin 16) :
    mixHalf m n a b c d (Vector.replicate 16 0#64) = Vector.replicate 16 0#64 := by
  have hadd : fBlaMka 0#64 0#64 = 0#64 := by decide
  have hxor (k : Nat) : xorRotr k 0#64 0#64 = 0#64 := by simp [xorRotr, rotr64]
  simp only [mixHalf, Function.comp_apply, mixStep_zero hadd, mixStep_zero (hxor _)]

theorem blaMkaRound_zero : blaMkaRound (Vector.replicate 16 0#64) = Vector.replicate 16 0#64 := by
  rw [blaMkaRound_eq]
  refine List.foldl_fixed' (fun x => ?_) roundCalls
  rw [blaMkaMix_eq, mixHalf_zero, mixHalf_zero]

theorem gather_zeroBlock (pos : Fin 16 → Fin 128) : gather pos zeroBlock = Vector.replicate 16 0#64 := by
  refine vector_ext_get fun j => ?_
  rw [gather_get, zeroBlock_get, Vector.get_replicate]

theorem roundAt_zeroBlock {pos : Fin 16 → Fin 128} (hpos : Injective pos) : roundAt pos zeroBlock = zeroBlock := by
  refine block_ext_positions (pos := pos) (fun j => ?_) fun k hk => roundAt_get_of_ne hk _
  rw [roundAt_get_pos hpos, gather_zeroBlock, blaMkaRound_zero, zeroBlock_get, Vector.get_replicate]

theorem roundsAt_zeroBlock {pos : Fin 8 → Fin 16 → Fin 128} (hpos : Injective2 pos) (order : List (Fin 8)) :
    roundsAt pos order zeroBlock = zeroBlock :=
  List.foldl_fixed' (fun i => roundAt_zeroBlock (hpos.right i)) order

theorem permP_zeroBlock : permP zeroBlock = zeroBlock := by
  rw [permP, roundsAt_zeroBlock columnPos_injective2, roundsAt_zeroBlock rowPos_injective2]

/-- Settles O37: an injective function of the finite set of blocks is onto. -/
theorem permutationIsABijection : Obligations.PermutationIsABijection := by
  have := finite_block
  refine ⟨Finite.injective_iff_bijective.1 permP_injective, permP_zeroBlock, ?_⟩
  rw [compressG, blockXor_self, permP_zeroBlock, blockXor_self]

/-! ### A store over a store -/

/-- A store hides an earlier store of as many bytes at the same address. -/
theorem memWrite_memWrite_same (m : List Host.Cell) (lo : Nat) {bs bs' : List Byte} (h : bs.length = bs'.length) :
    memWrite (memWrite m lo bs) lo bs' = memWrite m lo bs' := by
  have hlow : (memWrite m lo bs).filter (fun c => decide (c.1 < lo)) = m.filter fun c => decide (c.1 < lo) := by
    have hcells : (cellsFrom lo bs).filter (fun c => decide (c.1 < lo)) = [] :=
      List.filter_eq_nil_iff.2 fun c hc => by simpa using (cellsFrom_key hc).1
    simpa [memWrite, hcells, List.filter_filter] using fun a _ _ (ha : a < lo) => by omega
  have hhigh : (memWrite m lo bs).filter (fun c => decide (lo + bs'.length ≤ c.1)) =
      m.filter fun c => decide (lo + bs'.length ≤ c.1) := by
    have hcells : (cellsFrom lo bs).filter (fun c => decide (lo + bs'.length ≤ c.1)) = [] :=
      List.filter_eq_nil_iff.2 fun c hc => by simpa [← h] using (cellsFrom_key hc).2.1
    simpa [memWrite, hcells, List.filter_filter, h] using fun a _ _ (ha : lo + bs'.length ≤ a) => by omega
  rw [memWrite, hlow, hhigh, memWrite]

/-- A block store hides an earlier store to the same block. -/
theorem blockWrite_blockWrite_same (s : State) (b : Nat) (B B' : Block) :
    blockWrite (blockWrite s b B) b B' = blockWrite s b B' := by
  by_cases hb : b < s.arenaBlocks
  · rw [blockWrite_of_lt (by rwa [blockWrite_arenaBlocks]), blockWrite_of_lt hb, blockWrite_of_lt hb,
      memWrite_memWrite_same _ _ (by rw [blockBytes_length, blockBytes_length])]
  · rw [blockWrite_of_not_lt hb]

/-- A completion before a block store is overtaken by the one after it. -/
theorem complete_blockWrite_complete (s : State) (b : Nat) (B : Block) :
    complete (blockWrite (complete s) b B) = complete (blockWrite s b B) := by
  by_cases hb : b < s.arenaBlocks
  · rw [blockWrite_of_lt hb, blockWrite_of_lt (show b < (complete s).arenaBlocks from hb)]
    rfl
  · rw [blockWrite_of_not_lt hb, blockWrite_of_not_lt (show ¬ b < (complete s).arenaBlocks from hb)]
    rfl

/-! ### GCMP (44_compress.md R175 to R177) -/

/-- The two exclusive ors around the permutation add `G` to the old block. -/
theorem compressInto_eq (old X Y : Block) : compressInto old X Y = blockXor old (compressG X Y) := blockXor_assoc ..

/-- The block that GCMP stores. -/
def gcmpBlock (w : Bool) (s : State) : Block :=
  compressInto (if w then zeroBlock else blockRead s s.opa.toNat) (blockRead s s.opb.toNat) (blockRead s s.opc.toNat)

theorem gcmpBlock_eq (w : Bool) (s : State) :
    gcmpBlock w s =
      (let g := compressG (blockRead s s.opb.toNat) (blockRead s s.opc.toNat)
       if w then g else blockXor (blockRead s s.opa.toNat) g) := by
  cases w with
  | false => exact compressInto_eq ..
  | true => exact (compressInto_eq ..).trans (zeroBlock_xor _)

theorem exec_gcmp (w : Bool) {s : State} (hopa : s.opa.toNat < s.arenaBlocks) (hopb : s.opb.toNat < s.arenaBlocks)
    (hopc : s.opc.toNat < s.arenaBlocks) :
    exec (.gcmp w) s = .next (complete (blockWrite s s.opa.toNat (gcmpBlock w s))) := by
  refine exec_of_ok (if_pos ?_)
  simp only [Bool.and_eq_true, blockInRange_iff]
  exact ⟨⟨hopa, hopb⟩, hopc⟩

theorem exec_gcmp_range (w : Bool) {s : State}
    (h : s.arenaBlocks ≤ s.opa.toNat ∨ s.arenaBlocks ≤ s.opb.toNat ∨ s.arenaBlocks ≤ s.opc.toNat) :
    exec (.gcmp w) s = .next (raiseError .range s) := by
  refine exec_of_error (if_neg ?_)
  simp only [Bool.and_eq_true, blockInRange_iff]
  omega

/-- Settles O35: the stored block is computed from the three blocks before the store. -/
theorem gcmpCompressesIntoOneBlock : Obligations.GcmpCompressesIntoOneBlock := by
  refine fun s w => ⟨fun hopa hopb hopc => ⟨_, exec_gcmp w hopa hopb hopc, ?_,
    fun a ha => memByte_blockWrite_outside hopa ha _, complete_blockWrite _ _ _⟩, exec_gcmp_range w⟩
  rw [blockRead_complete, blockRead_blockWrite_same _ _ _ hopa, gcmpBlock_eq]

theorem gcmpBlock_after_bzero {s : State} (hopa : s.opa.toNat < s.arenaBlocks) (hb : s.opa ≠ s.opb) (hc : s.opa ≠ s.opc) :
    gcmpBlock false (complete (blockWrite s s.opa.toNat zeroBlock)) = gcmpBlock true s := by
  have hb' : s.opb.toNat ≠ s.opa.toNat := BitVec.toNat_ne.1 hb.symm
  have hc' : s.opc.toNat ≠ s.opa.toNat := BitVec.toNat_ne.1 hc.symm
  simp [gcmpBlock, blockRead_blockWrite_same _ _ _ hopa, blockRead_blockWrite_other _ _ _ _ hb',
    blockRead_blockWrite_other _ _ _ _ hc']

/-- Settles O36: with the destination no source, GCMP reads the sources as before BZERO and the destination as zero, and its
store hides the one of BZERO. -/
theorem overwriteIsZeroThenAccumulate : Obligations.OverwriteIsZeroThenAccumulate := by
  intro s hopa hopb hopc hb hc
  refine ⟨_, complete (blockWrite s s.opa.toNat (gcmpBlock true s)), exec_bzero hopa, ?_, exec_gcmp true hopa hopb hopc⟩
  rw [exec_gcmp false (by simpa) (by simpa) (by simpa), gcmpBlock_after_bzero hopa hb hc, complete_blockWrite_complete,
    complete_opa, blockWrite_opa, blockWrite_blockWrite_same]

end Sys2Proof.Machine

/-! PROOFS. The address generator and the fill commands: O50 to O59. The registers that AGNEXT writes are said once as exact
numbers, from `stepRefLane`, `stepRefIndex` and `stepPrevious`; in the data-independent mode PRAND is a word of
`positionAddresses`, which the configuration and the position determine; a fill step stores one block of its segment, and
does not see the report that the end of a command changes. -/

namespace Sys2Proof.Machine

/-! ### The reference area and the index in it (45_addrgen.md R199, R200) -/

/-- With a non-empty area the index counts back from the area's end, and nothing wraps (R200). -/
theorem indexAlpha_of_pos {pass slice i q sg x : Nat} {same : Bool} (hx : x < 2 ^ 32)
    (hpos : 1 ≤ referenceArea pass slice i q sg same) (hlt : referenceArea pass slice i q sg same < 2 ^ 32) :
    indexAlpha pass slice i q sg same x =
      (referenceStart pass slice sg + (referenceArea pass slice i q sg same - 1 -
        referenceArea pass slice i q sg same * (x * x / 2 ^ 32) / 2 ^ 32)) % q := by
  rw [indexAlpha, relativePosition_toNat hx hpos hlt]

/-- With an empty area the index is 0xFFFFFFFF positions after the area's start, going round (R200). -/
theorem indexAlpha_of_empty {pass slice i q sg : Nat} {same : Bool} (h : referenceArea pass slice i q sg same = 0) (x : Nat) :
    indexAlpha pass slice i q sg same x = (referenceStart pass slice sg + 0xFFFFFFFF) % q := by
  rw [indexAlpha, h, relativePosition_zero]

/-- Settles O52: the rows are those of `referenceArea`, and the two cases of the index are the two above. -/
theorem indexAlphaIsTheExactFormula : Obligations.IndexAlphaIsTheExactFormula := by
  intro r sl i q sg x same
  refine ⟨?_, ?_, ?_, ?_, ?_, fun hq hx hlt => ⟨fun hpos => ⟨biasProduct_le hx hpos, indexAlpha_of_pos hx hpos hlt⟩,
    fun hempty => indexAlpha_of_empty hempty x, indexAlpha_lt hq r sl i sg same x⟩⟩
  · rintro rfl rfl
    simp [referenceArea]
  · rintro rfl hsl rfl
    simp [referenceArea, Nat.ne_of_gt hsl]
  · rintro rfl hsl rfl
    simp [referenceArea, Nat.ne_of_gt hsl]
  · rintro hr rfl
    simp [referenceArea, Nat.ne_of_gt hr]
  · rintro hr rfl
    simp [referenceArea, Nat.ne_of_gt hr]

/-! ### AGSEG (R192) -/

/-- The table of R191 in numbers. -/
theorem addressMode_eq (y : BitVec 2) (pass slice : Nat) :
    addressMode y pass slice =
      (decide (y.toNat = 1) || (decide (y.toNat = 2) && decide (pass = 0) && decide (slice < 2))) := by
  simp only [addressMode, BitVec.toNat_eq]
  rfl

/-- The hidden blocks of a new segment: zero, except for the input block of the data-independent mode (R192, R193). -/
theorem startSegment_ag (pass slice lane : Word) (s : State) :
    (startSegment pass slice lane s).ag =
      if addressMode s.actY pass.toNat slice.toNat then
        { AddrGen.zero with ib := initInputBlock pass lane slice { s with agCtr := 0 } }
      else AddrGen.zero := by
  unfold startSegment
  dsimp only
  split <;> rfl

/-- The words of an input block whose counter is 0: six words, then zeros (R193). -/
theorem inputBlock_zero_counter_get (pass lane slice mprime t y : Word) (k : Fin 128) :
    (inputBlock pass lane slice mprime t y 0).get k = [pass, lane, slice, mprime, t, y].getD k.val 0#64 := by
  show (inputBlock pass lane slice mprime t y 0)[k.val] = _
  rw [inputBlock, Vector.getElem_ofFn]
  match k with
  | ⟨0, _⟩ | ⟨1, _⟩ | ⟨2, _⟩ | ⟨3, _⟩ | ⟨4, _⟩ | ⟨5, _⟩ | ⟨6, _⟩ => rfl
  | ⟨_ + 7, _⟩ => rfl

/-- Settles O50: AGSEG answers `openLane` of its operands, and the hidden blocks are those of `startSegment_ag`. -/
theorem agsegStartsASegment : Obligations.AgsegStartsASegment := by
  intro s hcfg hpass hslice hlane ind
  have hind : addressMode s.actY s.opa.toNat s.opb.toNat = ind := addressMode_eq ..
  have hag : (openLane s.opa s.opb s.opc s).ag = if ind then
      { AddrGen.zero with ib := initInputBlock s.opa s.opc s.opb { s with agCtr := 0 } } else AddrGen.zero :=
    hind ▸ startSegment_ag s.opa s.opb s.opc s
  have hidx : firstIndex s.opa.toNat s.opb.toNat < 2 ^ 32 := (firstIndex_le _ _).trans_lt (by decide)
  have heq := openLane_eq s.opa s.opb s.opc s
  rw [hind] at heq
  refine ⟨openLane s.opa s.opb s.opc s, exec_agseg ⟨hcfg, hpass, hslice, hlane⟩, ?_, ?_, ?_, ?_, fun k => ?_,
    fun k => ?_, ?_, ?_⟩
  · rw [heq]
    exact toNat_setWidth_of_lt (hpass.trans s.actT.isLt)
  · rw [heq]
    exact toNat_setWidth_of_lt hslice
  · rw [heq]
    exact toNat_setWidth_of_lt (hlane.trans s.actP.isLt)
  · rw [heq]
    exact toNat_ofNat_of_lt hidx
  · rw [hag]
    split
    · exact inputBlock_zero_counter_get ..
    · exact zeroBlock_get k
  · rw [hag]
    split <;> exact zeroBlock_get k
  · rw [hag]
    split <;> rfl
  · rw [heq]

/-! ### The numbers that AGNEXT names (R195 to R200) -/

theorem agStep_refLane (s : State) : (agStep s).refLane = BitVec.ofNat 32 (stepRefLane s (agStep s).prand) := by
  simp only [agStep, refillIfDue_actP]
  rfl

theorem agStep_refIndex (s : State) : (agStep s).refIndex = BitVec.ofNat 32 (stepRefIndex s (agStep s).prand) := by
  simp only [agStep, refillIfDue_actP]
  rfl

/-- What AGNEXT leaves unchanged (R195). -/
theorem agStep_eq (s : State) :
    agStep s =
      { s with
        prand := (agStep s).prand, refLane := (agStep s).refLane, refIndex := (agStep s).refIndex
        refBlk := (agStep s).refBlk, curBlk := (agStep s).curBlk, prevBlk := (agStep s).prevBlk
        agIndex := (agStep s).agIndex, agCtr := (agStep s).agCtr, ag := (agStep s).ag } := by
  unfold agStep refillIfDue
  split <;> rfl

theorem exec_agnext {s : State} (ho : segmentOpen s = true) : exec .agnext s = .next (complete (agStep s)) :=
  exec_of_ok (if_pos ho)

section
variable {s : State} (h : Inv s) (ho : segmentOpen s = true)
include h ho

/-- The reference lane is one of the configuration (R198). -/
theorem stepRefLane_lt (pr : Word) : stepRefLane s pr < s.actP.toNat :=
  have ⟨_, _, hlane⟩ := lane_shape_of_active h (segmentOpen_iff.1 ho).1
  referenceLane_lt hlane pr

/-- The reference index is a position of a lane (R200). -/
theorem stepRefIndex_lt (pr : Word) : stepRefIndex s pr < s.lanelen.toNat :=
  have ⟨_, _, _⟩ := lane_shape_of_active h (segmentOpen_iff.1 ho).1
  indexAlpha_lt (by omega) _ _ _ _ _ _

theorem agStep_refLane_toNat : (agStep s).refLane.toNat = stepRefLane s (agStep s).prand := by
  rw [agStep_refLane, toNat_ofNat_of_lt ((stepRefLane_lt h ho _).trans s.actP.isLt)]

theorem agStep_refIndex_toNat : (agStep s).refIndex.toNat = stepRefIndex s (agStep s).prand := by
  rw [agStep_refIndex, toNat_ofNat_of_lt ((stepRefIndex_lt h ho _).trans s.lanelen.isLt)]

/-- REF_BLK is the block of the reference lane at the reference index (R198). -/
theorem agStep_refBlk_toNat :
    (agStep s).refBlk.toNat = (agStep s).refLane.toNat * s.lanelen.toNat + (agStep s).refIndex.toNat := by
  have hblk := lane_block_lt_mprime h (segmentOpen_iff.1 ho).1 (stepRefLane_lt h ho (agStep s).prand)
    (stepRefIndex_lt h ho (agStep s).prand)
  rw [agStep_refBlk, toNat_ofNat_of_lt (hblk.trans s.mprime.isLt), agStep_refLane_toNat h ho, agStep_refIndex_toNat h ho]

/-- The current position is one of the lane (R196). -/
theorem stepPosition_lt : lanePosition s.agSlice.toNat s.agIndex.toNat s.seglen.toNat < s.lanelen.toNat :=
  have ⟨hact, hopen⟩ := segmentOpen_iff.1 ho
  have ⟨_, hq, _⟩ := lane_shape_of_active h hact
  lanePosition_lt hq s.agSlice.isLt hopen

theorem agStep_curBlk_toNat :
    (agStep s).curBlk.toNat =
      s.agLane.toNat * s.lanelen.toNat + lanePosition s.agSlice.toNat s.agIndex.toNat s.seglen.toNat := by
  have hact := (segmentOpen_iff.1 ho).1
  obtain ⟨-, -, hlane⟩ := lane_shape_of_active h hact
  rw [agStep_curBlk,
    toNat_ofNat_of_lt ((lane_block_lt_mprime h hact hlane (stepPosition_lt h ho)).trans s.mprime.isLt)]

theorem agStep_prevBlk_toNat : (agStep s).prevBlk.toNat = stepPrevious s := (prevBlk_position h ho).1

/-- Every block that AGNEXT names is one of the MPRIME blocks of the configuration (R198). -/
theorem step_blocks_lt_mprime :
    (agStep s).refBlk.toNat < s.mprime.toNat ∧ (agStep s).curBlk.toNat < s.mprime.toNat ∧
      (agStep s).prevBlk.toNat < s.mprime.toNat := by
  have hact := (segmentOpen_iff.1 ho).1
  obtain ⟨-, -, hlane⟩ := lane_shape_of_active h hact
  obtain ⟨lane, href, x, hx, hrefBlk, -⟩ := refBlk_position h ho
  obtain ⟨c, hc, -, hcur⟩ := curBlk_position h ho
  obtain ⟨hprev, p, hp, hprevEq⟩ := prevBlk_position h ho
  rw [hrefBlk, hcur, hprev, hprevEq]
  exact ⟨lane_block_lt_mprime h hact href hx, lane_block_lt_mprime h hact hlane hc, lane_block_lt_mprime h hact hlane hp⟩

/-- The configured blocks are in the arena (R33). -/
theorem mprime_le_arenaBlocks : s.mprime.toNat ≤ s.arenaBlocks := by
  obtain ⟨hactive, -⟩ := h.segment
  obtain ⟨hcfg, -⟩ := hactive (segmentOpen_iff.1 ho).1
  obtain ⟨-, -, -, -, -, -, hfit⟩ := h.config hcfg
  exact hfit

/-- So every block that AGNEXT names is in the arena (R67, R198). -/
theorem step_blocks_lt_arenaBlocks :
    (agStep s).refBlk.toNat < s.arenaBlocks ∧ (agStep s).curBlk.toNat < s.arenaBlocks ∧
      (agStep s).prevBlk.toNat < s.arenaBlocks :=
  have ⟨href, hcur, hprev⟩ := step_blocks_lt_mprime h ho
  have hfit := mprime_le_arenaBlocks h ho
  ⟨href.trans_le hfit, hcur.trans_le hfit, hprev.trans_le hfit⟩

end

/-- Settles O53: each block is a position of a lane of the configuration. -/
theorem stepBlocksStayInsideTheConfiguration : Obligations.StepBlocksStayInsideTheConfiguration := by
  intro s t h hact hopen he
  have ho := segmentOpen_iff.2 ⟨hact, hopen⟩
  cases (exec_agnext ho).symm.trans he
  obtain ⟨href, hcur, hprev⟩ := step_blocks_lt_mprime h ho
  exact ⟨(agStep_refLane_toNat h ho).trans_lt (stepRefLane_lt h ho _),
    (agStep_refIndex_toNat h ho).trans_lt (stepRefIndex_lt h ho _), href, hcur, hprev, mprime_le_arenaBlocks h ho⟩

/-- Settles O55: outside pass 0 slice 0, where the lane is forced, `indexAlpha_div_ne_slice` speaks of the reference index. -/
theorem crossLaneReferencesAvoidTheCurrentSlice : Obligations.CrossLaneReferencesAvoidTheCurrentSlice := by
  intro s t h hact hopen he hne
  have ho := segmentOpen_iff.2 ⟨hact, hopen⟩
  cases (exec_agnext ho).symm.trans he
  obtain ⟨hsg, hq, -⟩ := lane_shape_of_active h hact
  have hlane : stepRefLane s (agStep s).prand ≠ s.agLane.toNat := by
    rw [← agStep_refLane_toNat h ho]
    exact BitVec.toNat_ne.1 hne
  rw [complete_refIndex, agStep_refIndex_toNat h ho, stepRefIndex, decide_eq_false hlane]
  exact indexAlpha_div_ne_slice (Nat.mod_lt _ (by decide)) hsg hq s.lanelen.isLt s.agSlice.isLt fun hf => hlane (if_pos hf)

/-! ### The reference is neither the current nor the previous block (R201) -/

/-- The position of the previous block within its lane (R196). -/
def previousPosition (slice i q sg : Nat) : Nat :=
  if lanePosition slice i sg = 0 then q - 1 else lanePosition slice i sg - 1

theorem previousBlock_eq {q : Nat} (hq : 0 < q) (lane slice i sg : Nat) :
    previousBlock lane slice i q sg = lane * q + previousPosition slice i q sg := by
  unfold previousBlock previousPosition currentBlock
  split <;> omega

/-- The area of the current lane ends just before the previous block, going round the lane from its start: once round after the
first pass, unless the slice is the last (R199, R200). -/
theorem referenceArea_same_end {pass slice i q sg : Nat} (hq : q = 4 * sg) (hslice : slice < 4) (hi : i < sg)
    (hfirst : firstIndex pass slice ≤ i) :
    referenceArea pass slice i q sg true + 1 < q ∧
      (referenceStart pass slice sg + referenceArea pass slice i q sg true + 1 = lanePosition slice i sg ∨
        referenceStart pass slice sg + referenceArea pass slice i q sg true + 1 = q + lanePosition slice i sg) := by
  have hj := lanePosition_lt hq hslice hi
  unfold lanePosition at hj ⊢
  by_cases hpass : pass = 0
  · subst hpass
    by_cases hs : slice = 0
    · subst hs
      have : 2 ≤ i := hfirst
      simp only [referenceArea, referenceStart, if_true]
      omega
    · have : sg ≤ slice * sg := Nat.le_mul_of_pos_left sg (by omega)
      simp only [referenceArea, referenceStart, if_true, if_neg hs]
      omega
  · simp only [referenceArea, referenceStart, if_true, if_neg hpass]
    by_cases hs : slice = 3
    · subst hs
      simp only [if_true]
      omega
    · have : (slice + 1) * sg = slice * sg + sg := Nat.succ_mul slice sg
      simp only [if_neg hs]
      omega

/-- Only a segment of one block has an empty area of the current lane, in pass 0 slice 1 (R199). -/
theorem eq_of_referenceArea_same_empty {pass slice i q sg : Nat} (hq : q = 4 * sg) (hi : i < sg)
    (hfirst : firstIndex pass slice ≤ i) (hempty : referenceArea pass slice i q sg true = 0) :
    pass = 0 ∧ slice = 1 ∧ i = 0 ∧ sg = 1 := by
  by_cases hpass : pass = 0
  · subst hpass
    by_cases hs : slice = 0
    · subst hs
      have : 2 ≤ i := hfirst
      simp only [referenceArea, if_true] at hempty
      omega
    · have hmul : slice ≤ slice * sg := Nat.le_mul_of_pos_right slice (by omega)
      have hmul' : sg ≤ slice * sg := Nat.le_mul_of_pos_left sg (by omega)
      simp only [referenceArea, if_true, if_neg hs] at hempty
      omega
  · simp only [referenceArea, if_true, if_neg hpass] at hempty
    omega

/-- In the current lane the reference is neither the current position nor the previous one (R201): it lies at least two and fewer
than LANELEN positions before the current one, going round. -/
theorem indexAlpha_same_ne {pass slice i q sg x : Nat} (hx : x < 2 ^ 32) (hq : q = 4 * sg) (hq32 : q < 2 ^ 32)
    (hslice : slice < 4) (hi : i < sg) (hfirst : firstIndex pass slice ≤ i) :
    indexAlpha pass slice i q sg true x ≠ lanePosition slice i sg ∧
      indexAlpha pass slice i q sg true x ≠ previousPosition slice i q sg := by
  rcases Nat.eq_zero_or_pos (referenceArea pass slice i q sg true) with hempty | hpos
  · obtain ⟨rfl, rfl, rfl, rfl⟩ := eq_of_referenceArea_same_empty hq hi hfirst hempty
    subst hq
    rw [indexAlpha_of_empty hempty]
    decide
  · obtain ⟨hlt, hend⟩ := referenceArea_same_end hq hslice hi hfirst
    have hj := lanePosition_lt hq hslice hi
    have hrel := relativePosition_lt hx hpos (by omega)
    unfold indexAlpha previousPosition
    generalize (relativePosition (referenceArea pass slice i q sg true) x).toNat = rel at hrel ⊢
    have hmod : (referenceStart pass slice sg + rel) % q = referenceStart pass slice sg + rel ∨
        (referenceStart pass slice sg + rel) % q + q = referenceStart pass slice sg + rel := by
      rcases Nat.lt_or_ge (referenceStart pass slice sg + rel) q with hstays | hwraps
      · exact .inl (Nat.mod_eq_of_lt hstays)
      · exact .inr (by rw [Nat.mod_eq_sub_mod hwraps, Nat.mod_eq_of_lt (by omega), Nat.sub_add_cancel hwraps])
    constructor
    · omega
    · split <;> omega

/-- A block number determines its lane and its position in the lane. -/
theorem lane_position_unique {q lane lane' x x' : Nat} (hx : x < q) (hx' : x' < q) (h : lane * q + x = lane' * q + x') :
    lane = lane' ∧ x = x' := by
  have hsplit {l y : Nat} (hy : y < q) : (l * q + y) / q = l ∧ (l * q + y) % q = y :=
    (Nat.div_mod_unique (by omega)).2 ⟨by rw [Nat.mul_comm q l, Nat.add_comm], hy⟩
  obtain ⟨hlane, hpos⟩ := hsplit (l := lane) hx
  obtain ⟨hlane', hpos'⟩ := hsplit (l := lane') hx'
  exact ⟨hlane.symm.trans (h ▸ hlane'), hpos.symm.trans (h ▸ hpos')⟩

section
variable {s : State} (h : Inv s) (ho : segmentOpen s = true)
include h ho

/-- The index of an open position is not below the first one of its segment (R190). -/
theorem firstIndex_le_agIndex : firstIndex s.agPass.toNat s.agSlice.toNat ≤ s.agIndex.toNat := by
  obtain ⟨hactive, -⟩ := h.segment
  obtain ⟨-, -, -, -, hlow, -⟩ := hactive (segmentOpen_iff.1 ho).1
  exact hlow

/-- A reference into the current lane is neither the current position nor the previous one (R201). -/
theorem stepRefIndex_ne_of_same_lane {pr : Word} (hsame : stepRefLane s pr = s.agLane.toNat) :
    stepRefIndex s pr ≠ lanePosition s.agSlice.toNat s.agIndex.toNat s.seglen.toNat ∧
      stepRefIndex s pr ≠ previousPosition s.agSlice.toNat s.agIndex.toNat s.lanelen.toNat s.seglen.toNat := by
  obtain ⟨hact, hopen⟩ := segmentOpen_iff.1 ho
  obtain ⟨-, hq, -⟩ := lane_shape_of_active h hact
  rw [stepRefIndex, decide_eq_true hsame]
  exact indexAlpha_same_ne (Nat.mod_lt _ (by decide)) hq s.lanelen.isLt s.agSlice.isLt hopen (firstIndex_le_agIndex h ho)

/-- The reference block is no block of the current lane at a position that a reference into that lane avoids. -/
theorem agStep_refBlk_ne {y : Nat} (hy : y < s.lanelen.toNat)
    (hne : ∀ pr, stepRefLane s pr = s.agLane.toNat → stepRefIndex s pr ≠ y) :
    (agStep s).refBlk.toNat ≠ s.agLane.toNat * s.lanelen.toNat + y := by
  rw [agStep_refBlk_toNat h ho, agStep_refLane_toNat h ho, agStep_refIndex_toNat h ho]
  intro heq
  obtain ⟨hlane, hindex⟩ := lane_position_unique (stepRefIndex_lt h ho _) hy heq
  exact hne _ hlane hindex

end

/-- Settles O54: a reference into another lane is in another lane's block, one into the current lane avoids both positions. -/
theorem referenceIsNeitherCurrentNorPrevious : Obligations.ReferenceIsNeitherCurrentNorPrevious := by
  intro s t h hact hopen he
  have ho := segmentOpen_iff.2 ⟨hact, hopen⟩
  cases (exec_agnext ho).symm.trans he
  have hj := stepPosition_lt h ho
  have hprev : (agStep s).prevBlk.toNat = s.agLane.toNat * s.lanelen.toNat +
      previousPosition s.agSlice.toNat s.agIndex.toNat s.lanelen.toNat s.seglen.toNat :=
    (agStep_prevBlk_toNat h ho).trans (previousBlock_eq (by omega) ..)
  have hlt : previousPosition s.agSlice.toNat s.agIndex.toNat s.lanelen.toNat s.seglen.toNat < s.lanelen.toNat := by
    unfold previousPosition
    split <;> omega
  refine ⟨BitVec.toNat_ne.2 ?_, BitVec.toNat_ne.2 ?_⟩
  · rw [complete_curBlk, agStep_curBlk_toNat h ho]
    exact agStep_refBlk_ne h ho hj fun _ hsame => (stepRefIndex_ne_of_same_lane h ho hsame).1
  · rw [complete_prevBlk, hprev]
    exact agStep_refBlk_ne h ho hlt fun _ hsame => (stepRefIndex_ne_of_same_lane h ho hsame).2

/-! ### PRAND (R194, R197) -/

/-- When a refill is due (R197). -/
theorem needsRefill_iff {s : State} (hind : s.status.agind = true) :
    needsRefill s = true ↔ s.ag.abv = false ∨ s.agIndex.toNat % 128 = 0 := by
  simp [needsRefill, hind]

theorem refillIfDue_of_dependent {s : State} (hind : s.status.agind = false) : refillIfDue s = s :=
  if_neg (by simp [needsRefill, hind])

/-- In the data-dependent mode PRAND is word 0 of the previous block (R197). -/
theorem agStep_prand_of_dependent {s : State} (hind : s.status.agind = false) (hprev : stepPrevious s < s.arenaBlocks) :
    (agStep s).prand = arenaRead s (128 * stepPrevious s) := by
  rw [agStep_prand, refillIfDue_of_dependent hind, pseudoRand, hind]
  exact blockRead_get s (stepPrevious s) 0 hprev

/-- In the data-independent mode PRAND is the position's word of the address block (R197). -/
theorem agStep_prand_of_independent {s : State} (hind : s.status.agind = true) :
    (agStep s).prand = (agStep s).ag.ab.get ⟨s.agIndex.toNat % 128, Nat.mod_lt _ (by decide)⟩ := by
  simp only [agStep_prand, pseudoRand, refillIfDue_status, hind, if_true, refillIfDue_agIndex, agStep_ag]

/-- The data-independent mode is a mode of an active segment (R191). -/
theorem agact_of_agind {s : State} (h : Inv s) (hind : s.status.agind = true) : s.status.agact = true := by
  obtain ⟨-, hidle, -⟩ := h.segment
  cases hact : s.status.agact with
  | true => rfl
  | false => rw [hidle hact] at hind; cases hind

/-- The address block of the position's group of 128, from the configuration and the position alone (R193, R194). -/
def positionAddresses (s : State) : Block :=
  compressG zeroBlock (compressG zeroBlock
    (initInputBlock (s.agPass.setWidth 64) (s.agLane.setWidth 64) (s.agSlice.setWidth 64)
      { s with agCtr := BitVec.ofNat 64 (s.agIndex.toNat / 128 + 1) }))

/-- After AGNEXT the address block is the one of the position's group, whatever was there before (R203). -/
theorem agStep_ab_of_independent {s : State} (h : Inv s) (hind : s.status.agind = true) :
    (agStep s).ag.ab = positionAddresses s := by
  have hctr : (refillIfDue s).agCtr = BitVec.ofNat 64 (s.agIndex.toNat / 128 + 1) :=
    BitVec.eq_of_toNat_eq (by
      have := s.agIndex.isLt
      rw [refillIfDue_agCtr h.segment hind, toNat_ofNat_of_lt (by omega)])
  obtain ⟨-, -, hib, hab, -, -⟩ := h.segment
  rw [agStep_ag, refillIfDue_ab hab (refillIfDue_abv hind), refillIfDue_ib (hib hind), initInputBlock, hctr,
    refillIfDue_mprime, refillIfDue_actT, refillIfDue_actY]
  rfl

/-- Settles O56: PRAND is a word of `positionAddresses`, and the reference is a function of PRAND, the configuration and the
position. -/
theorem dataIndependentAddressesIgnoreTheArena : Obligations.DataIndependentAddressesIgnoreTheArena := by
  intro s s' t t' h h' hind hind' hopen hp ht hy hm hq hsg hr hsl hl hi he he'
  have hopen' : s'.agIndex.toNat < s'.seglen.toNat := hi ▸ hsg ▸ hopen
  cases (exec_agnext (segmentOpen_iff.2 ⟨agact_of_agind h hind, hopen⟩)).symm.trans he
  cases (exec_agnext (segmentOpen_iff.2 ⟨agact_of_agind h' hind', hopen'⟩)).symm.trans he'
  have haddr : positionAddresses s = positionAddresses s' := by
    simp only [positionAddresses, initInputBlock, hr, hl, hsl, hm, ht, hy, hi]
  have hprand : (agStep s).prand = (agStep s').prand := by
    simp only [agStep_prand_of_independent hind, agStep_prand_of_independent hind', agStep_ab_of_independent h hind,
      agStep_ab_of_independent h' hind', haddr, hi]
  have hlane (pr : Word) : stepRefLane s pr = stepRefLane s' pr := by
    simp only [stepRefLane, hr, hsl, hl, hp]
  have hindex (pr : Word) : stepRefIndex s pr = stepRefIndex s' pr := by
    simp only [stepRefIndex, hlane, hr, hsl, hi, hq, hsg, hl]
  simp only [complete_prand, complete_refLane, complete_refIndex, complete_refBlk, agStep_refLane, agStep_refIndex,
    agStep_refBlk, hprand, hlane, hindex, hq, and_self]

/-- A due refill takes the next counter, writes it into the input block and computes the address block from it; otherwise the
hidden blocks stay (R194, R197). -/
theorem agStep_ag_of_independent {s : State} (hind : s.status.agind = true) :
    if s.ag.abv = false ∨ s.agIndex.toNat % 128 = 0 then
      (agStep s).agCtr = s.agCtr + 1 ∧ (agStep s).ag.ib = s.ag.ib.set 6 (agStep s).agCtr ∧
        (agStep s).ag.ab = compressG zeroBlock (compressG zeroBlock (agStep s).ag.ib) ∧ (agStep s).ag.abv = true
    else (agStep s).ag = s.ag ∧ (agStep s).agCtr = s.agCtr := by
  simp only [agStep_ag, agStep_agCtr, refillIfDue]
  split
  · next hdue =>
    rw [if_pos ((needsRefill_iff hind).2 hdue)]
    exact ⟨rfl, rfl, rfl, rfl⟩
  · next hdue =>
    rw [if_neg (hdue ∘ (needsRefill_iff hind).1)]
    exact ⟨rfl, rfl⟩

/-- Settles O51: each register is one of the equations above. -/
theorem agnextDerivesTheReference : Obligations.AgnextDerivesTheReference := by
  intro s h hact hopen i r sl l q sg j
  have ho := segmentOpen_iff.2 ⟨hact, hopen⟩
  have hprev := agStep_prevBlk_toNat h ho
  obtain ⟨-, -, hfit⟩ := step_blocks_lt_arenaBlocks h ho
  refine ⟨complete (agStep s), exec_agnext ho, agStep_curBlk_toNat h ho, hprev, fun hind => ⟨?_, ?_, ?_⟩,
    fun hind => ⟨agStep_prand_of_independent hind, agStep_ag_of_independent hind⟩, agStep_refLane_toNat h ho, ?_,
    agStep_refBlk_toNat h ho, agStep_agIndex_toNat hopen, ?_⟩
  · rw [complete_prevBlk, hprev]
    exact agStep_prand_of_dependent hind (hprev ▸ hfit)
  · rw [complete_ag, agStep_ag, refillIfDue_of_dependent hind]
  · rw [complete_agCtr, agStep_agCtr, refillIfDue_of_dependent hind]
  · simp only [complete_refIndex, complete_refLane, agStep_refLane_toNat h ho]
    exact agStep_refIndex_toNat h ho
  · exact congrArg complete (agStep_eq s)

/-! ### FILLSTEP (R201) -/

theorem exec_fillstep {s : State} (ho : segmentOpen s = true) : exec .fillstep s = .next (complete (fillBody s)) :=
  exec_of_ok (if_pos ho)

/-- The state whose block operands are the blocks that AGNEXT has named (R201). -/
def stepOperands (s : State) : State :=
  { s with opa := s.curBlk.setWidth 64, opb := s.refBlk.setWidth 64, opc := s.prevBlk.setWidth 64 }

/-- A 32-bit register as a block operand (R93). -/
theorem operand_toNat (x : BitVec 32) : (x.setWidth 64).toNat = x.toNat := BitVec.toNat_setWidth_of_le (by decide)

/-- With the named blocks as operands GCMP does the compression of the step (R201). -/
theorem exec_gcmp_stepOperands {s : State} (hcur : s.curBlk.toNat < s.arenaBlocks) (href : s.refBlk.toNat < s.arenaBlocks)
    (hprev : s.prevBlk.toNat < s.arenaBlocks) :
    ∃ v, exec (.gcmp false) (stepOperands s) = .next v ∧ v.arena = (compressStep s).arena := by
  refine ⟨_, exec_gcmp false ?_ ?_ ?_, ?_⟩
  · exact (operand_toNat _).trans_lt hcur
  · exact (operand_toNat _).trans_lt href
  · exact (operand_toNat _).trans_lt hprev
  · have hread (b : Nat) : blockRead (stepOperands s) b = blockRead s b := rfl
    have hopa : (stepOperands s).opa.toNat = s.curBlk.toNat := operand_toNat _
    have hopb : (stepOperands s).opb.toNat = s.refBlk.toNat := operand_toNat _
    have hopc : (stepOperands s).opc.toNat = s.prevBlk.toNat := operand_toNat _
    rw [gcmpBlock, hread, hread, hread, hopa, hopb, hopc, complete_arena, compressStep, blockWrite_of_lt hcur,
      blockWrite_of_lt (s := stepOperands s) hcur]
    rfl

theorem blockWrite_complete (s : State) (b : Nat) (B : Block) :
    blockWrite (complete s) b B = complete (blockWrite s b B) := by
  show (if b < s.arenaBlocks then _ else _) = complete (if b < s.arenaBlocks then _ else _)
  split <;> rfl

theorem compressStep_complete (s : State) : compressStep (complete s) = complete (compressStep s) :=
  blockWrite_complete ..

/-- The compression of a step changes the arena alone (R201). -/
theorem compressStep_eq (s : State) : compressStep s = { s with arena := (compressStep s).arena } := blockWrite_eq ..

/-- A fill step leaves every byte outside the current block (R201). -/
theorem memByte_fillBody {s : State} (h : Inv s) (ho : segmentOpen s = true) {a : Nat}
    (ha : ¬(1024 * (agStep s).curBlk.toNat ≤ a ∧ a < 1024 * (agStep s).curBlk.toNat + 1024)) :
    memByte (fillBody s).arena a = memByte s.arena a := by
  obtain ⟨-, hcur, -⟩ := step_blocks_lt_arenaBlocks h ho
  rw [fillBody, compressStep, memByte_blockWrite_outside (by rwa [agStep_arenaBlocks]) ha, agStep_arena]

/-- Settles O57: FILLSTEP's compression is GCMP's on the blocks that AGNEXT named, and it stores the current block alone. -/
theorem fillstepIsAgnextThenGcmp : Obligations.FillstepIsAgnextThenGcmp := by
  intro s h hact hopen
  have ho := segmentOpen_iff.2 ⟨hact, hopen⟩
  obtain ⟨href, hcur, hprev⟩ := step_blocks_lt_arenaBlocks h ho
  rw [← agStep_arenaBlocks] at href hcur hprev
  obtain ⟨v, hv, harena⟩ := exec_gcmp_stepOperands (s := complete (agStep s)) hcur href hprev
  refine ⟨_, v, _, exec_agnext ho, hv, exec_fillstep ho, ?_, fun a ha => memByte_fillBody h ho ha⟩
  rw [harena, compressStep_complete]
  exact congrArg complete (compressStep_eq (agStep s))

/-! ### FILLSEG (R202) -/

theorem exec_fillseg {s : State} (hact : s.status.agact = true) :
    exec .fillseg s = .next (complete (fillLoop (s.seglen.toNat - s.agIndex.toNat) s)) :=
  exec_of_ok (if_pos hact)

/-- The address generator neither reads nor writes the report that the end of a command changes (R24). -/
theorem agStep_complete (s : State) : agStep (complete s) = complete (agStep s) := by
  have hrefill : refillIfDue (complete s) = complete (refillIfDue s) := by
    show (if needsRefill s then _ else _) = complete (if needsRefill s then _ else _)
    split <;> rfl
  simp only [agStep, hrefill]
  rfl

theorem fillBody_complete (s : State) : fillBody (complete s) = complete (fillBody s) := by
  rw [fillBody, agStep_complete, compressStep_complete, fillBody]

theorem fillLoop_complete (fuel : Nat) (s : State) : fillLoop fuel (complete s) = complete (fillLoop fuel s) := by
  induction fuel generalizing s with
  | zero => rfl
  | succ fuel ih =>
    show (if s.agIndex.toNat < s.seglen.toNat then _ else _) = complete (if s.agIndex.toNat < s.seglen.toNat then _ else _)
    split
    · rw [fillBody_complete, ih]
    · rfl

/-- The next position of an open segment (R201). -/
theorem fillBody_agIndex_toNat {s : State} (hopen : s.agIndex.toNat < s.seglen.toNat) :
    (fillBody s).agIndex.toNat = s.agIndex.toNat + 1 := by
  rw [fillBody_agIndex, ← agStep_agIndex, agStep_agIndex_toNat hopen]

/-- On an open segment the loop is a fill step, then the loop with the fuel that FILLSEG gives it there (R202). -/
theorem fillLoop_of_open {s : State} (hopen : s.agIndex.toNat < s.seglen.toNat) :
    fillLoop (s.seglen.toNat - s.agIndex.toNat) s =
      fillLoop ((fillBody s).seglen.toNat - (fillBody s).agIndex.toNat) (fillBody s) := by
  rw [fillBody_seglen, fillBody_agIndex_toNat hopen,
    show s.seglen.toNat - s.agIndex.toNat = s.seglen.toNat - (s.agIndex.toNat + 1) + 1 by omega, fillLoop, if_pos hopen]

/-- FILLSEG's fuel is enough: the loop ends at the end of the segment (R202). -/
theorem fillLoop_agIndex {s : State} (hle : s.agIndex.toNat ≤ s.seglen.toNat) :
    (fillLoop (s.seglen.toNat - s.agIndex.toNat) s).agIndex = s.seglen := by
  induction hn : s.seglen.toNat - s.agIndex.toNat generalizing s with
  | zero => exact BitVec.eq_of_toNat_eq (by show s.agIndex.toNat = _; omega)
  | succ n ih =>
    have hopen : s.agIndex.toNat < s.seglen.toNat := by omega
    have hidx := fillBody_agIndex_toNat hopen
    rw [fillLoop, if_pos hopen, ih (by rw [hidx, fillBody_seglen]; omega) (by rw [hidx, fillBody_seglen]; omega),
      fillBody_seglen]

theorem fillLoop_status (fuel : Nat) (s : State) : (fillLoop fuel s).status = s.status :=
  (congrArg State.status (dropFill_fillLoop fuel s) :)

theorem fillLoop_seglen (fuel : Nat) (s : State) : (fillLoop fuel s).seglen = s.seglen :=
  (congrArg State.seglen (dropFill_fillLoop fuel s) :)

/-- Settles O58: the loop does a fill step first, and the end of FILLSTEP in between changes nothing that it reads. -/
theorem fillsegRepeatsFillstep : Obligations.FillsegRepeatsFillstep := by
  intro s hact
  refine ⟨fun hend => ?_, fun hopen => ⟨complete (fillBody s), _, exec_fillstep (segmentOpen_iff.2 ⟨hact, hopen⟩),
    fillBody_agIndex_toNat hopen, ?_, exec_fillseg hact, fillLoop_agIndex hopen.le, ?_⟩⟩
  · rw [exec_fillseg hact, Nat.sub_eq_zero_of_le hend]
    rfl
  · rw [exec_fillseg (by rw [complete_agact, fillBody_status, hact]), fillLoop_complete, complete_seglen, complete_agIndex,
      ← fillLoop_of_open hopen]
    rfl
  · simp only [agEnd, complete_agact, complete_seglen, complete_agIndex, fillLoop_status, fillLoop_seglen, hact,
      fillLoop_agIndex hopen.le, le_refl, decide_true, Bool.and_self]

/-- FILLSEG's loop leaves every byte outside the blocks of its segment (R202). -/
theorem memByte_fillLoop {s : State} (h : Inv s) (hact : s.status.agact = true) (fuel : Nat) {a : Nat}
    (ha : a / 1024 ∉ segmentBlocks s.lanelen.toNat s.seglen.toNat s.agLane.toNat s.agSlice.toNat) :
    memByte (fillLoop fuel s).arena a = memByte s.arena a := by
  induction fuel generalizing s with
  | zero => rfl
  | succ fuel ih =>
    rw [fillLoop]
    split
    · next hopen =>
      have ho := segmentOpen_iff.2 ⟨hact, hopen⟩
      have hne : a / 1024 ≠ (agStep s).curBlk.toNat := fun heq => ha (heq ▸ curBlk_mem_segment h ho)
      rw [ih (h.fillBody ho) (by rw [fillBody_status, hact])
        (by rw [fillBody_lanelen, fillBody_seglen, fillBody_agLane, fillBody_agSlice]; exact ha)]
      exact memByte_fillBody h ho (by omega)
    · rfl

/-- Settles O59: every fill step of FILLSEG stores a block of the segment. -/
theorem fillsegWritesOnlyItsSegment : Obligations.FillsegWritesOnlyItsSegment := by
  intro s h hact
  refine ⟨_, exec_fillseg hact, fun a ha => memByte_fillLoop h hact _ ?_⟩
  rw [segmentBlocks, Set.mem_Ico]
  omega

end Sys2Proof.Machine

/-! PROOFS. The control commands: O29 to O32. NOP, SCRUB and WIPE answer one explicit state; CFG answers one of two, by the exact
condition `CfgAccepted`. -/

namespace Sys2Proof.Machine

/-! ### NOP and SCRUB (46_control.md R220, R223) -/

/-- Settles O29: NOP's computation is the state itself, so only the completion is left. -/
theorem nopOnlyCompletes : Obligations.NopOnlyCompletes := fun _ => exec_of_ok rfl

section
variable (s : State)

theorem exec_scrub : exec .scrub s = .next (complete (scrubRegs s)) := exec_of_ok rfl

theorem scrubRegs_msg_get (k : Fin 16) : (scrubRegs s).msg.get k = 0#64 := Vector.getElem_replicate _

theorem scrubRegs_digest_get (k : Fin 8) : (scrubRegs s).digest.get k = 0#64 := Vector.getElem_replicate _

end

/-- Settles O30. -/
theorem scrubZeroesMessageAndDigest : Obligations.ScrubZeroesMessageAndDigest := fun s =>
  ⟨_, exec_scrub s, scrubRegs_msg_get s, scrubRegs_digest_get s, rfl, rfl⟩

/-! ### WIPE (46_control.md R221) -/

/-- In canonical form every listed byte lies inside the arena, so the wiped arena lists none. -/
theorem wipeArena_arena_of_arenaInv {s : State} (h : ArenaInv s) : (wipeArena s).arena = [] := by
  rw [wipeArena_arena, List.filter_eq_nil_iff]
  intro c hc
  have hin : c.1 < arenaBytes s := ((memWf_iff.1 h).2 c hc).2
  simpa using hin

/-- An arena that lists no byte reads 0 everywhere (assumption log 2). -/
theorem arenaRead_of_arena_nil {s : State} (h : s.arena = []) (a : Nat) : arenaRead s a = 0#64 := by
  have hbytes : memBytes s.arena (8 * a) 8 = zeroBytes 8 := by rw [h]; rfl
  rw [arenaRead, hbytes]
  exact ite_self _

theorem exec_wipe (s : State) :
    exec .wipe s = .next (complete (wipeAddrGen (wipeCtx (scrubRegs (wipeArena s))))) := exec_of_ok rfl

/-- Settles O31: the arena by its canonical form, the registers as under SCRUB. -/
theorem wipeZeroesArenaAndHashingState : Obligations.WipeZeroesArenaAndHashingState := by
  intro s h
  have hnil := wipeArena_arena_of_arenaInv h
  exact ⟨_, exec_wipe s, fun a _ => arenaRead_of_arena_nil hnil a, hnil, scrubRegs_msg_get (wipeArena s),
    scrubRegs_digest_get (wipeArena s), rfl⟩

/-! ### CFG (46_control.md R222, 00_scope.md R9) -/

/-- The configuration registers pass all the checks of CFG. -/
def CfgAccepted (s : State) : Prop :=
  1 ≤ s.cfgP.toNat ∧ 1 ≤ s.cfgT.toNat ∧ s.cfgY.toNat ≤ 2 ∧ 4 * s.cfgP.toNat ≤ s.cfgM.toNat ∧
    configBlocks s.cfgP.toNat s.cfgM.toNat ≤ s.arenaBlocks

section
variable {s : State}

theorem exec_cfg_of_accepted (h : CfgAccepted s) :
    exec .cfg s =
      .next (complete (latchConfig s.cfgP s.cfgT s.cfgY (configBlocks s.cfgP.toNat s.cfgM.toNat) s)) := by
  obtain ⟨hp, ht, hy, hlow, hfit⟩ := h
  apply exec_of_ok
  rw [commandResult, cmdCfg, if_neg (by omega), if_neg (by omega), if_neg (by omega)]

/-- Whichever check fails, the error is CONFIG. -/
theorem exec_cfg_of_not_accepted (h : ¬CfgAccepted s) : exec .cfg s = .next (raiseError .config s) := by
  apply exec_of_error
  rw [commandResult, cmdCfg]
  split
  · rfl
  · next hrange =>
    split
    · rfl
    · next hlow =>
      refine if_pos (Nat.lt_of_not_le fun hfit => h ⟨?_, ?_, ?_, ?_, hfit⟩) <;> omega

end

/-- MPRIME is at most the requested size, so it and its quotients fit their registers. -/
theorem latchConfig_numbers (p t m : BitVec 32) (y : BitVec 2) (s : State) :
    let mp := configBlocks p.toNat m.toNat
    let u := latchConfig p t y mp s
    u.mprime.toNat = mp ∧ u.lanelen.toNat = mp / p.toNat ∧ u.seglen.toNat = mp / (4 * p.toNat) := by
  have hmp : configBlocks p.toNat m.toNat < 2 ^ 32 := (configBlocks_le _ _).trans_lt m.isLt
  have hquot (d : Nat) : configBlocks p.toNat m.toNat / d < 2 ^ 32 := (Nat.div_le_self _ d).trans_lt hmp
  exact ⟨toNat_ofNat_of_lt hmp, toNat_ofNat_of_lt (hquot _), toNat_ofNat_of_lt (hquot _)⟩

/-- Settles O32: the two cases of `CfgAccepted`, whose `configBlocks` is the number MPRIME of R9. -/
theorem cfgValidatesAndLatches : Obligations.CfgValidatesAndLatches := by
  refine fun s => ⟨fun h => ?_, fun h => exec_cfg_of_not_accepted h⟩
  obtain ⟨hmprime, hlanelen, hseglen⟩ := latchConfig_numbers s.cfgP s.cfgT s.cfgM s.cfgY s
  exact ⟨_, exec_cfg_of_accepted h, hmprime, hlanelen, hseglen, rfl⟩

end Sys2Proof.Machine

/-! PROOFS. The error reports and the interrupt: O8 to O11 and O16. A command's checks are nested conditionals: the codes they can
raise are read off that nesting once, and each cause of 60_exceptions.md R231 is one equation for the command that it rejects. -/

namespace Sys2Proof.Machine

/-! ### The codes a command can raise (60_exceptions.md R231, R234) -/

/-- The computation raises neither BUSY, the code of a refused issue, nor ILLEGAL, the code of a word that is no command. -/
def RaisesCommandCodes (r : Except CmdError State) : Prop := ∀ c, r = .error c → c ≠ .busy ∧ c ≠ .illegal

namespace RaisesCommandCodes

theorem ok (s : State) : RaisesCommandCodes (.ok s) := nofun

theorem sequence : RaisesCommandCodes (.error .sequence) := by rintro _ ⟨⟩; decide

theorem config : RaisesCommandCodes (.error .config) := by rintro _ ⟨⟩; decide

theorem range : RaisesCommandCodes (.error .range) := by rintro _ ⟨⟩; decide

theorem ite {p : Prop} [Decidable p] {r r' : Except CmdError State} (h : RaisesCommandCodes r)
    (h' : RaisesCommandCodes r') : RaisesCommandCodes (if p then r else r') := by
  split
  · exact h
  · exact h'

end RaisesCommandCodes

/-- Each command's checks, in their order. -/
theorem commandResult_raisesCommandCodes (s : State) (i : Instr) : RaisesCommandCodes (commandResult s i) := by
  cases i with
  | nop | wipe | scrub => exact .ok _
  | cfg => exact .ite .config (.ite .config (.ite .config (.ok _)))
  | bzero | bxor | gcmp => exact .ite (.ok _) .range
  | b2init | hpinit => exact .ite .config (.ok _)
  | b2upd | agseg => exact .ite (.ite .range (.ok _)) .sequence
  | b2updb | hpfin => exact .ite (.ite (.ok _) .range) .sequence
  | b2updd | b2fin | agnext | fillstep | fillseg => exact .ite (.ok _) .sequence

/-! ### Completion or rejection (60_exceptions.md R233, R236) -/

/-- No command's own effect touches an earlier error report (R236). -/
theorem withWritten_errorReport (i : Instr) (t s : State) :
    (withWritten i t s).status.err = s.status.err ∧ (withWritten i t s).status.errCode = s.status.errCode := by
  cases i <;> exact ⟨rfl, rfl⟩

theorem commandResult_errorReport {i : Instr} {s t : State} (hr : commandResult s i = .ok t) :
    t.status.err = s.status.err ∧ t.status.errCode = s.status.errCode := by
  rw [commandResult_written hr]
  exact withWritten_errorReport i t s

/-- Settles O8: a computation that succeeds is completed, one that fails is reported on the state before it. -/
theorem everyCommandCompletesOrIsRejectedPrecisely : Obligations.EveryCommandCompletesOrIsRejectedPrecisely := by
  refine ⟨fun i s => ?_, fun s => engineStep_of_illegal⟩
  cases hr : commandResult s i with
  | ok t =>
    obtain ⟨herr, hcode⟩ := commandResult_errorReport hr
    exact ⟨complete t, exec_of_ok hr, rfl, .inl ⟨rfl, herr, hcode⟩⟩
  | error c =>
    obtain ⟨hbusy, hillegal⟩ := commandResult_raisesCommandCodes s i c hr
    exact ⟨raiseError c s, exec_of_error hr, rfl, .inr ⟨c, hbusy, hillegal, rfl⟩⟩

section
variable {s : State}

/-! ### SEQUENCE: the state of the engine (60_exceptions.md R231) -/

theorem not_contextOpen_of_idle (h : s.status.b2mode = .idle) : ¬contextOpen s = true := by simp [contextOpen, h]

theorem not_segmentOpen (h : s.status.agact = false ∨ s.seglen.toNat ≤ s.agIndex.toNat) : ¬segmentOpen s = true := by
  rw [segmentOpen_iff]
  rintro ⟨hact, hopen⟩
  rcases h with h | h
  · exact Bool.false_ne_true (h.symm.trans hact)
  · exact hopen.not_ge h

/-- The three absorb commands need an open context (41_blake2b.md R123). -/
theorem exec_absorb_sequence (h : s.status.b2mode = .idle) (len : Nat) :
    exec (.b2upd len) s = .next (raiseError .sequence s) ∧ exec .b2updb s = .next (raiseError .sequence s) ∧
      exec .b2updd s = .next (raiseError .sequence s) :=
  have hclosed := not_contextOpen_of_idle h
  ⟨exec_of_error (if_neg hclosed), exec_of_error (if_neg hclosed), exec_of_error (if_neg hclosed)⟩

theorem exec_b2fin_sequence (h : s.status.b2mode ≠ .plain) : exec .b2fin s = .next (raiseError .sequence s) :=
  exec_of_error (if_neg h)

theorem exec_hpfin_sequence (h : s.status.b2mode ≠ .hprime) : exec .hpfin s = .next (raiseError .sequence s) :=
  exec_of_error (if_neg h)

theorem exec_agseg_sequence (h : s.status.cfgv = false) : exec .agseg s = .next (raiseError .sequence s) :=
  exec_of_error (if_neg (ne_true_of_eq_false h))

/-- The two commands of one position need an open one (45_addrgen.md R195, R201). -/
theorem exec_position_sequence (h : s.status.agact = false ∨ s.seglen.toNat ≤ s.agIndex.toNat) :
    exec .agnext s = .next (raiseError .sequence s) ∧ exec .fillstep s = .next (raiseError .sequence s) :=
  have hclosed := not_segmentOpen h
  ⟨exec_of_error (if_neg hclosed), exec_of_error (if_neg hclosed)⟩

theorem exec_fillseg_sequence (h : s.status.agact = false) : exec .fillseg s = .next (raiseError .sequence s) :=
  exec_of_error (if_neg (ne_true_of_eq_false h))

/-! ### CONFIG: the parameters (60_exceptions.md R231) -/

theorem exec_b2init_config {nn kk : Nat} (h : nn = 0 ∨ 64 < nn ∨ 64 < kk) :
    exec (.b2init nn kk) s = .next (raiseError .config s) :=
  exec_of_error (if_pos (by omega))

theorem exec_hpinit_config {t : Nat} (h : t = 0 ∨ 1024 < t) : exec (.hpinit t) s = .next (raiseError .config s) :=
  exec_of_error (if_pos (by omega))

/-- Every cause of CFG's error breaks `CfgAccepted` (46_control.md R222). -/
theorem exec_cfg_config
    (h : s.cfgP.toNat = 0 ∨ s.cfgT.toNat = 0 ∨ s.cfgY.toNat = 3 ∨ s.cfgM.toNat < 4 * s.cfgP.toNat ∨
      s.arenaBlocks < configBlocks s.cfgP.toNat s.cfgM.toNat) :
    exec .cfg s = .next (raiseError .config s) := by
  apply exec_cfg_of_not_accepted
  rintro ⟨hp, ht, hy, hlow, hfit⟩
  omega

/-! ### RANGE: the operands, the full 64-bit value (60_exceptions.md R231, 20_memory.md R68) -/

theorem not_blockInRange {operand : Word} (h : s.arenaBlocks ≤ operand.toNat) : ¬blockInRange s operand = true :=
  fun hin => (blockInRange_iff.1 hin).not_ge h

theorem exec_b2upd_range {len : Nat} (hopen : s.status.b2mode ≠ .idle) (hlen : 128 < len) :
    exec (.b2upd len) s = .next (raiseError .range s) :=
  exec_of_error ((if_pos (contextOpen_of_ne_idle hopen)).trans (if_pos hlen))

theorem exec_b2updb_range (hopen : s.status.b2mode ≠ .idle) (hopa : s.arenaBlocks ≤ s.opa.toNat) :
    exec .b2updb s = .next (raiseError .range s) :=
  exec_of_error ((if_pos (contextOpen_of_ne_idle hopen)).trans (if_neg (not_blockInRange hopa)))

theorem exec_hpfin_range (hopen : s.status.b2mode = .hprime) (hopa : s.arenaBlocks ≤ s.opa.toNat) :
    exec .hpfin s = .next (raiseError .range s) :=
  exec_of_error ((if_pos hopen).trans (if_neg (not_blockInRange hopa)))

theorem exec_agseg_range (hcfg : s.status.cfgv = true)
    (h : s.actT.toNat ≤ s.opa.toNat ∨ 4 ≤ s.opb.toNat ∨ s.actP.toNat ≤ s.opc.toNat) :
    exec .agseg s = .next (raiseError .range s) :=
  exec_of_error ((if_pos hcfg).trans (if_pos h))

end

/-- Settles O9: no operand is looked at before the state of the engine is. -/
theorem sequenceErrorsComeFirst : Obligations.SequenceErrorsComeFirst := fun _ =>
  ⟨exec_absorb_sequence, exec_b2fin_sequence, exec_hpfin_sequence, exec_agseg_sequence, exec_position_sequence,
    exec_fillseg_sequence⟩

/-- Settles O10: the ranges of B2INIT and HPINIT are their only checks; MPRIME of R9 is `configBlocks`. -/
theorem configErrorsOfParameters : Obligations.ConfigErrorsOfParameters := fun _ =>
  ⟨fun _ _ => exec_b2init_config, fun _ => exec_hpinit_config, exec_cfg_config⟩

/-- Settles O11: the bound is the last check of each command. -/
theorem rangeErrorsOfOperands : Obligations.RangeErrorsOfOperands := fun _ =>
  ⟨exec_bzero_range, exec_bxor_range, fun w => exec_gcmp_range w, fun _ => exec_b2upd_range, exec_b2updb_range, exec_hpfin_range,
    exec_agseg_range⟩

/-! ### The interrupt level (60_exceptions.md R240) -/

section
variable (v : Word) (s : State)

/-- A write of CTRL sets the enable and keeps the pending conditions. -/
theorem irqLevel_writeCtrl :
    irqLevel (writeOffset 0x03 v s) = (v.getLsbD 0 && (s.status.done || s.status.err)) := rfl

/-- A write of STATUS leaves of each condition what its bit does not clear. -/
theorem irqLevel_writeStatus :
    irqLevel (writeOffset 0x02 v s) = (s.ie && (s.status.done && !v.getLsbD 1 || s.status.err && !v.getLsbD 2)) := by
  rw [writeOffset_of_regAt s v (r := .status) rfl, writeReg, writeStatus_eq, irqLevel]

/-- An accepted issue takes both conditions away (10_state.md R22). -/
theorem irqLevel_issue : irqLevel (issue v s) = false := by simp [irqLevel]

end

/-- Settles O16: the level after a write of CTRL, of STATUS and of CMD. -/
theorem interruptFollowsItsEnableAndCauses : Obligations.InterruptFollowsItsEnableAndCauses := by
  refine fun s => ⟨irqLevel_iff, ?_, ?_, ⟨?_, rfl⟩, ?_, fun hidle v => ?_⟩
  · obtain ⟨-, -, -, -, -, -, -, -, -, -, hirq, -⟩ := statusWord_fields s
    exact hirq
  · exact (irqLevel_writeCtrl 1#64 s).trans (Bool.true_and _)
  · exact (irqLevel_writeCtrl 0#64 s).trans (Bool.false_and _)
  · rw [irqLevel_writeStatus]
    simp
  · rw [writeOffset_of_regAt s v (r := .cmd) rfl, writeReg, writeCmd_of_idle hidle, irqLevel_issue]

end Sys2Proof.Machine

/-! PROOFS. The restriction on host accesses while BUSY = 1, and the arena after a reset: O20 and O25. -/

namespace Sys2Proof.Machine

/-! ### The only fault (70_reset_and_hazards.md R270) -/

/-- The map of offsets as one equation: each register has one offset (R52). -/
theorem regAt_eq_some_iff {off : Nat} {r : Reg} : regAt off = some r ↔ off = regOffset r :=
  ⟨eq_regOffset_of_regAt, fun h => h ▸ regAt_regOffset r⟩

/-- The accesses that R270 leaves undefined while BUSY = 1, as offsets: all but the six that it lists. -/
theorem allowedWhileBusy_eq_false_iff (op : BusOp) :
    allowedWhileBusy op = false ↔
      op ≠ .readReg 0x00 ∧ op ≠ .readReg 0x02 ∧ op ≠ .readReg 0x03 ∧
      ∀ v, op ≠ .writeReg 0x01 v ∧ op ≠ .writeReg 0x02 v ∧ op ≠ .writeReg 0x03 v := by
  cases op with
  | readReg off => simp [allowedWhileBusy, regAt_eq_some_iff, regOffset]
  | writeReg off v => simp [allowedWhileBusy, regAt_eq_some_iff, regOffset, forall_and, and_left_comm, and_comm]
  | readArena a => simp [allowedWhileBusy]
  | writeArena a v => simp [allowedWhileBusy]

theorem hostAccess_of_undefined {s : State} {op : BusOp} (hb : s.status.busy = true) (hop : allowedWhileBusy op = false) :
    hostAccess op s = .fault (.accessWhileBusy op) := by
  rw [hostAccess, hb, hop]; rfl

/-- A step faults at an undefined host access while BUSY = 1 and nowhere else. -/
theorem step_eq_fault_iff {s : State} {r : Fault} :
    step s = .fault r ↔
      ∃ op rest, s.turns = .host op :: rest ∧ s.status.busy = true ∧ r = .accessWhileBusy op ∧
        allowedWhileBusy op = false := by
  constructor
  · intro hr
    rcases step_cases s with ⟨t, ht⟩ | ⟨op, rest, hturns, hb, hop, hf⟩
    · rw [ht] at hr; cases hr
    · rw [hf] at hr; cases hr
      exact ⟨op, rest, hturns, hb, rfl, hop⟩
  · rintro ⟨op, rest, hturns, hb, rfl, hop⟩
    exact (step_of_host hturns).trans (hostAccess_of_undefined (s := { s with turns := rest }) hb hop)

/-- Settles O20: the access that faults is one that `allowedWhileBusy` does not list. -/
theorem onlyUndefinedAccessesWhileBusyFault : Obligations.OnlyUndefinedAccessesWhileBusyFault := by
  intro s r
  simp only [step_eq_fault_iff, allowedWhileBusy_eq_false_iff]

/-! ### The arena that a reset draws (70_reset_and_hazards.md R262) -/

/-- A byte stored above every listed address is listed last. -/
theorem memWrite_singleton_of_above {m : List Host.Cell} {c : Host.Cell} (habove : ∀ d ∈ m, d.1 < c.1)
    (hc : c.2 ≠ unlisted c.1) : memWrite m c.1 [c.2] = m ++ [c] := by
  have hlow : m.filter (fun d => decide (d.1 < c.1)) = m := List.filter_eq_self.2 fun d hd => decide_eq_true (habove d hd)
  have hhigh : m.filter (fun d => decide (c.1 + [c.2].length ≤ d.1)) = [] :=
    List.filter_eq_nil_iff.2 fun d hd => by
      have := habove d hd
      simp only [List.length_singleton, decide_eq_true_eq]
      omega
  rw [memWrite, hlow, hhigh, cellsFrom, if_neg hc, cellsFrom, List.append_nil]

/-- The last byte of a draw is stored last. -/
theorem drawArena_concat {blocks : Nat} (draw : List Host.Cell) {c : Host.Cell} (hc : c.1 < 1024 * blocks) :
    drawArena blocks (draw ++ [c]) = memWrite (drawArena blocks draw) c.1 [c.2] := by
  rw [drawArena, List.foldl_concat, if_pos hc, drawArena]

/-- A memory in canonical form inside the arena, taken as a draw, is the arena that is drawn. -/
theorem drawArena_of_memWf {blocks : Nat} {m : List Host.Cell} (h : memWf (1024 * blocks) m = true) :
    drawArena blocks m = m := by
  induction m using List.reverseRecOn with
  | nil => rfl
  | append_singleton m c ih =>
    obtain ⟨hsorted, hcells⟩ := memWf_iff.1 h
    obtain ⟨hm, -, habove⟩ := List.pairwise_append.1 hsorted
    obtain ⟨hlisted, hlt⟩ := hcells c List.mem_concat_self
    have hwf : memWf (1024 * blocks) m = true := memWf_iff.2 ⟨hm, fun d hd => hcells d (List.mem_append_left [c] hd)⟩
    rw [drawArena_concat m hlt, ih hwf,
      memWrite_singleton_of_above (fun d hd => habove d hd c (List.mem_singleton_self c)) hlisted]

/-- Settles O25: the arena asked for is its own draw. -/
theorem resetCanDrawAnyArena : Obligations.ResetCanDrawAnyArena := fun _ m h =>
  ⟨m, fun _ => ⟨_, step_of_reset rfl, drawArena_of_memWf h⟩⟩

end Sys2Proof.Machine
